-- ==== Sys2Proof/Word.lean ====
section
/-! DEFINITION. The plain word and sequence types of FA-LSBE (spec/00_scope.md R7 to R9). -/

namespace Sys2Proof

/-- A value of width 8: a payload byte, a colour channel, a filename byte (R9, R60). -/
abbrev Byte := BitVec 8

/-- A bit sequence `[s_0, s_1, ...]`; `s_0` is the first bit, `true` is 1 (R9). -/
abbrev Bits := List Bool

/-- A byte sequence (R9). -/
abbrev Bytes := List Byte

end Sys2Proof
end

