-- ==== Sys2Proof/Syntax.lean ====
section
/-! DEFINITION. The commands of FA-LSBE: one constructor per row of spec/opcode_table.json. A command has no operand field
(spec/30_encoding.md R90); its operands are registers and memories. -/

namespace Sys2Proof

/-- The eight commands (spec/30_encoding.md R92). -/
inductive Instr where
  /-- 0x01 EMBED: validate, place the header, place the payload frame (R170). -/
  | embed
  /-- 0x02 EXTRACT: read the header, the length and the payload; recover the filename (R190). -/
  | extract
  /-- 0x03 HDRWR: serialize the HDR registers into pixels 0 to 578 (R135). -/
  | hdrwr
  /-- 0x04 HDRRD: deserialize pixels 0 to 578 into the HDR registers (R136). -/
  | hdrrd
  /-- 0x05 SELNEXT: the smallest eligible index at or above FLOOR (R154). -/
  | selnext
  /-- 0x06 SELCNT: the number of eligible indices at or above FLOOR (R155). -/
  | selcnt
  /-- 0x07 WRBITS: place the bits of `PAY[0..PLEN)` into the filtered eligible pixels (R167). -/
  | wrbits
  /-- 0x08 RDBITS: read BLEN bits from the filtered eligible pixels into PAY (R186). -/
  | rdbits
  deriving DecidableEq, Repr

end Sys2Proof
end

