-- ==== Sys2Proof/WellFormed.lean ====
section
/-! DEFINITION. What is a well-formed command, and a well-formed command word (spec/30_encoding.md R90 to R93). -/

namespace Sys2Proof

/-- Every command is well formed: a command has no field that could hold an illegal value (R90, R91). -/
def Instr.wellFormed : Instr → Bool
  | .embed | .extract | .hdrwr | .hdrrd | .selnext | .selcnt | .wrbits | .rdbits => true

/-- The one check on a command word: its opcode is in the map of R92, that is 0x01 to 0x08, and not reserved (R93). -/
def opcodeAssigned (op : BitVec 8) : Bool := 0x01 ≤ op.toNat && op.toNat ≤ 0x08

end Sys2Proof
end

