-- ==== Sys2Proof/Decode.lean ====
section
/-! DEFINITION. The decoder, total on every 8-bit command word, and the encoder (spec/30_encoding.md R90 to R93,
spec/opcode_table.json). -/

namespace Sys2Proof

/-- Why a command word is no command. -/
inductive DecodeReject where
  /-- The opcode is reserved: 0x00 or 0x09 to 0xFF (R93). -/
  | reservedOpcode (op : BitVec 8)
  deriving DecidableEq, Repr

/-- The opcode field of a value written to CMD: `OP = v[7:0]` (R90). -/
def opcodeField (v : Nat) : BitVec 8 := BitVec.ofNat 8 v

/-- Format C8: all eight bits are the opcode (R90); the map is R92's, and every other value is reserved (R93). -/
def decode (op : BitVec 8) : Except DecodeReject Instr :=
  match op.toNat with
  | 0x01 => .ok .embed
  | 0x02 => .ok .extract
  | 0x03 => .ok .hdrwr
  | 0x04 => .ok .hdrrd
  | 0x05 => .ok .selnext
  | 0x06 => .ok .selcnt
  | 0x07 => .ok .wrbits
  | 0x08 => .ok .rdbits
  | _ => .error (.reservedOpcode op)

/-- The instruction the decoder reads from a table row's word `w` of `nbits` bits. -/
def decodeTableWord (nbits w : Nat) : Option Instr :=
  match decode (opcodeField (w % 2 ^ nbits)) with
  | .ok i => some i
  | .error _ => none

/-- The command word of a command (R92). -/
def encode : Instr → BitVec 8
  | .embed => 0x01#8
  | .extract => 0x02#8
  | .hdrwr => 0x03#8
  | .hdrrd => 0x04#8
  | .selnext => 0x05#8
  | .selcnt => 0x06#8
  | .wrbits => 0x07#8
  | .rdbits => 0x08#8

end Sys2Proof
end

