-- ==== Sys2Proof/Config.lean ====
section
/-! DEFINITION. The constants the source fixes (spec/00_scope.md R5), the sizes the spec takes (R6), and the free values: what PIX and PAY
hold after a reset (spec/10_state.md R37, spec/93_implementation_defined.md U6). -/

namespace Sys2Proof.Config

/-- Width of the header's `info_type` field (R5). -/
def wInfo : Nat := 1
/-- Width of the header's `method` field (R5). -/
def wMethod : Nat := 2
/-- Number of bytes of the header's `filename` field (R5). -/
def fnameBytes : Nat := 64
/-- Width of the header's `filename` field (R5). -/
def wFname : Nat := 512
/-- Width of `first_bit_position` and of `last_bit_position` (R5). -/
def wPos : Nat := 32
/-- Width of the payload length prefix (R5). -/
def wLenPrefix : Nat := 32
/-- HDR_BITS, the length of the header frame in bits (R5). -/
def hdrBits : Nat := 579
/-- MAX_PAYLOAD, the largest payload length in bytes (R5). -/
def maxPayload : Nat := 0xFFFFFFFF

/-- Free value (log 2): the 24-bit cell that PIX holds at flattened index `idx` after reset number `epoch`, until it is
written. R37 and U6 call it unspecified ("any value, a draw per cell"); it has no body, so nothing can be proved of it. -/
opaque freePixCell (epoch idx : Nat) : BitVec 24

/-- Free value (log 2): the byte that PAY holds at address `a` after reset number `epoch`, until it is written (R37, U6). -/
opaque freePayByte (epoch a : Nat) : BitVec 8

end Sys2Proof.Config
end

