-- ==== Sys2Proof/Machine/State.lean ====
section
/-! DEFINITION. The state of FA-LSBE as plain data (spec/10_state.md), the reasons a step can stop, and the state after reset. -/

namespace Sys2Proof.Machine

/-- A pixel cell, the triple `(R, G, B)` of 8-bit components (spec/20_memory.md R61). -/
structure Pixel where
  r : Byte
  g : Byte
  b : Byte
  deriving DecidableEq, Repr

/-- A header value, and the five HDR registers as one (spec/41_header_codec.md R130, spec/10_state.md R30). -/
structure Header where
  /-- HDR_INFO, register 24. -/
  info : BitVec 1
  /-- HDR_METHOD, register 25. -/
  method : BitVec 2
  /-- HDR_FNAME[0..63], register 28. -/
  fname : Vector Byte 64
  /-- HDR_FIRST, register 26. -/
  first : BitVec 32
  /-- HDR_LAST, register 27. -/
  last : BitVec 32
  deriving DecidableEq, Repr

/-- A memory: the cells written since reset, addresses strictly rising (`Memory.wf`). An address that is not listed has
not been written since reset; what it reads as is `State.pixCell`'s and `State.payByte`'s free value (log 2). -/
abbrev Memory (α : Type) := List (Nat × α)

/-- One transaction of the host with the engine (spec/10_state.md R22, R35; spec/70_reset_and_hazards.md R240). Register
numbers are 8 bits (R21 numbers 0 to 255), PIX and PAY addresses 32 bits (spec/00_scope.md R6), PIX cells 24 bits (R61). -/
inductive HostAccess where
  /-- `HostWrite(n, v)`. -/
  | write (n : BitVec 8) (v : Nat)
  /-- `HostWrite(n, j, v)`, the form for an array register. -/
  | writeElem (n : BitVec 8) (j v : Nat)
  /-- `HostRead(n)`. -/
  | read (n : BitVec 8)
  /-- `HostRead(n, j)`, the form for an array register. -/
  | readElem (n : BitVec 8) (j : Nat)
  /-- `HostPixWrite(idx, c)`. -/
  | pixWrite (idx : BitVec 32) (c : BitVec 24)
  /-- `HostPixRead(idx)`. -/
  | pixRead (idx : BitVec 32)
  /-- `HostPayWrite(a, v)`. -/
  | payWrite (a : BitVec 32) (v : Byte)
  /-- `HostPayRead(a)`. -/
  | payRead (a : BitVec 32)
  /-- The reset event, applied from outside (R240). -/
  | reset
  deriving DecidableEq, Repr

/-- Reasons to stop with a fault. There is none: every error of a command is reported in STATUS and the engine is ready
for the next command (spec/60_exceptions.md R215, R219; log 11). -/
inductive Fault where
  deriving DecidableEq, Repr

/-- Reasons to stop because a situation has no meaning. -/
inductive Refusal where
  /-- Raised by `exec` for a command that is not modelled yet. Safe. No command is in this case. -/
  | notModelled (mnemonic : String)
  /-- Raised by `hostAccess` when STATUS.BUSY = 1: the spec leaves an access during a command undefined and has a model
  refuse it (spec/93_implementation_defined.md U5, R246; log 6). Safe. No step leaves BUSY = 1. -/
  | hostAccessWhileBusy
  /-- Raised by `hostAccess` when the number of an array register (FNAME, HDR_FNAME) is accessed without an element
  index: R22 gives that access no meaning (log 7). Safe. -/
  | arrayRegisterWithoutElement (n : BitVec 8)
  /-- Raised by `hostAccess` when the number of a register that is no array is accessed with an element index up to 63:
  R22 gives that access no meaning (log 7). Safe. -/
  | elementOfPlainRegister (n : BitVec 8) (j : Nat)
  deriving DecidableEq, Repr

/-- The whole state (spec/10_state.md R21, R35). The last three fields are the model's own. -/
structure State where
  /-- WIDTH, register 0. -/
  width : BitVec 16
  /-- HEIGHT, register 1. -/
  height : BitVec 16
  /-- METHOD, register 2. -/
  method : BitVec 8
  /-- INFO, register 3. -/
  info : BitVec 1
  /-- FNLEN, register 4. -/
  fnlen : BitVec 8
  /-- PLEN, register 5. -/
  plen : BitVec 64
  /-- FLOOR, register 6. -/
  floor : BitVec 32
  /-- BLEN, register 7. -/
  blen : BitVec 32
  /-- FNAME[0..63], register 8. -/
  fname : Vector Byte 64
  /-- RESULT, register 16. -/
  result : BitVec 32
  /-- REQ, register 17. -/
  req : BitVec 36
  /-- AVAIL, register 18. -/
  avail : BitVec 32
  /-- RLEN, register 19. -/
  rlen : BitVec 32
  /-- KIND, register 20. -/
  kind : BitVec 1
  /-- RFNLEN, register 21. -/
  rfnlen : BitVec 7
  /-- The HDR registers 24 to 28. -/
  hdr : Header
  /-- STATUS, register 33, as the word the host reads; its fields are in Machine/Flags.lean (R32). -/
  status : BitVec 12
  /-- PIX: the pixel cells written since reset (R35, R60). -/
  pix : Memory Pixel
  /-- PAY: the payload bytes written since reset (R35, R63). -/
  pay : Memory Byte
  /-- The model's own: how many reset events there have been; it selects the free values of unwritten cells (log 3). -/
  resets : Nat
  /-- The model's own: the host's transactions still to come, the next one first (log 1). -/
  host : List HostAccess
  /-- The model's own: the value the host's last read transaction returned (log 4). -/
  readData : BitVec 64
  deriving DecidableEq, Repr

/-- The HDR registers after reset: all zero (R37). -/
def Header.reset : Header :=
  { info := 0#1, method := 0#2, fname := Vector.replicate 64 0#8, first := 0#32, last := 0#32 }

/-- The machine right after reset (R37): every register 0, STATUS 0, PIX and PAY unwritten. -/
def State.reset : State :=
  { width := 0#16, height := 0#16, method := 0#8, info := 0#1, fnlen := 0#8, plen := 0#64, floor := 0#32, blen := 0#32,
    fname := Vector.replicate 64 0#8, result := 0#32, req := 0#36, avail := 0#32, rlen := 0#32, kind := 0#1,
    rfnlen := 0#7, hdr := Header.reset, status := 0#12, pix := [], pay := [], resets := 0, host := [], readData := 0#64 }

end Sys2Proof.Machine
end

