-- ==== Sys2Proof/Machine/Flags.lean ====
section
/-! DEFINITION. STATUS (spec/10_state.md R32), the error kinds and their codes (spec/60_exceptions.md R206), and every value a
command gives STATUS (R212, R213, R215). These are the engine's only flags. -/

namespace Sys2Proof.Machine

/-- The error kinds (R206). Codes 1 to 7 are the source's kinds, code 8 a reserved opcode. -/
inductive ErrorKind where
  | unsupportedMethod
  | imageTooSmall
  | insufficientCapacity
  | insufficientData
  | truncatedHeader
  | misalignedBits
  | payloadTooLarge
  | illegalCommand
  deriving DecidableEq, Repr

/-- STATUS.ERRCODE of an error kind (R206). -/
def errorCode : ErrorKind → BitVec 4
  | .unsupportedMethod => 1#4
  | .imageTooSmall => 2#4
  | .insufficientCapacity => 3#4
  | .insufficientData => 4#4
  | .truncatedHeader => 5#4
  | .misalignedBits => 6#4
  | .payloadTooLarge => 7#4
  | .illegalCommand => 8#4

/-- STATUS.BUSY, bit 0 (R32). -/
def statusBusy (st : BitVec 12) : Bool := st.getLsbD 0
/-- STATUS.DONE, bit 1 (R32). -/
def statusDone (st : BitVec 12) : Bool := st.getLsbD 1
/-- STATUS.ERR, bit 2 (R32). -/
def statusErr (st : BitVec 12) : Bool := st.getLsbD 2
/-- STATUS.END, bit 3 (R32). -/
def statusEnd (st : BitVec 12) : Bool := st.getLsbD 3
/-- The reserved bits 7:4 of STATUS (R32). -/
def statusReserved (st : BitVec 12) : BitVec 4 := st.extractLsb' 4 4
/-- STATUS.ERRCODE, bits 11:8 (R32). -/
def statusErrcode (st : BitVec 12) : BitVec 4 := st.extractLsb' 8 4

/-- The STATUS word with the given fields and reserved bits 0 (R32). -/
def statusWord (busy done err endFlag : Bool) (code : BitVec 4) : BitVec 12 :=
  code ++ 0#4 ++ BitVec.ofBool endFlag ++ BitVec.ofBool err ++ BitVec.ofBool done ++ BitVec.ofBool busy

/-- STATUS at a command start: BUSY = 1 and every other field 0 (R212). -/
def statusStarted : BitVec 12 := statusWord true false false false 0#4

/-- STATUS at a successful completion: DONE = 1, and END as SELNEXT's rule says, 0 for every other command (R213). -/
def statusCompleted (endFlag : Bool) : BitVec 12 := statusWord false true false endFlag 0#4

/-- STATUS after `raise`: DONE = ERR = 1, END = 0, and the code (R215). -/
def statusRaised (e : ErrorKind) : BitVec 12 := statusWord false true true false (errorCode e)

end Sys2Proof.Machine
end

