-- ==== Sys2Proof/Machine/Ops.lean ====
section
/-! DEFINITION. The named operations over the memories and over STATUS: reading and writing one cell, PixGetBit and PixSetBit, bit
sequences to and from pixels, command start, completion, and `raise` (spec/20_memory.md, spec/60_exceptions.md). -/

namespace Sys2Proof.Machine

/-- What every meaning answers. -/
abbrev Result := Host.Outcome State Fault Refusal

/-! ## Memories in canonical form -/

/-- The entry of a memory at an address; none where nothing has been written since reset. -/
def Memory.lookup {α : Type} : Memory α → Nat → Option α
  | [], _ => none
  | (k, v) :: m, a => if k = a then some v else Memory.lookup m a

/-- Writes one cell, keeping addresses strictly rising. -/
def Memory.write {α : Type} : Memory α → Nat → α → Memory α
  | [], a, x => [(a, x)]
  | (k, v) :: m, a, x =>
    if a < k then (a, x) :: (k, v) :: m
    else if a = k then (a, x) :: m
    else (k, v) :: Memory.write m a x

/-- Whether the addresses of a memory are strictly rising and all at least `lo`. -/
def Memory.rising {α : Type} (lo : Nat) : Memory α → Bool
  | [] => true
  | (k, _) :: m => lo ≤ k && Memory.rising (k + 1) m

/-- The canonical form: addresses strictly rising, so none is listed twice, and all within the 32-bit address space (R6,
R35). No listed entry equals what an unlisted address reads as in this list, because an unlisted address has no entry (log 2). -/
def Memory.wf {α : Type} (m : Memory α) : Bool := Memory.rising 0 m && m.all (fun c => c.1 < 2 ^ 32)

/-- Writes consecutive cells from an address on. -/
def Memory.writeAll {α : Type} : Memory α → Nat → List α → Memory α
  | m, _, [] => m
  | m, a, x :: xs => Memory.writeAll (Memory.write m a x) (a + 1) xs

/-! ## PIX -/

/-- A pixel cell from its 24-bit value: `R = c[23:16]`, `G = c[15:8]`, `B = c[7:0]` (R61). -/
def pixelOfCell (c : BitVec 24) : Pixel :=
  { r := c.extractLsb' 16 8, g := c.extractLsb' 8 8, b := c.extractLsb' 0 8 }

/-- A pixel cell as one 24-bit value (R61). -/
def cellOfPixel (p : Pixel) : BitVec 24 := p.r ++ p.g ++ p.b

/-- `MemRead(PIX, idx, 1)`: the cell at a flattened index; a cell not written since reset holds a free value (R10, R62; log 2). -/
def State.pixCell (s : State) (idx : Nat) : Pixel :=
  (s.pix.lookup idx).getD (pixelOfCell (Config.freePixCell s.resets idx))

/-- `MemWrite(PIX, idx, 1, c)` (R10). -/
def State.setPixCell (s : State) (idx : Nat) (c : Pixel) : State := { s with pix := s.pix.write idx c }

/-- `PixGetBit(idx)`: bit 0 of blue (R66). -/
def State.pixGetBit (s : State) (idx : Nat) : Bool := (s.pixCell idx).b.getLsbD 0

/-- Blue with bit 0 replaced and bits 7:1 kept (R67). -/
def setBlueLsb (b : Byte) (x : Bool) : Byte := b.extractLsb' 1 7 ++ BitVec.ofBool x

/-- `PixSetBit(idx, x)`: a read-modify-write of bit 0 of blue (R67). -/
def State.pixSetBit (s : State) (idx : Nat) (x : Bool) : State :=
  let c := s.pixCell idx
  s.setPixCell idx { c with b := setBlueLsb c.b x }

/-- Bit `i` of a bit sequence to the `i`-th index of an index sequence, until either ends (R74, R168). -/
def State.writeBits : State → List Nat → Bits → State
  | s, i :: is, x :: xs => State.writeBits (s.pixSetBit i x) is xs
  | s, _, _ => s

/-- The bits of an index sequence, in its order (R74, R187). -/
def State.readBits (s : State) (S : List Nat) : Bits := S.map s.pixGetBit

/-- `hdr_index(h) = h` for `0 <= h < 579`: the header region (R64, R65). -/
def headerIndices : List Nat := List.range Config.hdrBits

/-! ## PAY -/

/-- `PAY[a]`; a byte not written since reset holds a free value (R63, U6; log 2). -/
def State.payByte (s : State) (a : Nat) : Byte := (s.pay.lookup a).getD (Config.freePayByte s.resets a)

/-- `MemRead(PAY, 0, n)` (R10). -/
def State.payRead (s : State) (n : Nat) : Bytes := (List.range n).map s.payByte

/-- `MemWrite(PAY, 0, n, bs)` with `n` the length of `bs` (R10). -/
def State.payWrite (s : State) (bs : Bytes) : State := { s with pay := s.pay.writeAll 0 bs }

/-! ## Command start, completion and `raise` -/

/-- Command start: STATUS is cleared and BUSY set; this is also all there is of a return from an error, since nothing is
saved and nothing is acknowledged (R212, R219). -/
def State.beginCommand (s : State) : State := { s with status := statusStarted }

/-- Successful completion, with the END value of the command's rule (R213). -/
def State.complete (endFlag : Bool) (s : State) : State := { s with status := statusCompleted endFlag }

/-- `raise E`: the error entry. Only STATUS changes; there is no handler, no vector and no saved state, and the command
is over (R215). For InsufficientCapacity the caller has written REQ and AVAIL before. -/
def State.raise (e : ErrorKind) (s : State) : State := { s with status := statusRaised e }

/-- A command that ends in `raise E`: a next state, ready for the next command (R215, R219). -/
def raised (e : ErrorKind) (s : State) : Result := .next (s.raise e)

/-- A command that completes without error and with END = 0 (R213). -/
def completed (s : State) : Result := .next (s.complete false)

end Sys2Proof.Machine
end

