-- ==== Sys2Proof/Machine/BitCodec.lean ====
section
/-! DEFINITION. The bit codec (spec/40_bit_codec.md): bytes to bits and back, numbers to bits and back, the big-endian length. -/

namespace Sys2Proof.Machine

/-- The eight bits of a byte, most significant first (R71, R120). -/
def byteToBits (b : Byte) : Bits :=
  [b.getLsbD 7, b.getLsbD 6, b.getLsbD 5, b.getLsbD 4, b.getLsbD 3, b.getLsbD 2, b.getLsbD 1, b.getLsbD 0]

/-- `bytes_to_bits` (R120). -/
def bytesToBits (bs : Bytes) : Bits := bs.flatMap byteToBits

/-- `bits_to_nat(s)`: the sum of `s_k * 2^(w-1-k)`, first bit most significant (R124). -/
def bitsToNat : Bits → Nat
  | [] => 0
  | x :: xs => x.toNat * 2 ^ xs.length + bitsToNat xs

/-- `nat_to_bits(v, w)`: `s_k = v[w-1-k]` (R124). R124 defines it for `v < 2^w` only; of a larger value the model keeps the low `w` bits
(DESIGN CHOICE, log 14). The engine gives it register values at their own width, so no command meets that case. -/
def natToBits (v w : Nat) : Bits := (List.range w).map (fun k => v.testBit (w - 1 - k))

/-- The byte of eight bits, the first one of weight 128 (R122). -/
def bitsToByte (x7 x6 x5 x4 x3 x2 x1 x0 : Bool) : Byte :=
  BitVec.ofNat 8 (x7.toNat * 128 + x6.toNat * 64 + x5.toNat * 32 + x4.toNat * 16
    + x3.toNat * 8 + x2.toNat * 4 + x1.toNat * 2 + x0.toNat)

/-- The bytes of a bit sequence, eight bits each, of as many whole groups of eight as it has (R122). -/
def packBytes : Bits → Bytes
  | x7 :: x6 :: x5 :: x4 :: x3 :: x2 :: x1 :: x0 :: xs => bitsToByte x7 x6 x5 x4 x3 x2 x1 x0 :: packBytes xs
  | _ => []

/-- `bits_to_bytes`: MisalignedBits, or the bytes (R122). -/
def bitsToBytes (s : Bits) : Except ErrorKind Bytes :=
  if s.length % 8 ≠ 0 then .error .misalignedBits else .ok (packBytes s)

/-- `be32(n)`, the big-endian length prefix (R72). -/
def be32 (n : BitVec 32) : Bytes :=
  [n.extractLsb' 24 8, n.extractLsb' 16 8, n.extractLsb' 8 8, n.extractLsb' 0 8]

/-- `frame_bits(n, p)`: the payload frame, length prefix then payload, MSB first (spec/43_embed.md R166). -/
def frameBits (n : BitVec 32) (p : Bytes) : Bits := bytesToBits (be32 n ++ p)

end Sys2Proof.Machine
end

