-- ==== Sys2Proof/Machine/HeaderCodec.lean ====
section
/-! DEFINITION. The header serializer and deserializer and the filename field (spec/41_header_codec.md, spec/30_encoding.md R95 to R97). -/

namespace Sys2Proof.Machine

/-- `hdr_encode(hdr)`, the 579-bit frame (R131, R95). -/
def hdrEncode (h : Header) : Bits :=
  natToBits h.info.toNat Config.wInfo ++ natToBits h.method.toNat Config.wMethod ++ bytesToBits h.fname.toList
    ++ natToBits h.first.toNat Config.wPos ++ natToBits h.last.toNat Config.wPos

/-- Sequence positions `a <= k < b` of a sequence, `s[a..b)` (spec/00_scope.md R9). -/
def slice {α : Type} (s : List α) (a b : Nat) : List α := (s.drop a).take (b - a)

/-- A byte sequence in a 64-byte field: element `j` is byte `j`, or 0x00 past its end; bytes past the 64th are dropped.
This is `fname64(bs)` (spec/30_encoding.md R97). -/
def fname64 (bs : Bytes) : Vector Byte 64 := Vector.ofFn (fun j => bs.getD j.val 0#8)

/-- `hdr_decode(s)`: TruncatedHeader below 579 bits, else the five fields, with no check of what they mean (R132). The
engine gives it exactly 579 bits; of a longer sequence it reads the first 579 (log 10). -/
def hdrDecode (s : Bits) : Except ErrorKind Header :=
  if s.length < Config.hdrBits then .error .truncatedHeader
  else
    match bitsToBytes (slice s 3 515) with
    | .error e => .error e
    | .ok name => .ok
      { info := BitVec.ofNat 1 (bitsToNat (slice s 0 1))
        method := BitVec.ofNat 2 (bitsToNat (slice s 1 3))
        fname := fname64 name
        first := BitVec.ofNat 32 (bitsToNat (slice s 515 547))
        last := BitVec.ofNat 32 (bitsToNat (slice s 547 579)) }

/-- `fname_recover(fname)`: the bytes before the first zero byte, all 64 when there is none (R138). -/
def fnameRecover (fname : Vector Byte 64) : Bytes := fname.toList.takeWhile (fun b => b != 0#8)

end Sys2Proof.Machine
end

