-- ==== Sys2Proof/Machine/Selector.lean ====
section
/-! DEFINITION. The pixel-index selector (spec/42_index_selector.md): the methods, eligibility, the eligible and the filtered sequence. -/

namespace Sys2Proof.Machine

/-- The four methods (spec/30_encoding.md R94). -/
inductive Method where
  /-- 0: all pixels. -/
  | all
  /-- 1: even-indexed pixels. -/
  | even
  /-- 2: odd-indexed pixels. -/
  | odd
  /-- 3: border pixels. -/
  | border
  deriving DecidableEq, Repr

/-- The code of a method, the same in the METHOD operand and in the header field (R94). -/
def methodCode : Method → Nat
  | .all => 0
  | .even => 1
  | .odd => 2
  | .border => 3

/-- The method of a 2-bit header field: every code is legal (R94, spec/41_header_codec.md R134). -/
def methodOfField (m : BitVec 2) : Method :=
  match m.toNat with
  | 0 => .all
  | 1 => .even
  | 2 => .odd
  | _ => .border

/-- The selector's invocation with the 8-bit METHOD operand: UnsupportedMethod above 3 (R94, R152). -/
def methodOfOperand (m : BitVec 8) : Except ErrorKind Method :=
  match m.toNat with
  | 0 => .ok .all
  | 1 => .ok .even
  | 2 => .ok .odd
  | 3 => .ok .border
  | _ => .error .unsupportedMethod

/-- `elig(m, idx)` in a `W x H` image (R145 to R149). For method 3, `x = idx mod W` and `y = idx div W`; it is asked only
for `idx < W*H`, so `W >= 1` and `H >= 1`, and `x = W-1` is written `x + 1 = W`. -/
def elig (W H : Nat) (m : Method) (idx : Nat) : Bool :=
  match m with
  | .all => true
  | .even => idx % 2 == 0
  | .odd => idx % 2 == 1
  | .border => idx % W == 0 || idx % W + 1 == W || idx / W == 0 || idx / W + 1 == H

/-- `eligible_indices(W, H, m)`: all eligible indices of the whole image, ascending (R150). -/
def eligibleIndices (W H : Nat) (m : Method) : List Nat := (List.range (W * H)).filter (elig W H m)

/-- `E(m, f)`: the eligible indices with every element below the floor dropped, by value (R151). -/
def filteredIndices (W H : Nat) (m : Method) (f : Nat) : List Nat :=
  (eligibleIndices W H m).filter (fun idx => decide (f ≤ idx))

end Sys2Proof.Machine
end

