-- ==== Sys2Proof/Machine/Operands.lean ====
section
/-! DEFINITION. Every operand a command takes, read from the registers and memories at its start (spec/30_encoding.md R90, R92), and the
two access forms over a filtered sequence, `place` and `take` (spec/43_embed.md R168, spec/44_extract.md R187). -/

namespace Sys2Proof.Machine

/-- `N = WIDTH * HEIGHT`, the pixel count (spec/00_scope.md R11). -/
def State.pixelCount (s : State) : Nat := s.width.toNat * s.height.toNat

/-- `E(m, f)` in the image of WIDTH and HEIGHT (R11, R151). -/
def State.filtered (s : State) (m : Method) (f : Nat) : List Nat :=
  filteredIndices s.width.toNat s.height.toNat m f

/-- The METHOD operand (spec/10_state.md R24, R152). -/
def State.methodOperand (s : State) : Except ErrorKind Method := methodOfOperand s.method

/-- The filename operand `[FNAME[0], ..., FNAME[min(FNLEN,64)-1]]` (spec/10_state.md R26). -/
def State.nameOperand (s : State) : Bytes := s.fname.toList.take (min s.fnlen.toNat Config.fnameBytes)

/-- The payload operand `PAY[0..PLEN)` (spec/10_state.md R27). -/
def State.payloadOperand (s : State) : Bytes := s.payRead s.plen.toNat

/-- The 579 bits of the header region (spec/41_header_codec.md R136). -/
def State.headerBits (s : State) : Bits := s.readBits headerIndices

/-- The header region written with a header's frame (spec/41_header_codec.md R135). -/
def State.writeHeader (s : State) (h : Header) : State := s.writeBits headerIndices (hdrEncode h)

/-- REQ and AVAIL, written whenever the capacity comparison is evaluated (spec/10_state.md R29). -/
def State.recordCapacity (s : State) (required available : Nat) : State :=
  { s with req := BitVec.ofNat 36 required, avail := BitVec.ofNat 32 available }

/-- `place(s, S)`: InsufficientCapacity before any write, or bit `i` to the `i`-th index (R168). -/
def State.place (s : State) (bits : Bits) (S : List Nat) : Except ErrorKind State :=
  if S.length < bits.length then .error .insufficientCapacity else .ok (s.writeBits S bits)

/-- `take(S, c)`: InsufficientData before any read, or the bits of the first `c` indices (R187). -/
def State.takeBits (s : State) (S : List Nat) (c : Nat) : Except ErrorKind Bits :=
  if S.length < c then .error .insufficientData else .ok (s.readBits (S.take c))

end Sys2Proof.Machine
end

