-- ==== Sys2Proof/Machine/Embed.lean ====
section
/-! DEFINITION. The write side of the mapper: WRBITS and EMBED (spec/43_embed.md R167, R170). -/

namespace Sys2Proof.Machine

/-- WRBITS, opcode 0x07 (R167). The capacity check is `place`'s, made on `8*PLEN` before the bits are formed (R216). -/
def execWrbits (s : State) : Result :=
  let s := s.beginCommand
  if Config.maxPayload < s.plen.toNat then raised .payloadTooLarge s
  else
    match s.methodOperand with
    | .error e => raised e s
    | .ok m =>
      let S := s.filtered m s.floor.toNat
      let required := 8 * s.plen.toNat
      let s := s.recordCapacity required S.length
      if S.length < required then raised .insufficientCapacity s
      else
        match s.place (bytesToBits s.payloadOperand) S with
        | .error e => raised e s
        | .ok t => completed t

/-- The header EMBED builds from its operands and the indices of the first and the last payload pixel (R170 steps 4, 5). -/
def State.embedHeader (s : State) (first last : Nat) : Header :=
  { info := s.info
    method := s.method.extractLsb' 0 2
    fname := fname64 s.nameOperand
    first := BitVec.ofNat 32 first
    last := BitVec.ofNat 32 last }

/-- EMBED, opcode 0x01 (R170). -/
def execEmbed (s : State) : Result :=
  let s := s.beginCommand
  -- step 1: the frame's length
  if Config.maxPayload < s.plen.toNat then raised .payloadTooLarge s
  else
    let L := Config.wLenPrefix + 8 * s.plen.toNat
    -- step 2: room for the header
    if s.pixelCount < Config.hdrBits then raised .imageTooSmall s
    else
      -- step 3: capacity under the method
      match s.methodOperand with
      | .error e => raised e s
      | .ok m =>
        let S := s.filtered m Config.hdrBits
        let s := s.recordCapacity L S.length
        if S.length < L then raised .insufficientCapacity s
        else
          -- steps 4 and 5: the recorded positions and the header
          let hdr := s.embedHeader (S.getD 0 0) (S.getD (L - 1) 0)
          let t := { s with hdr := hdr }.writeHeader hdr
          -- step 6: the payload frame
          match t.place (frameBits (s.plen.extractLsb' 0 32) s.payloadOperand) S with
          | .error e => raised e s
          | .ok t => completed t

end Sys2Proof.Machine
end

