-- ==== Sys2Proof/Machine/Extract.lean ====
section
/-! DEFINITION. The read side of the mapper: RDBITS and EXTRACT (spec/44_extract.md R186, R190). -/

namespace Sys2Proof.Machine

/-- RDBITS, opcode 0x08 (R186). -/
def execRdbits (s : State) : Result :=
  let s := s.beginCommand
  match s.methodOperand with
  | .error e => raised e s
  | .ok m =>
    match s.takeBits (s.filtered m s.floor.toNat) s.blen.toNat with
    | .error e => raised e s
    | .ok bits =>
      match bitsToBytes bits with
      | .error e => raised e s
      | .ok bs => completed { s.payWrite bs with rlen := BitVec.ofNat 32 (s.blen.toNat / 8) }

/-- The results of a successful EXTRACT (R190 step 6): HDR, the payload in PAY, RLEN, KIND, and RFNLEN for a file. -/
def State.extractResults (s : State) (h : Header) (len : Nat) (p : Bytes) : State :=
  { s.payWrite p with
    hdr := h
    rlen := BitVec.ofNat 32 len
    kind := h.info
    rfnlen := if h.info = 1#1 then BitVec.ofNat 7 (fnameRecover h.fname).length else 0#7 }

/-- EXTRACT, opcode 0x02 (R190). The header's method is a 2-bit field, so UnsupportedMethod cannot arise (R134,
spec/90_conflicts.md C2), and `last` bounds nothing (R191). The total `T` is a natural number and does not wrap (R13 e). -/
def execExtract (s : State) : Result :=
  let s := s.beginCommand
  -- step 1: the header
  if s.pixelCount < Config.hdrBits then raised .truncatedHeader s
  else
    match hdrDecode s.headerBits with
    | .error e => raised e s
    | .ok h =>
      -- step 2: the filtered sequence of the header's own method
      let S := s.filtered (methodOfField h.method) (max h.first.toNat Config.hdrBits)
      -- step 3: the length
      match s.takeBits S Config.wLenPrefix with
      | .error e => raised e s
      | .ok lenBits =>
        let len := bitsToNat lenBits
        -- step 4: the whole frame, from the same start
        match s.takeBits S (Config.wLenPrefix + 8 * len) with
        | .error e => raised e s
        | .ok bits =>
          match bitsToBytes bits with
          | .error e => raised e s
          -- steps 5 and 6: the prefix dropped, the results
          | .ok bs => completed (s.extractResults h len (slice bs 4 (4 + len)))

end Sys2Proof.Machine
end

