-- ==== Sys2Proof/Machine/HeaderCommands.lean ====
section
/-! DEFINITION. The header commands HDRWR and HDRRD (spec/41_header_codec.md R135, R136). -/

namespace Sys2Proof.Machine

/-- HDRWR, opcode 0x03 (R135). -/
def execHdrwr (s : State) : Result :=
  let s := s.beginCommand
  if s.pixelCount < Config.hdrBits then raised .imageTooSmall s
  else completed (s.writeHeader s.hdr)

/-- HDRRD, opcode 0x04 (R136). -/
def execHdrrd (s : State) : Result :=
  let s := s.beginCommand
  if s.pixelCount < Config.hdrBits then raised .truncatedHeader s
  else
    match hdrDecode s.headerBits with
    | .error e => raised e s
    | .ok h => completed { s with hdr := h }

end Sys2Proof.Machine
end

