-- ==== Sys2Proof/Machine/SelectorCommands.lean ====
section
/-! DEFINITION. The selector commands SELNEXT and SELCNT (spec/42_index_selector.md R154, R155). -/

namespace Sys2Proof.Machine

/-- SELNEXT, opcode 0x05 (R154). An empty sequence is no error: RESULT is 0xFFFFFFFF and END is 1. -/
def execSelnext (s : State) : Result :=
  let s := s.beginCommand
  match s.methodOperand with
  | .error e => raised e s
  | .ok m =>
    match s.filtered m s.floor.toNat with
    | idx :: _ => .next ({ s with result := BitVec.ofNat 32 idx }.complete false)
    | [] => .next ({ s with result := 0xFFFFFFFF#32 }.complete true)

/-- SELCNT, opcode 0x06 (R155). -/
def execSelcnt (s : State) : Result :=
  let s := s.beginCommand
  match s.methodOperand with
  | .error e => raised e s
  | .ok m => completed { s with result := BitVec.ofNat 32 (s.filtered m s.floor.toNat).length }

end Sys2Proof.Machine
end

