-- ==== Sys2Proof/Machine/Dispatch.lean ====
section
/-! DEFINITION. One arm per command: which meaning runs it. -/

namespace Sys2Proof.Machine

def exec (i : Instr) (s : State) : Host.Outcome State Fault Refusal :=
  match i with
  | .embed => Sys2Proof.Machine.execEmbed s
  | .extract => Sys2Proof.Machine.execExtract s
  | .hdrwr => Sys2Proof.Machine.execHdrwr s
  | .hdrrd => Sys2Proof.Machine.execHdrrd s
  | .selnext => Sys2Proof.Machine.execSelnext s
  | .selcnt => Sys2Proof.Machine.execSelcnt s
  | .wrbits => Sys2Proof.Machine.execWrbits s
  | .rdbits => Sys2Proof.Machine.execRdbits s

end Sys2Proof.Machine
end

