-- ==== Sys2Proof/Machine/HostPort.lean ====
section
/-! DEFINITION. The host port: the register table (spec/10_state.md R21), register reads and writes (R22), the memory ports (R35),
command start (spec/60_exceptions.md R212), reserved opcodes (R218) and the reset event (spec/70_reset_and_hazards.md R240). -/

namespace Sys2Proof.Machine

/-- The registers by name (R21). -/
inductive Reg where
  | width | height | method | info | fnlen | plen | floor | blen | fname
  | result | req | avail | rlen | kind | rfnlen
  | hdrInfo | hdrMethod | hdrFirst | hdrLast | hdrFname
  | cmd | status
  deriving DecidableEq, Repr

/-- The host's access to a register (R21). -/
inductive Access where
  | readWrite | readOnly | writeOnly
  deriving DecidableEq, Repr

/-- Register numbers (R21). -/
def regNumber : Reg → BitVec 8
  | .width => 0 | .height => 1 | .method => 2 | .info => 3 | .fnlen => 4 | .plen => 5 | .floor => 6 | .blen => 7
  | .fname => 8 | .result => 16 | .req => 17 | .avail => 18 | .rlen => 19 | .kind => 20 | .rfnlen => 21
  | .hdrInfo => 24 | .hdrMethod => 25 | .hdrFirst => 26 | .hdrLast => 27 | .hdrFname => 28 | .cmd => 32 | .status => 33

/-- The register with a number; the numbers 9 to 15, 22, 23, 29 to 31 and 34 to 255 are unassigned (R21). -/
def regOfNumber (n : BitVec 8) : Option Reg :=
  match n.toNat with
  | 0 => some .width | 1 => some .height | 2 => some .method | 3 => some .info | 4 => some .fnlen | 5 => some .plen
  | 6 => some .floor | 7 => some .blen | 8 => some .fname | 16 => some .result | 17 => some .req | 18 => some .avail
  | 19 => some .rlen | 20 => some .kind | 21 => some .rfnlen | 24 => some .hdrInfo | 25 => some .hdrMethod
  | 26 => some .hdrFirst | 27 => some .hdrLast | 28 => some .hdrFname | 32 => some .cmd | 33 => some .status
  | _ => none

/-- Widths; of an array register, of one element (R21). CMD takes the low 8 bits of what is written (R34, R90). -/
def regWidth : Reg → Nat
  | .width | .height => 16
  | .method | .fnlen | .fname | .hdrFname | .cmd => 8
  | .info | .kind | .hdrInfo => 1
  | .plen => 64
  | .floor | .blen | .result | .avail | .rlen | .hdrFirst | .hdrLast => 32
  | .req => 36
  | .rfnlen => 7
  | .hdrMethod => 2
  | .status => 12

/-- The access column of R21. -/
def regAccess : Reg → Access
  | .width | .height | .method | .info | .fnlen | .plen | .floor | .blen | .fname => .readWrite
  | .hdrInfo | .hdrMethod | .hdrFirst | .hdrLast | .hdrFname => .readWrite
  | .result | .req | .avail | .rlen | .kind | .rfnlen | .status => .readOnly
  | .cmd => .writeOnly

/-- The two array registers of 64 elements (R21). -/
def regIsArray : Reg → Bool
  | .fname | .hdrFname => true
  | _ => false

/-- What a register that is no array holds; CMD reads as 0 (R22). -/
def State.readReg (s : State) : Reg → Nat
  | .width => s.width.toNat
  | .height => s.height.toNat
  | .method => s.method.toNat
  | .info => s.info.toNat
  | .fnlen => s.fnlen.toNat
  | .plen => s.plen.toNat
  | .floor => s.floor.toNat
  | .blen => s.blen.toNat
  | .result => s.result.toNat
  | .req => s.req.toNat
  | .avail => s.avail.toNat
  | .rlen => s.rlen.toNat
  | .kind => s.kind.toNat
  | .rfnlen => s.rfnlen.toNat
  | .hdrInfo => s.hdr.info.toNat
  | .hdrMethod => s.hdr.method.toNat
  | .hdrFirst => s.hdr.first.toNat
  | .hdrLast => s.hdr.last.toNat
  | .status => s.status.toNat
  | .cmd => 0
  | .fname | .hdrFname => 0

/-- Element `j` of an array register; an index above 63, like an unassigned number, reads 0 (R22). -/
def State.readElem (s : State) (r : Reg) (j : Nat) : Nat :=
  match r with
  | .fname => (s.fname.toList.getD j 0#8).toNat
  | .hdrFname => (s.hdr.fname.toList.getD j 0#8).toNat
  | _ => 0

/-- `HostWrite(n, v)` to a register that is no array and not CMD: an RW register of width `w` holds `v mod 2^w`, an RO
register is unchanged (R22). -/
def State.writeReg (s : State) (r : Reg) (v : Nat) : State :=
  match r with
  | .width => { s with width := BitVec.ofNat 16 v }
  | .height => { s with height := BitVec.ofNat 16 v }
  | .method => { s with method := BitVec.ofNat 8 v }
  | .info => { s with info := BitVec.ofNat 1 v }
  | .fnlen => { s with fnlen := BitVec.ofNat 8 v }
  | .plen => { s with plen := BitVec.ofNat 64 v }
  | .floor => { s with floor := BitVec.ofNat 32 v }
  | .blen => { s with blen := BitVec.ofNat 32 v }
  | .hdrInfo => { s with hdr := { s.hdr with info := BitVec.ofNat 1 v } }
  | .hdrMethod => { s with hdr := { s.hdr with method := BitVec.ofNat 2 v } }
  | .hdrFirst => { s with hdr := { s.hdr with first := BitVec.ofNat 32 v } }
  | .hdrLast => { s with hdr := { s.hdr with last := BitVec.ofNat 32 v } }
  | .result | .req | .avail | .rlen | .kind | .rfnlen | .status | .cmd | .fname | .hdrFname => s

/-- Element `j` of a 64-element array replaced; an index above 63 changes nothing (R22). -/
def setElem (a : Vector Byte 64) (j : Nat) (x : Byte) : Vector Byte 64 := a.setIfInBounds j x

/-- `HostWrite(n, j, v)` to an array register (R22). -/
def State.writeElem (s : State) (r : Reg) (j v : Nat) : State :=
  match r with
  | .fname => { s with fname := setElem s.fname j (BitVec.ofNat 8 v) }
  | .hdrFname => { s with hdr := { s.hdr with fname := setElem s.hdr.fname j (BitVec.ofNat 8 v) } }
  | _ => s

/-- A reserved opcode: a command that does nothing but `raise IllegalCommand` (R93, R218). -/
def execReserved (s : State) : Result := raised .illegalCommand s.beginCommand

/-- `HostWrite(CMD, v)`: the command of opcode `v[7:0]` runs to completion, in one step (R212, R214). -/
def startCommand (v : Nat) (s : State) : Result :=
  match decode (opcodeField v) with
  | .ok i => exec i s
  | .error (.reservedOpcode _) => execReserved s

/-- A read transaction: nothing changes but the value the host holds from it (R22; log 4). -/
def State.answerRead (s : State) (v : Nat) : State := { s with readData := BitVec.ofNat 64 v }

/-- The reset event: from any state to the reset state; PIX and PAY hold new unspecified values (R37, R240, R241; log 3). What the
host has read and has still to do is the host's, and stays. -/
def State.resetEvent (s : State) : State :=
  { State.reset with resets := s.resets + 1, host := s.host, readData := s.readData }

/-- One access to a register, by number, without an element index (R22). -/
def writeNumber (n : BitVec 8) (v : Nat) (s : State) : Result :=
  match regOfNumber n with
  | none => .next s
  | some .cmd => startCommand v s
  | some r => if regIsArray r then .refused (.arrayRegisterWithoutElement n) else .next (s.writeReg r v)

/-- `HostWrite(n, j, v)`: an element index above 63 is as an unassigned number (R22). -/
def writeNumberElem (n : BitVec 8) (j v : Nat) (s : State) : Result :=
  match regOfNumber n with
  | none => .next s
  | some r =>
    if 63 < j then .next s
    else if regIsArray r then .next (s.writeElem r j v)
    else .refused (.elementOfPlainRegister n j)

/-- `HostRead(n)`; an unassigned number reads 0 (R22). -/
def readNumber (n : BitVec 8) (s : State) : Result :=
  match regOfNumber n with
  | none => .next (s.answerRead 0)
  | some r => if regIsArray r then .refused (.arrayRegisterWithoutElement n) else .next (s.answerRead (s.readReg r))

/-- `HostRead(n, j)`; an element index above 63 is as an unassigned number (R22). -/
def readNumberElem (n : BitVec 8) (j : Nat) (s : State) : Result :=
  match regOfNumber n with
  | none => .next (s.answerRead 0)
  | some r =>
    if 63 < j then .next (s.answerRead 0)
    else if regIsArray r then .next (s.answerRead (s.readElem r j))
    else .refused (.elementOfPlainRegister n j)

/-- One transaction on an engine that is idle (BUSY = 0). -/
def hostAccessIdle (a : HostAccess) (s : State) : Result :=
  match a with
  | .write n v => writeNumber n v s
  | .writeElem n j v => writeNumberElem n j v s
  | .read n => readNumber n s
  | .readElem n j => readNumberElem n j s
  | .pixWrite idx c => .next (s.setPixCell idx.toNat (pixelOfCell c))
  | .pixRead idx => .next (s.answerRead (cellOfPixel (s.pixCell idx.toNat)).toNat)
  | .payWrite a v => .next { s with pay := s.pay.write a.toNat v }
  | .payRead a => .next (s.answerRead (s.payByte a.toNat).toNat)
  | .reset => .next s.resetEvent

/-- One transaction. While a command runs (BUSY = 1, which no step leaves) every one but the reset event is refused (R246,
U5, R241; log 6). -/
def hostAccess (a : HostAccess) (s : State) : Result :=
  match a with
  | .reset => .next s.resetEvent
  | _ => if statusBusy s.status then .refused .hostAccessWhileBusy else hostAccessIdle a s

/-- Whether a transaction's form fits the register it names (R22; log 7). -/
def HostAccess.wellFormed : HostAccess → Bool
  | .write n _ | .read n => (regOfNumber n).all (fun r => !regIsArray r)
  | .writeElem n j _ | .readElem n j => 63 < j || (regOfNumber n).all regIsArray
  | .pixWrite _ _ | .pixRead _ | .payWrite _ _ | .payRead _ | .reset => true

/-- The transaction that hands the engine a table row's word: a write to CMD. The bits above `nbits` are 0. -/
def commandAccess (nbits w : Nat) : HostAccess := .write (regNumber .cmd) (w % 2 ^ nbits)

/-- STATUS with BUSY cleared: what a command start needs of it (R212, R246). -/
def statusIdle (st : BitVec 12) : BitVec 12 := st &&& 0xFFE#12

end Sys2Proof.Machine
end

