-- ==== Sys2Proof/Machine/Step.lean ====
section
/-! DEFINITION. One step: the host's next transaction. With none to come the engine is idle and keeps its state (spec/60_exceptions.md
R226 H6; log 1). -/

namespace Sys2Proof.Machine

/-- One step of the machine (spec/00_scope.md R12, spec/10_state.md R20, R33): the order of commands is the order of the host's writes to CMD. -/
def step (s : State) : Host.Outcome State Fault Refusal :=
  match s.host with
  | [] => .next s
  | a :: rest => hostAccess a { s with host := rest }

/-- The state whose next step runs the command word `w`: the host's next transaction is the CMD write, and the engine is idle
(log 1). Nothing else changes. -/
def State.withFetchWord (s : State) (nbits w : Nat) : State :=
  { s with host := commandAccess nbits w :: s.host, status := statusIdle s.status }

end Sys2Proof.Machine
end

