-- ==== Sys2Proof/Machine/Script.lean ====
section
/-! DEFINITION. The host script notation and its pseudo-statements (spec/30_encoding.md R101, R102): each statement is the list of host
transactions it stands for. -/

namespace Sys2Proof.Machine

/-- One statement of a host script. Addresses have the widths of the ports (R6). -/
inductive Stmt where
  /-- `wr REG, v`. -/
  | wr (r : Reg) (v : Nat)
  /-- `wr REG[j], v`, for an array register. -/
  | wrElem (r : Reg) (j v : Nat)
  /-- `rd REG`. -/
  | rd (r : Reg)
  /-- `pix idx, (r, g, b)`. -/
  | pix (idx : BitVec 32) (c : Pixel)
  /-- `pixfill a, b, (r, g, b)`, the cells `a <= idx < b`. R101 gives the exclusive end `b` no range: the model takes any number here and
  calls an end above `2^32`, past the last cell 0xFFFFFFFF, ill-formed (DESIGN CHOICE, log 13). -/
  | pixfill (a : BitVec 32) (b : Nat) (c : Pixel)
  /-- `pay a, v`. -/
  | pay (a : BitVec 32) (v : Byte)
  /-- `cmd MNEMONIC`. -/
  | cmd (i : Instr)
  /-- `cmd` with an opcode written as a number (spec/95_test_vectors.md P5). -/
  | cmdWord (op : BitVec 8)
  /-- `setimg w, h`. -/
  | setimg (w h : Nat)
  /-- `fname "s"`, with the UTF-8 bytes of `s`. -/
  | fname (name : Bytes)
  /-- `payload b_0 ... b_(n-1)`. -/
  | payload (p : Bytes)
  /-- `hidetext m`. -/
  | hidetext (m : Nat)
  /-- `hidefile m, "s"`. -/
  | hidefile (m : Nat) (name : Bytes)
  /-- `extract`. -/
  | extract
  deriving DecidableEq, Repr

/-- `wr REG, v`. -/
def wrAccess (r : Reg) (v : Nat) : HostAccess := .write (regNumber r) v

/-- `cmd` of an opcode: `HostWrite(32, OP)`. -/
def cmdAccess (op : BitVec 8) : HostAccess := wrAccess .cmd op.toNat

/-- The accesses of `fname "s"`: `wr FNAME[j], s_j` for `j < min(n, 64)`, then `wr FNLEN, min(n, 255)` (R102). -/
def fnameAccesses (name : Bytes) : List HostAccess :=
  (List.range (min name.length 64)).map (fun j => .writeElem (regNumber .fname) j (name.getD j 0#8).toNat)
    ++ [wrAccess .fnlen (min name.length 255)]

/-- The host accesses a statement stands for, in order (R101, R102). -/
def expandStmt : Stmt → List HostAccess
  | .wr r v => [wrAccess r v]
  | .wrElem r j v => [.writeElem (regNumber r) j v]
  | .rd r => [.read (regNumber r)]
  | .pix idx c => [.pixWrite idx (cellOfPixel c)]
  | .pixfill a b c => (List.range' a.toNat (b - a.toNat)).map (fun i => .pixWrite (BitVec.ofNat 32 i) (cellOfPixel c))
  | .pay a v => [.payWrite a v]
  | .cmd i => [cmdAccess (encode i)]
  | .cmdWord op => [cmdAccess op]
  | .setimg w h => [wrAccess .width w, wrAccess .height h]
  | .fname name => fnameAccesses name
  | .payload p => (List.range p.length).map (fun j => .payWrite (BitVec.ofNat 32 j) (p.getD j 0#8)) ++ [wrAccess .plen p.length]
  | .hidetext m => [wrAccess .method m, wrAccess .info 0, wrAccess .fnlen 0, cmdAccess (encode .embed)]
  | .hidefile m name => [wrAccess .method m, wrAccess .info 1] ++ fnameAccesses name ++ [cmdAccess (encode .embed)]
  | .extract =>
    [cmdAccess (encode .extract), .read (regNumber .status), .read (regNumber .kind), .read (regNumber .rlen),
      .read (regNumber .rfnlen)]

/-- A script as the host's transactions. -/
def expandScript (p : List Stmt) : List HostAccess := p.flatMap expandStmt

/-- A claim of the notation about the present state (R101); none of them is an access. -/
inductive Expect where
  /-- `expect REG = v`. Of an array register R101 and R22 give no value that `rd REG` would return; see `Expect.wellFormed` (log 15). -/
  | reg (r : Reg) (v : Nat)
  /-- `expectpix idx .B0 = b`. -/
  | pixB0 (idx : BitVec 32) (x : Bool)
  /-- `expectpay a = v`. -/
  | pay (a : BitVec 32) (v : Byte)
  deriving DecidableEq, Repr

/-- Whether a claim is one of the notation: `expect` names a register that `rd` can read without an element index. That a claim about an
array register is ill-formed is the model's choice (DESIGN CHOICE, log 15), as `rd` of one is refused (log 7). -/
def Expect.wellFormed : Expect → Bool
  | .reg r _ => !regIsArray r
  | .pixB0 _ _ | .pay _ _ => true

/-- Whether a claim of the notation holds (R101). A claim about an array register, which is ill-formed, holds for no value (DESIGN CHOICE,
log 15). -/
def Expect.holds (s : State) : Expect → Bool
  | .reg r v => !regIsArray r && s.readReg r == v
  | .pixB0 idx x => s.pixGetBit idx.toNat == x
  | .pay a v => s.payByte a.toNat == v

/-- Whether a statement is one of the notation. Array registers take an element index, of any size, since R22 gives one above 63 an effect
(none); other registers take none (R22, R101). Two checks are the model's choice: an array register without an element index is ill-formed,
as its access is (log 7), and a fill and a payload stay inside the 32-bit addresses of their memories (log 13). -/
def Stmt.wellFormed : Stmt → Bool
  | .wr r _ | .rd r => !regIsArray r
  | .wrElem r _ _ => regIsArray r
  | .pixfill _ b _ => b ≤ 2 ^ 32
  | .payload p => p.length ≤ 2 ^ 32
  | .pix _ _ | .pay _ _ | .cmd _ | .cmdWord _ | .setimg _ _ | .fname _ | .hidetext _ | .hidefile _ _ | .extract => true

end Sys2Proof.Machine
end

