-- ==== Sys2Proof/Safety.lean ====
section
/-! DEFINITION. The terms claims are stated in: the invariant of a run, what a command leaves alone, and the host's duties. -/

namespace Sys2Proof.Machine

/-- What STATUS always satisfies between steps (spec/10_state.md R32, spec/60_exceptions.md R206): BUSY = 0, reserved bits 0, ERR = 1
exactly when ERRCODE is not 0, END = 1 only with ERR = 0, no code above 8, and an error or END only on a command that is DONE. -/
abbrev statusLegal (st : BitVec 12) : Prop :=
  statusBusy st = false ∧ statusReserved st = 0#4 ∧ (statusErr st = true ↔ statusErrcode st ≠ 0#4) ∧
  (statusEnd st = true → statusErr st = false) ∧ (statusErrcode st).toNat ≤ 8 ∧
  (statusErr st = true ∨ statusEnd st = true → statusDone st = true)

/-- The invariant of a run: both memories in canonical form, STATUS legal, the recovered filename length at most 64 (R21). -/
structure Inv (s : State) : Prop where
  pixWf : s.pix.wf = true
  payWf : s.pay.wf = true
  status : statusLegal s.status
  rfnlen : s.rfnlen.toNat ≤ 64

/-! ## What a command leaves alone -/

/-- The operand registers, which no command writes (spec/10_state.md R23 to R28). -/
structure SameOperands (s t : State) : Prop where
  width : t.width = s.width
  height : t.height = s.height
  method : t.method = s.method
  info : t.info = s.info
  fnlen : t.fnlen = s.fnlen
  plen : t.plen = s.plen
  floor : t.floor = s.floor
  blen : t.blen = s.blen
  fname : t.fname = s.fname

/-- Every byte of PAY reads as before. -/
def SamePay (s t : State) : Prop := ∀ a, t.payByte a = s.payByte a

/-- Every pixel cell reads as before. -/
def SamePix (s t : State) : Prop := ∀ idx, t.pixCell idx = s.pixCell idx

/-- What the host holds and has still to do, and the count of resets: a command touches none of it. -/
structure SameHost (s t : State) : Prop where
  host : t.host = s.host
  readData : t.readData = s.readData
  resets : t.resets = s.resets

/-- Outside the indices of a sequence every pixel cell reads as before, and inside red, green and the upper seven bits of
blue do (spec/20_memory.md R67). -/
def OnlyLsbChangesAt (S : List Nat) (s t : State) : Prop :=
  (∀ idx, idx ∉ S → t.pixCell idx = s.pixCell idx) ∧
  ∀ idx, (t.pixCell idx).r = (s.pixCell idx).r ∧ (t.pixCell idx).g = (s.pixCell idx).g ∧
    (t.pixCell idx).b.extractLsb' 1 7 = (s.pixCell idx).b.extractLsb' 1 7

/-! ## Error conditions of a command, in the order of its pseudocode (R217) -/

/-- The error a command reports from a state, none when it completes (spec/60_exceptions.md R217, and the command rules). -/
def firstError (i : Instr) (s : State) : Option ErrorKind :=
  match i with
  | .embed =>
    if 0xFFFFFFFF < s.plen.toNat then some .payloadTooLarge
    else if s.pixelCount < 579 then some .imageTooSmall
    else match methodOfOperand s.method with
      | .error e => some e
      | .ok m => if (s.filtered m 579).length < 32 + 8 * s.plen.toNat then some .insufficientCapacity else none
  | .extract =>
    if s.pixelCount < 579 then some .truncatedHeader
    else
      let b := s.headerBits
      let S := s.filtered (methodOfField (BitVec.ofNat 2 (bitsToNat (slice b 1 3)))) (max (bitsToNat (slice b 515 547)) 579)
      if S.length < 32 then some .insufficientData
      else if S.length < 32 + 8 * bitsToNat (s.readBits (S.take 32)) then some .insufficientData
      else none
  | .hdrwr => if s.pixelCount < 579 then some .imageTooSmall else none
  | .hdrrd => if s.pixelCount < 579 then some .truncatedHeader else none
  | .selnext | .selcnt => if 3 < s.method.toNat then some .unsupportedMethod else none
  | .wrbits =>
    if 0xFFFFFFFF < s.plen.toNat then some .payloadTooLarge
    else match methodOfOperand s.method with
      | .error e => some e
      | .ok m => if (s.filtered m s.floor.toNat).length < 8 * s.plen.toNat then some .insufficientCapacity else none
  | .rdbits =>
    match methodOfOperand s.method with
    | .error e => some e
    | .ok m =>
      if (s.filtered m s.floor.toNat).length < s.blen.toNat then some .insufficientData
      else if s.blen.toNat % 8 ≠ 0 then some .misalignedBits
      else none

/-- The errors a command can raise (spec/60_exceptions.md R207). -/
def canRaise : Instr → List ErrorKind
  | .embed => [.unsupportedMethod, .imageTooSmall, .insufficientCapacity, .payloadTooLarge]
  | .extract => [.insufficientData, .truncatedHeader]
  | .hdrwr => [.imageTooSmall]
  | .hdrrd => [.truncatedHeader]
  | .selnext | .selcnt => [.unsupportedMethod]
  | .wrbits => [.unsupportedMethod, .insufficientCapacity, .payloadTooLarge]
  | .rdbits => [.unsupportedMethod, .insufficientData, .misalignedBits]

/-! ## Host duties (spec/70_reset_and_hazards.md R244, R245), which the engine does not check -/

/-- The grid in PIX is well formed: every cell `0 <= idx < N` has been written since reset (spec/20_memory.md R62, R244 b). -/
def gridLoaded (s : State) : Prop := ∀ idx < s.pixelCount, (s.pix.lookup idx).isSome = true

/-- The payload operand has been written since reset (R244 c, d). -/
def payloadLoaded (s : State) : Prop := ∀ a < s.plen.toNat, (s.pay.lookup a).isSome = true

/-- A text payload has an empty filename (R245 a). -/
def textHasNoName (s : State) : Prop := s.info = 0#1 → s.fnlen = 0#8

/-- A filename that a file round trip gives back: at most 64 bytes and no zero byte (R245 b). -/
def nameRecoverable (name : Bytes) : Prop := name.length ≤ 64 ∧ 0#8 ∉ name

end Sys2Proof.Machine
end

