-- ==== Sys2Proof/Certificates/Slice0/Obligations.lean ====
section
/-! DEFINITION. The statements for the provers. Each docstring names the rules of spec/ it formalises. In every statement about a command, the
next state is written as an equation on the whole state wherever the rule fixes it, so the equation is also the frame. -/

open Sys2Proof Sys2Proof.Machine

/-! ## The bit codec -/

/-- R120: eight bits a byte, most significant first, byte `j` at positions `8j` to `8j+7`; with the rule's corner cases and example. -/
def Obligations.BytesToBitsIsMsbFirst : Prop :=
  (∀ bs : Bytes, (bytesToBits bs).length = 8 * bs.length ∧
    ∀ (j k : Nat) (hj : j < bs.length), k < 8 → (bytesToBits bs)[8 * j + k]? = some (bs[j].getLsbD (7 - k))) ∧
  bytesToBits [] = [] ∧
  bytesToBits [0x00#8] = List.replicate 8 false ∧
  bytesToBits [0xFF#8] = List.replicate 8 true ∧
  bytesToBits [0x41#8] = [false, true, false, false, false, false, false, true]

/-- R122: MisalignedBits exactly off a multiple of 8; otherwise byte `j` is the weighted sum of bits `8j` to `8j+7`; the inverse of R120. -/
def Obligations.BitsToBytesWeighsEightBits : Prop :=
  (∀ s : Bits, s.length % 8 ≠ 0 → bitsToBytes s = .error .misalignedBits) ∧
  (∀ s : Bits, s.length % 8 = 0 → ∃ bs, bitsToBytes s = .ok bs ∧ bs.length = s.length / 8 ∧
    ∀ (j : Nat) (hj : j < bs.length), bs[j].toNat =
      (s.getD (8 * j) false).toNat * 128 + (s.getD (8 * j + 1) false).toNat * 64 + (s.getD (8 * j + 2) false).toNat * 32
      + (s.getD (8 * j + 3) false).toNat * 16 + (s.getD (8 * j + 4) false).toNat * 8 + (s.getD (8 * j + 5) false).toNat * 4
      + (s.getD (8 * j + 6) false).toNat * 2 + (s.getD (8 * j + 7) false).toNat) ∧
  (∀ bs : Bytes, bitsToBytes (bytesToBits bs) = .ok bs) ∧
  bitsToBytes [] = .ok [] ∧
  bitsToBytes [false, true, false, false, false, false, false, true] = .ok [0x41#8] ∧
  bitsToBytes [true, false, true] = .error .misalignedBits

/-- R121, R123: `bytes_to_bits` is additive, and it and `bits_to_bytes` are inverse to each other. -/
def Obligations.BitCodecIsInverse : Prop :=
  (∀ bs : Bytes, (bytesToBits bs).length = 8 * bs.length) ∧
  (∀ a b : Bytes, bytesToBits (a ++ b) = bytesToBits a ++ bytesToBits b) ∧
  (∀ bs : Bytes, bitsToBytes (bytesToBits bs) = .ok bs) ∧
  (∀ s : Bits, s.length % 8 = 0 → ∃ bs, bitsToBytes s = .ok bs ∧ bytesToBits bs = s)

/-- R124: `bits_to_nat` is the weighted sum, `nat_to_bits` the binary numeral, the two are inverse; at width 32 they are the big-endian
length; with the rule's examples. -/
def Obligations.BitsAndNumbersAgree : Prop :=
  (∀ s : Bits, bitsToNat s = ∑ k ∈ Finset.range s.length, (s.getD k false).toNat * 2 ^ (s.length - 1 - k)) ∧
  (∀ v w : Nat, v < 2 ^ w → (natToBits v w).length = w ∧ ∀ k < w, (natToBits v w)[k]? = some (v.testBit (w - 1 - k))) ∧
  (∀ v w : Nat, v < 2 ^ w → bitsToNat (natToBits v w) = v) ∧
  (∀ s : Bits, natToBits (bitsToNat s) s.length = s) ∧
  (∀ n : BitVec 32, natToBits n.toNat 32 = bytesToBits (be32 n)) ∧
  (∀ s : Bits, s.length = 32 → ∃ b3 b2 b1 b0 : Byte, bitsToBytes s = .ok [b3, b2, b1, b0] ∧
    bitsToNat s = b3.toNat * 2 ^ 24 + b2.toNat * 2 ^ 16 + b1.toNat * 2 ^ 8 + b0.toNat) ∧
  natToBits 579 32 = List.replicate 22 false ++ [true, false, false, true, false, false, false, false, true, true] ∧
  bitsToNat (List.replicate 31 false ++ [true]) = 1

/-- R72, R99, R166: the payload frame, its length prefix and its payload, position by position; with the rules' examples. -/
def Obligations.PayloadFrameLayout : Prop :=
  (∀ n : BitVec 32, (be32 n).map BitVec.toNat =
    [n.toNat / 2 ^ 24 % 256, n.toNat / 2 ^ 16 % 256, n.toNat / 2 ^ 8 % 256, n.toNat % 256]) ∧
  (∀ (n : BitVec 32) (p : Bytes), p.length = n.toNat →
    (be32 n ++ p).length = 4 + n.toNat ∧
    frameBits n p = bytesToBits (be32 n ++ p) ∧
    (frameBits n p).length = 32 + 8 * n.toNat ∧
    (∀ k < 32, (frameBits n p)[k]? = some (n.getLsbD (31 - k))) ∧
    (∀ (j k : Nat) (hj : j < p.length), k < 8 → (frameBits n p)[32 + 8 * j + k]? = some (p[j].getLsbD (7 - k)))) ∧
  frameBits 0#32 [] = List.replicate 32 false ∧
  frameBits 1#32 [0x41#8] = (List.range 40).map (fun i => decide (i ∈ [31, 33, 39]))

/-! ## The header codec and the filename -/

/-- R95, R131: the 579-bit header frame, field by field and position by position, position `h` in pixel `h`; with R131's example. -/
def Obligations.HeaderFrameLayout : Prop :=
  (∀ h : Header,
    hdrEncode h = natToBits h.info.toNat 1 ++ natToBits h.method.toNat 2 ++ bytesToBits h.fname.toList
      ++ natToBits h.first.toNat 32 ++ natToBits h.last.toNat 32 ∧
    (hdrEncode h).length = 579 ∧
    (hdrEncode h)[0]? = some (h.info.getLsbD 0) ∧
    (hdrEncode h)[1]? = some (h.method.getLsbD 1) ∧
    (hdrEncode h)[2]? = some (h.method.getLsbD 0) ∧
    (∀ (j k : Nat) (hj : j < 64), k < 8 → (hdrEncode h)[3 + 8 * j + k]? = some (h.fname[j].getLsbD (7 - k))) ∧
    (∀ k < 32, (hdrEncode h)[515 + k]? = some (h.first.getLsbD (31 - k))) ∧
    (∀ k < 32, (hdrEncode h)[547 + k]? = some (h.last.getLsbD (31 - k))) ∧
    (∀ s : State, (List.range 579).map (s.writeHeader h).pixGetBit = hdrEncode h)) ∧
  hdrEncode { info := 0#1, method := 0#2, fname := Vector.replicate 64 0#8, first := 579#32, last := 618#32 } =
    (List.range 579).map (fun i => decide (i ∈ [537, 540, 545, 546, 569, 572, 573, 575, 577]))

/-- R132: TruncatedHeader below 579 bits; every 579-bit sequence decodes, each field from its own positions. -/
def Obligations.HeaderDecodeReadsFields : Prop :=
  (∀ s : Bits, s.length < 579 → hdrDecode s = .error .truncatedHeader) ∧
  (∀ s : Bits, s.length = 579 → ∃ h, hdrDecode s = .ok h ∧
    h.info.toNat = bitsToNat (slice s 0 1) ∧
    h.method.toNat = bitsToNat (slice s 1 3) ∧
    bitsToBytes (slice s 3 515) = .ok h.fname.toList ∧
    h.first.toNat = bitsToNat (slice s 515 547) ∧
    h.last.toNat = bitsToNat (slice s 547 579))

/-- R133: the header codec is a bijection between header values and 579-bit sequences. -/
def Obligations.HeaderCodecIsBijection : Prop :=
  (∀ h : Header, hdrDecode (hdrEncode h) = .ok h) ∧
  (∀ s : Bits, s.length = 579 → ∃ h, hdrDecode s = .ok h ∧ hdrEncode h = s)

/-- R97, R138: the filename is padded with zeros and cut at 64 bytes, EMBED's operand is `FNAME[0..min(FNLEN,64))`, and the
recovered name ends at the first zero byte; the round trip holds exactly for names of at most 64 bytes without a zero byte. -/
def Obligations.FilenamePaddedAndRecovered : Prop :=
  (∀ (bs : Bytes) (j : Nat) (hj : j < 64), (fname64 bs)[j] = if j < min bs.length 64 then bs.getD j 0#8 else 0#8) ∧
  (∀ s : State, s.nameOperand.length = min s.fnlen.toNat 64 ∧
    ∀ (j : Nat) (hj : j < 64), j < min s.fnlen.toNat 64 → s.nameOperand[j]? = some s.fname[j]) ∧
  (∀ (f : Vector Byte 64) (z : Nat), z ≤ 64 → (∀ (j : Nat) (hj : j < 64), j < z → f[j] ≠ 0#8) →
    (∀ hz : z < 64, f[z] = 0#8) → fnameRecover f = f.toList.take z ∧ (fnameRecover f).length = z) ∧
  (∀ bs : Bytes, fnameRecover (fname64 bs) = bs ↔ nameRecoverable bs)

/-! ## Pixels and payload bytes -/

/-- R66, R67, R68: PixGetBit reads bit 0 of blue; PixSetBit replaces that bit, keeps everything else, and moves blue by at most one. -/
def Obligations.PixelBitAccess : Prop :=
  ∀ (s : State) (idx : Nat) (x : Bool),
    s.pixGetBit idx = (s.pixCell idx).b.getLsbD 0 ∧
    (s.pixSetBit idx x).pixGetBit idx = x ∧
    ((s.pixSetBit idx x).pixCell idx).r = (s.pixCell idx).r ∧
    ((s.pixSetBit idx x).pixCell idx).g = (s.pixCell idx).g ∧
    ((s.pixSetBit idx x).pixCell idx).b.extractLsb' 1 7 = (s.pixCell idx).b.extractLsb' 1 7 ∧
    ((s.pixSetBit idx x).pixCell idx).b.toNat = (s.pixCell idx).b.toNat - ((s.pixCell idx).b.getLsbD 0).toNat + x.toNat ∧
    (s.pixGetBit idx = x → (s.pixSetBit idx x).pixCell idx = s.pixCell idx) ∧
    (s.pixGetBit idx = false → x = true →
      ((s.pixSetBit idx x).pixCell idx).b.toNat = (s.pixCell idx).b.toNat + 1) ∧
    (s.pixGetBit idx = true → x = false →
      ((s.pixSetBit idx x).pixCell idx).b.toNat + 1 = (s.pixCell idx).b.toNat) ∧
    ((s.pixCell idx).b = 255#8 → x = false → ((s.pixSetBit idx x).pixCell idx).b = 254#8) ∧
    ((s.pixCell idx).b = 0#8 → x = true → ((s.pixSetBit idx x).pixCell idx).b = 1#8) ∧
    (∀ j, j ≠ idx → (s.pixSetBit idx x).pixCell j = s.pixCell j) ∧
    { s.pixSetBit idx x with pix := s.pix } = s

/-- R61: the 24-bit cell and the triple (R, G, B) are the same data, moved by HostPixWrite and HostPixRead; the data bit is bit 0 of the
cell. Nothing but the cell (or the value the host holds, log 4) changes. That the ports reach every 32-bit index, also at or above `N`, where
R35 and R60 make no cell addressable, is the model's own choice (log 8), as are the transactions (log 1). -/
def Obligations.PixelPortMovesPackedCell : Prop :=
  (∀ c : BitVec 24, (pixelOfCell c).r.toNat = c.toNat / 2 ^ 16 ∧ (pixelOfCell c).g.toNat = c.toNat / 2 ^ 8 % 256 ∧
    (pixelOfCell c).b.toNat = c.toNat % 256 ∧ (pixelOfCell c).b.getLsbD 0 = c.getLsbD 0 ∧ cellOfPixel (pixelOfCell c) = c) ∧
  (∀ p : Pixel, pixelOfCell (cellOfPixel p) = p) ∧
  (∀ (s : State) (idx : BitVec 32) (c : BitVec 24) (rest : List HostAccess), statusBusy s.status = false →
    s.host = .pixWrite idx c :: rest → ∃ t, step s = .next t ∧ t.pixCell idx.toNat = pixelOfCell c ∧
      (∀ j, j ≠ idx.toNat → t.pixCell j = s.pixCell j) ∧ { t with pix := s.pix } = { s with host := rest }) ∧
  (∀ (s : State) (idx : BitVec 32) (rest : List HostAccess), statusBusy s.status = false →
    s.host = .pixRead idx :: rest → ∃ t, step s = .next t ∧ t.readData.toNat = (cellOfPixel (s.pixCell idx.toNat)).toNat ∧
      { t with readData := s.readData } = { s with host := rest })

/-- R35, R69 (the PAY port): a byte written is read back, every other byte reads as before, and nothing else changes. -/
def Obligations.PayloadPortMovesBytes : Prop :=
  (∀ (s : State) (a : BitVec 32) (v : Byte) (rest : List HostAccess), statusBusy s.status = false →
    s.host = .payWrite a v :: rest → ∃ t, step s = .next t ∧ t.payByte a.toNat = v ∧
      (∀ b, b ≠ a.toNat → t.payByte b = s.payByte b) ∧ { t with pay := s.pay } = { s with host := rest }) ∧
  (∀ (s : State) (a : BitVec 32) (rest : List HostAccess), statusBusy s.status = false →
    s.host = .payRead a :: rest → ∃ t, step s = .next t ∧ t.readData.toNat = (s.payByte a.toNat).toNat ∧
      { t with readData := s.readData } = { s with host := rest })

/-! ## The selector -/

/-- R94: the method codes, in the 2-bit field and in the 8-bit operand, and the pixels each names; 4 to 255 are UnsupportedMethod. -/
def Obligations.MethodCodes : Prop :=
  methodCode .all = 0 ∧ methodCode .even = 1 ∧ methodCode .odd = 2 ∧ methodCode .border = 3 ∧
  (∀ m : BitVec 2, methodCode (methodOfField m) = m.toNat) ∧
  (∀ (m : BitVec 8) (k : Method), methodOfOperand m = .ok k ↔ m.toNat = methodCode k) ∧
  (∀ m : BitVec 8, methodOfOperand m = .error .unsupportedMethod ↔ 3 < m.toNat) ∧
  (∀ W H idx : Nat, idx < W * H →
    elig W H (methodOfField 0#2) idx = true ∧
    (elig W H (methodOfField 1#2) idx = true ↔ idx % 2 = 0) ∧
    (elig W H (methodOfField 2#2) idx = true ↔ idx % 2 = 1) ∧
    (elig W H (methodOfField 3#2) idx = true ↔ idx % W = 0 ∨ idx % W = W - 1 ∨ idx / W = 0 ∨ idx / W = H - 1))

/-- R146, R147, R148, R149: eligibility, method by method, in `x` and `y` for the border; method 1 is a checkerboard in an image of odd
width and columns in one of even width. -/
def Obligations.EligibilityByMethod : Prop :=
  ∀ (W H idx : Nat), idx < W * H →
    elig W H .all idx = true ∧
    (elig W H .even idx = true ↔ idx % 2 = 0) ∧
    (elig W H .odd idx = true ↔ idx % 2 = 1) ∧
    (elig W H .border idx = true ↔ idx % W = 0 ∨ idx % W = W - 1 ∨ idx / W = 0 ∨ idx / W = H - 1) ∧
    (W % 2 = 1 → (elig W H .even idx = true ↔ (idx % W + idx / W) % 2 = 0)) ∧
    (W % 2 = 0 → (elig W H .even idx = true ↔ idx % W % 2 = 0))

/-- R150: the eligible sequence holds exactly the eligible indices, strictly ascending; it is empty when `N = 0`, and for method 2
when `N = 1`. -/
def Obligations.EligibleSequenceAscending : Prop :=
  ∀ (W H : Nat) (m : Method),
    (eligibleIndices W H m).Pairwise (· < ·) ∧
    (∀ idx, idx ∈ eligibleIndices W H m ↔ idx < W * H ∧ elig W H m idx = true) ∧
    (W * H = 0 → eligibleIndices W H m = []) ∧
    (W * H = 1 → eligibleIndices W H .odd = [])

/-- R151: the filtered sequence drops by value: it holds exactly the eligible indices at or above the floor, ascending. Under method 1
the header region holds 290 eligible indices, and those are what the floor 579 drops. -/
def Obligations.FilteredSequenceDropsByValue : Prop :=
  ∀ (W H : Nat) (m : Method) (f : Nat),
    filteredIndices W H m f = (eligibleIndices W H m).filter (fun idx => f ≤ idx) ∧
    (filteredIndices W H m f).Pairwise (· < ·) ∧
    (∀ idx, idx ∈ filteredIndices W H m f ↔ f ≤ idx ∧ idx < W * H ∧ elig W H m idx = true) ∧
    filteredIndices W H m 0 = eligibleIndices W H m ∧
    (W * H ≤ f → filteredIndices W H m f = []) ∧
    (579 ≤ W * H → ((eligibleIndices W H .even).filter (fun idx => idx < 579)).length = 290 ∧
      filteredIndices W H .even 579 = (eligibleIndices W H .even).drop 290)

/-- R153: with a side of 1 or 2 every pixel is a border pixel, so interior pixels need both sides at least 3; with `N = 0` there is none. -/
def Obligations.ThinImagesAreAllBorder : Prop :=
  (∀ (W H idx : Nat), idx < W * H → W ≤ 2 ∨ H ≤ 2 → elig W H .border idx = true) ∧
  (∀ (W H idx : Nat), idx < W * H → elig W H .border idx = false → 3 ≤ W ∧ 3 ≤ H) ∧
  (∀ W H : Nat, W * H = 0 → eligibleIndices W H .border = [])

/-- R156: the closed forms of the counts, whole and above a floor, and the border count row by row. -/
def Obligations.SelectorCountsClosedForm : Prop :=
  ∀ W H : Nat,
    (eligibleIndices W H .all).length = W * H ∧
    (eligibleIndices W H .even).length = (W * H + 1) / 2 ∧
    (eligibleIndices W H .odd).length = W * H / 2 ∧
    (2 ≤ W → 2 ≤ H → (eligibleIndices W H .border).length = 2 * W + 2 * H - 4) ∧
    (W < 2 ∨ H < 2 → (eligibleIndices W H .border).length = W * H) ∧
    (∀ f, f ≤ W * H →
      (filteredIndices W H .all f).length = W * H - f ∧
      (filteredIndices W H .even f).length = (W * H + 1) / 2 - (f + 1) / 2 ∧
      (filteredIndices W H .odd f).length = W * H / 2 - f / 2) ∧
    (∀ f m, W * H < f → (filteredIndices W H m f).length = 0) ∧
    (579 ≤ W * H →
      (filteredIndices W H .all 579).length = W * H - 579 ∧
      (filteredIndices W H .even 579).length = (W * H + 1) / 2 - 290 ∧
      (filteredIndices W H .odd 579).length = W * H / 2 - 289) ∧
    (∀ y < H, ((eligibleIndices W H .border).filter (fun idx => idx / W == y)).length =
      if y = 0 ∨ y = H - 1 then W else min W 2)

/-- R157: the source's worked geometry, the border of a 5x4 image. -/
def Obligations.BorderOfFiveByFour : Prop :=
  eligibleIndices 5 4 .border = [0, 1, 2, 3, 4, 5, 9, 10, 14, 15, 16, 17, 18, 19]

/-- R154: SELNEXT. `rest = E(m, idx + 1)` says that writing `RESULT + 1` to FLOOR and repeating enumerates the filtered sequence. -/
def Obligations.SelnextFindsFirstEligible : Prop :=
  decode 0x05#8 = .ok .selnext ∧
  (∀ s : State, 3 < s.method.toNat → exec .selnext s = .next { s with status := 0x106#12 }) ∧
  (∀ (s : State) (m : Method), s.method.toNat = methodCode m → s.filtered m s.floor.toNat = [] →
    exec .selnext s = .next { s with result := 0xFFFFFFFF#32, status := 0x00A#12 }) ∧
  (∀ (s : State) (m : Method) (idx : Nat) (rest : List Nat), s.method.toNat = methodCode m →
    s.filtered m s.floor.toNat = idx :: rest →
    exec .selnext s = .next { s with result := BitVec.ofNat 32 idx, status := 0x002#12 } ∧
    (BitVec.ofNat 32 idx).toNat = idx ∧ idx < 0xFFFFFFFF ∧ s.floor.toNat ≤ idx ∧ rest = s.filtered m (idx + 1)) ∧
  (∀ (s : State) (m : Method), s.pixelCount ≤ s.floor.toNat → s.filtered m s.floor.toNat = []) ∧
  (∀ s t : State, s.floor = 579#32 → exec .embed s = .next t → t.status = 0x002#12 →
    exec .selnext s = .next { s with result := t.hdr.first, status := 0x002#12 }) ∧
  (∀ s : State, s.width = 5#16 → s.height = 4#16 → s.method = 3#8 → s.floor = 6#32 →
    exec .selnext s = .next { s with result := 9#32, status := 0x002#12 }) ∧
  (∀ s : State, s.width = 5#16 → s.height = 4#16 → s.method = 3#8 → s.floor = 20#32 →
    exec .selnext s = .next { s with result := 0xFFFFFFFF#32, status := 0x00A#12 })

/-- R155: SELCNT. -/
def Obligations.SelcntCountsEligible : Prop :=
  decode 0x06#8 = .ok .selcnt ∧
  (∀ s : State, 3 < s.method.toNat → exec .selcnt s = .next { s with status := 0x106#12 }) ∧
  (∀ (s : State) (m : Method), s.method.toNat = methodCode m →
    exec .selcnt s = .next { s with result := BitVec.ofNat 32 (s.filtered m s.floor.toNat).length, status := 0x002#12 } ∧
    (BitVec.ofNat 32 (s.filtered m s.floor.toNat).length).toNat = (s.filtered m s.floor.toNat).length) ∧
  (∀ (s : State) (m : Method), s.method.toNat = methodCode m → s.pixelCount ≤ s.floor.toNat →
    exec .selcnt s = .next { s with result := 0#32, status := 0x002#12 }) ∧
  (∀ (s : State) (m : Method), s.method.toNat = methodCode m → s.floor = 0#32 →
    exec .selcnt s = .next { s with
      result := BitVec.ofNat 32 (eligibleIndices s.width.toNat s.height.toNat m).length, status := 0x002#12 }) ∧
  (∀ s t : State, s.floor = 579#32 → exec .embed s = .next t → t.status = 0x002#12 ∨ t.status = 0x306#12 →
    exec .selcnt s = .next { s with result := t.avail, status := 0x002#12 }) ∧
  (∀ s : State, s.width = 5#16 → s.height = 4#16 → s.method = 3#8 → s.floor = 0#32 →
    exec .selcnt s = .next { s with result := 14#32, status := 0x002#12 }) ∧
  (∀ s : State, s.width = 25#16 → s.height = 25#16 → s.method = 0#8 → s.floor = 579#32 →
    exec .selcnt s = .next { s with result := 46#32, status := 0x002#12 })

/-! ## The header commands -/

/-- R135: HDRWR. -/
def Obligations.HdrwrWritesHeaderRegion : Prop :=
  decode 0x03#8 = .ok .hdrwr ∧
  (∀ s : State, s.pixelCount < 579 → exec .hdrwr s = .next { s with status := 0x206#12 }) ∧
  (∀ s : State, 579 ≤ s.pixelCount → ∃ t, exec .hdrwr s = .next t ∧
    { t with pix := s.pix } = { s with status := 0x002#12 } ∧
    (List.range 579).map t.pixGetBit = hdrEncode s.hdr ∧
    OnlyLsbChangesAt (List.range 579) s t ∧
    (∃ u, exec .hdrwr t = .next u ∧ SamePix t u)) ∧
  (∀ s : State, s.width = 25#16 → s.height = 25#16 → (∀ idx < 625, s.pixCell idx = ⟨0#8, 0#8, 0#8⟩) →
    s.hdr = { info := 0#1, method := 0#2, fname := Vector.replicate 64 0#8, first := 579#32, last := 618#32 } →
    ∃ t, exec .hdrwr s = .next t ∧ ∀ idx < 625, t.pixCell idx =
      if idx ∈ [537, 540, 545, 546, 569, 572, 573, 575, 577] then ⟨0#8, 0#8, 1#8⟩ else ⟨0#8, 0#8, 0#8⟩)

/-- R136: HDRRD. -/
def Obligations.HdrrdReadsHeaderRegion : Prop :=
  decode 0x04#8 = .ok .hdrrd ∧
  (∀ s : State, s.pixelCount < 579 → exec .hdrrd s = .next { s with status := 0x506#12 }) ∧
  (∀ s : State, 579 ≤ s.pixelCount → ∃ h, hdrDecode ((List.range 579).map s.pixGetBit) = .ok h ∧
    exec .hdrrd s = .next { s with hdr := h, status := 0x002#12 }) ∧
  (∀ s : State, 579 ≤ s.pixelCount →
    (∀ idx < 579, s.pixGetBit idx = decide (idx ∈ [537, 540, 545, 546, 569, 572, 573, 575, 577])) →
    exec .hdrrd s = .next { s with
      hdr := { info := 0#1, method := 0#2, fname := Vector.replicate 64 0#8, first := 579#32, last := 618#32 },
      status := 0x002#12 })

/-- R137: HDRWR then HDRRD gives the HDR registers back; HDRRD then HDRWR leaves every pixel; after a successful EMBED, HDRRD reads the header
EMBED built, for every method. -/
def Obligations.HeaderCommandsRoundTrip : Prop :=
  (∀ s t : State, 579 ≤ s.pixelCount → exec .hdrwr s = .next t → exec .hdrrd t = .next t ∧ t.hdr = s.hdr) ∧
  (∀ s t : State, 579 ≤ s.pixelCount → exec .hdrrd s = .next t → ∃ u, exec .hdrwr t = .next u ∧ SamePix s u) ∧
  (∀ s t : State, exec .embed s = .next t → t.status = 0x002#12 →
    exec .hdrrd t = .next t ∧
    ∃ first last, t.hdr = {
      info := s.info, method := s.method.extractLsb' 0 2, fname := fname64 s.nameOperand, first := first, last := last })

/-! ## The write side of the mapper -/

/-- R167: WRBITS. -/
def Obligations.WrbitsPlacesPayload : Prop :=
  decode 0x07#8 = .ok .wrbits ∧
  (∀ s : State, 0xFFFFFFFF < s.plen.toNat → exec .wrbits s = .next { s with status := 0x706#12 }) ∧
  (∀ s : State, s.plen.toNat ≤ 0xFFFFFFFF → 3 < s.method.toNat → exec .wrbits s = .next { s with status := 0x106#12 }) ∧
  (∀ (s : State) (m : Method), s.plen.toNat ≤ 0xFFFFFFFF → s.method.toNat = methodCode m →
    (s.filtered m s.floor.toNat).length < 8 * s.plen.toNat →
    exec .wrbits s = .next { s with
      req := BitVec.ofNat 36 (8 * s.plen.toNat),
      avail := BitVec.ofNat 32 (s.filtered m s.floor.toNat).length, status := 0x306#12 }) ∧
  (∀ (s : State) (m : Method), s.plen.toNat ≤ 0xFFFFFFFF → s.method.toNat = methodCode m →
    8 * s.plen.toNat ≤ (s.filtered m s.floor.toNat).length →
    ∃ t, exec .wrbits s = .next t ∧
      { t with pix := s.pix } = { s with
        req := BitVec.ofNat 36 (8 * s.plen.toNat),
        avail := BitVec.ofNat 32 (s.filtered m s.floor.toNat).length, status := 0x002#12 } ∧
      t.req.toNat = 8 * s.plen.toNat ∧ t.avail.toNat = (s.filtered m s.floor.toNat).length ∧
      ((s.filtered m s.floor.toNat).take (8 * s.plen.toNat)).map t.pixGetBit = bytesToBits (s.payRead s.plen.toNat) ∧
      OnlyLsbChangesAt ((s.filtered m s.floor.toNat).take (8 * s.plen.toNat)) s t) ∧
  (∀ s : State, s.width = 5#16 → s.height = 4#16 → s.method = 3#8 → s.floor = 6#32 → s.plen = 1#64 → s.payByte 0 = 0xA5#8 →
    ∃ t, exec .wrbits s = .next t ∧ t.status = 0x002#12 ∧ t.req = 8#36 ∧ t.avail = 8#32 ∧
      [9, 10, 14, 15, 16, 17, 18, 19].map t.pixGetBit = [true, false, true, false, false, true, false, true]) ∧
  (∀ s : State, s.width = 5#16 → s.height = 4#16 → s.method = 3#8 → s.floor = 6#32 → s.plen = 2#64 →
    exec .wrbits s = .next { s with req := 16#36, avail := 8#32, status := 0x306#12 })

/-- R170: EMBED. -/
def Obligations.EmbedPlacesHeaderAndFrame : Prop :=
  decode 0x01#8 = .ok .embed ∧
  (∀ s : State, 0xFFFFFFFF < s.plen.toNat → exec .embed s = .next { s with status := 0x706#12 }) ∧
  (∀ s : State, s.plen.toNat ≤ 0xFFFFFFFF → s.pixelCount < 579 → exec .embed s = .next { s with status := 0x206#12 }) ∧
  (∀ s : State, s.plen.toNat ≤ 0xFFFFFFFF → 579 ≤ s.pixelCount → 3 < s.method.toNat →
    exec .embed s = .next { s with status := 0x106#12 }) ∧
  (∀ (s : State) (m : Method), s.plen.toNat ≤ 0xFFFFFFFF → 579 ≤ s.pixelCount → s.method.toNat = methodCode m →
    (s.filtered m 579).length < 32 + 8 * s.plen.toNat →
    exec .embed s = .next { s with
      req := BitVec.ofNat 36 (32 + 8 * s.plen.toNat),
      avail := BitVec.ofNat 32 (s.filtered m 579).length, status := 0x306#12 }) ∧
  (∀ (s : State) (m : Method), s.plen.toNat ≤ 0xFFFFFFFF → 579 ≤ s.pixelCount → s.method.toNat = methodCode m →
    32 + 8 * s.plen.toNat ≤ (s.filtered m 579).length →
    ∃ t, exec .embed s = .next t ∧
      { t with pix := s.pix } = { s with
        hdr := { info := s.info, method := s.method.extractLsb' 0 2, fname := fname64 s.nameOperand,
                 first := BitVec.ofNat 32 ((s.filtered m 579).getD 0 0),
                 last := BitVec.ofNat 32 ((s.filtered m 579).getD (31 + 8 * s.plen.toNat) 0) },
        req := BitVec.ofNat 36 (32 + 8 * s.plen.toNat), avail := BitVec.ofNat 32 (s.filtered m 579).length,
        status := 0x002#12 } ∧
      t.req.toNat = 32 + 8 * s.plen.toNat ∧ t.avail.toNat = (s.filtered m 579).length ∧
      t.hdr.first.toNat = (s.filtered m 579).getD 0 0 ∧
      t.hdr.last.toNat = (s.filtered m 579).getD (31 + 8 * s.plen.toNat) 0 ∧
      (List.range 579).map t.pixGetBit = hdrEncode t.hdr ∧
      ((s.filtered m 579).take (32 + 8 * s.plen.toNat)).map t.pixGetBit =
        frameBits (s.plen.extractLsb' 0 32) (s.payRead s.plen.toNat) ∧
      OnlyLsbChangesAt (List.range 579 ++ (s.filtered m 579).take (32 + 8 * s.plen.toNat)) s t) ∧
  (∀ s : State, s.width = 25#16 → s.height = 25#16 → (∀ idx < 625, s.pixCell idx = ⟨0#8, 0#8, 0#8⟩) →
    s.method = 0#8 → s.info = 0#1 → s.fnlen = 0#8 → s.plen = 1#64 → s.payByte 0 = 0x41#8 →
    ∃ t, exec .embed s = .next t ∧ t.req = 40#36 ∧ t.avail = 46#32 ∧ t.hdr.first = 579#32 ∧ t.hdr.last = 618#32 ∧
      ∀ idx < 625, t.pixCell idx =
        if idx ∈ [537, 540, 545, 546, 569, 572, 573, 575, 577, 610, 612, 618] then ⟨0#8, 0#8, 1#8⟩ else ⟨0#8, 0#8, 0#8⟩)

/-- R171: the two recorded positions, in closed form for methods 0 to 2, as the first border index for method 3, and their bounds. -/
def Obligations.EmbedRecordsPositions : Prop :=
  ∀ (s t : State) (m : Method), s.method.toNat = methodCode m → exec .embed s = .next t → t.status = 0x002#12 →
    (s.filtered m 579)[0]? = some t.hdr.first.toNat ∧
    (s.filtered m 579)[31 + 8 * s.plen.toNat]? = some t.hdr.last.toNat ∧
    (m = .all → t.hdr.first.toNat = 579 ∧ t.hdr.last.toNat = 578 + (32 + 8 * s.plen.toNat)) ∧
    (m = .even → t.hdr.first.toNat = 580 ∧ t.hdr.last.toNat = 580 + 2 * (31 + 8 * s.plen.toNat)) ∧
    (m = .odd → t.hdr.first.toNat = 579 ∧ t.hdr.last.toNat = 579 + 2 * (31 + 8 * s.plen.toNat)) ∧
    (elig s.width.toNat s.height.toNat m t.hdr.first.toNat = true ∧
      ∀ idx, 579 ≤ idx → idx < s.pixelCount → elig s.width.toNat s.height.toNat m idx = true → t.hdr.first.toNat ≤ idx) ∧
    579 ≤ t.hdr.first.toNat ∧ t.hdr.first.toNat ≤ t.hdr.last.toNat ∧ t.hdr.last.toNat < s.pixelCount ∧
    32 + 8 * s.plen.toNat ≤ t.hdr.last.toNat - t.hdr.first.toNat + 1

/-- R172: a frame as long as the available indices succeeds, one index fewer fails, and under method 0 the smallest image for `n` bytes has
`611 + 8n` pixels. -/
def Obligations.EmbedCapacityBoundary : Prop :=
  (∀ (s : State) (m : Method), s.plen.toNat ≤ 0xFFFFFFFF → 579 ≤ s.pixelCount → s.method.toNat = methodCode m →
    (s.filtered m 579).length = 32 + 8 * s.plen.toNat → ∃ t, exec .embed s = .next t ∧ t.status = 0x002#12) ∧
  (∀ (s : State) (m : Method), s.plen.toNat ≤ 0xFFFFFFFF → 579 ≤ s.pixelCount → s.method.toNat = methodCode m →
    (s.filtered m 579).length + 1 = 32 + 8 * s.plen.toNat → ∃ t, exec .embed s = .next t ∧ t.status = 0x306#12) ∧
  (∀ s : State, s.plen.toNat ≤ 0xFFFFFFFF → s.method = 0#8 →
    ∃ t, exec .embed s = .next t ∧ (t.status = 0x002#12 ↔ 611 + 8 * s.plen.toNat ≤ s.pixelCount))

/-- R174: a successful EMBED leaves the pixels that HDRWR of its header followed by WRBITS, with FLOOR = 579, of the bytes
`be32(n) ++ p` leaves. -/
def Obligations.EmbedIsHdrwrThenWrbits : Prop :=
  ∀ s t : State, exec .embed s = .next t → t.status = 0x002#12 →
    ∃ u v, exec .hdrwr { s with hdr := t.hdr } = .next u ∧
      exec .wrbits ({ u with floor := 579#32, plen := 4#64 + s.plen }.payWrite
        (be32 (s.plen.extractLsb' 0 32) ++ s.payRead s.plen.toNat)) = .next v ∧
      u.status = 0x002#12 ∧ v.status = 0x002#12 ∧ SamePix t v

/-! ## The read side of the mapper -/

/-- R186: RDBITS. -/
def Obligations.RdbitsReadsPayload : Prop :=
  decode 0x08#8 = .ok .rdbits ∧
  (∀ s : State, 3 < s.method.toNat → exec .rdbits s = .next { s with status := 0x106#12 }) ∧
  (∀ (s : State) (m : Method), s.method.toNat = methodCode m → (s.filtered m s.floor.toNat).length < s.blen.toNat →
    exec .rdbits s = .next { s with status := 0x406#12 }) ∧
  (∀ (s : State) (m : Method), s.method.toNat = methodCode m → s.blen.toNat ≤ (s.filtered m s.floor.toNat).length →
    s.blen.toNat % 8 ≠ 0 → exec .rdbits s = .next { s with status := 0x606#12 }) ∧
  (∀ (s : State) (m : Method), s.method.toNat = methodCode m → s.blen.toNat ≤ (s.filtered m s.floor.toNat).length →
    s.blen.toNat % 8 = 0 →
    ∃ t, exec .rdbits s = .next t ∧
      { t with pay := s.pay } = { s with rlen := BitVec.ofNat 32 (s.blen.toNat / 8), status := 0x002#12 } ∧
      bitsToBytes (((s.filtered m s.floor.toNat).take s.blen.toNat).map s.pixGetBit) = .ok (t.payRead (s.blen.toNat / 8)) ∧
      (∀ a, s.blen.toNat / 8 ≤ a → t.payByte a = s.payByte a)) ∧
  (∀ s : State, s.width = 5#16 → s.height = 4#16 → s.method = 3#8 → s.floor = 6#32 →
    [9, 10, 14, 15, 16, 17, 18, 19].map s.pixGetBit = [true, false, true, false, false, true, false, true] →
    (s.blen = 8#32 → ∃ t, exec .rdbits s = .next t ∧ t.status = 0x002#12 ∧ t.payByte 0 = 0xA5#8 ∧ t.rlen = 1#32) ∧
    (s.blen = 12#32 → exec .rdbits s = .next { s with status := 0x406#12 }) ∧
    (s.blen = 4#32 → exec .rdbits s = .next { s with status := 0x606#12 }))

/-- R190: EXTRACT. `h` is the header read from pixels 0 to 578, `S` the filtered sequence of its own method from `max(first, 579)`, `len`
the number in the first 32 bits of `S`; the frame's bits are those of `be32(len)` and the payload, so `T` never wraps. -/
def Obligations.ExtractRecoversPayload : Prop :=
  decode 0x02#8 = .ok .extract ∧
  (∀ s : State, s.pixelCount < 579 → exec .extract s = .next { s with status := 0x506#12 }) ∧
  (∀ (s : State) (h : Header) (S : List Nat) (len : Nat), 579 ≤ s.pixelCount →
    hdrDecode ((List.range 579).map s.pixGetBit) = .ok h →
    S = s.filtered (methodOfField h.method) (max h.first.toNat 579) →
    len = bitsToNat ((S.take 32).map s.pixGetBit) →
    (S.length < 32 → exec .extract s = .next { s with status := 0x406#12 }) ∧
    (32 ≤ S.length → S.length < 32 + 8 * len → exec .extract s = .next { s with status := 0x406#12 }) ∧
    (32 + 8 * len ≤ S.length → ∃ t, exec .extract s = .next t ∧
      { t with pay := s.pay } = { s with
        hdr := h, rlen := BitVec.ofNat 32 len, kind := h.info,
        rfnlen := if h.info = 1#1 then BitVec.ofNat 7 (fnameRecover h.fname).length else 0#7, status := 0x002#12 } ∧
      t.rlen.toNat = len ∧
      (h.info = 1#1 → t.rfnlen.toNat = (fnameRecover h.fname).length) ∧
      bytesToBits (be32 t.rlen ++ t.payRead len) = (S.take (32 + 8 * len)).map s.pixGetBit ∧
      (∀ a, len ≤ a → t.payByte a = s.payByte a))) ∧
  (∀ s : State, s.width = 25#16 → s.height = 25#16 →
    (∀ idx < 625, s.pixGetBit idx = decide (idx ∈ [537, 540, 545, 546, 569, 572, 573, 575, 577, 610, 612, 618])) →
    ∃ t, exec .extract s = .next t ∧ t.status = 0x002#12 ∧
      t.hdr = { info := 0#1, method := 0#2, fname := Vector.replicate 64 0#8, first := 579#32, last := 618#32 } ∧
      t.payByte 0 = 0x41#8 ∧ t.rlen = 1#32 ∧ t.kind = 0#1 ∧ t.rfnlen = 0#7)

/-- R191: `last_bit_position` bounds nothing: two images whose bits differ only in pixels 547 to 578 extract alike, but for HDR_LAST,
which is reported as read. -/
def Obligations.ExtractIgnoresLastPosition : Prop :=
  ∀ (s t : State) (q : Memory Pixel),
    (∀ idx < s.pixelCount, ¬ (547 ≤ idx ∧ idx < 579) → { s with pix := q }.pixGetBit idx = s.pixGetBit idx) →
    exec .extract s = .next t →
    ∃ t', exec .extract { s with pix := q } = .next t' ∧
      { t' with pix := t.pix, hdr := { t'.hdr with last := t.hdr.last } } = t ∧
      (t.status = 0x002#12 → t'.hdr.last.toNat = bitsToNat ((List.range' 547 32).map { s with pix := q }.pixGetBit))

/-- R192: the round trip. From a successful EMBED, EXTRACT on any state with the same dimensions and the same data bits succeeds and gives
the payload, the kind, the method and the filename back. -/
def Obligations.EmbedThenExtractRoundTrip : Prop :=
  ∀ s t u : State, exec .embed s = .next t → t.status = 0x002#12 →
    u.width = s.width → u.height = s.height → (∀ idx < s.pixelCount, u.pixGetBit idx = t.pixGetBit idx) →
    ∃ v, exec .extract u = .next v ∧ v.status = 0x002#12 ∧
      v.rlen.toNat = s.plen.toNat ∧ v.payRead v.rlen.toNat = s.payRead s.plen.toNat ∧
      v.kind = s.info ∧ v.hdr.method.toNat = s.method.toNat ∧
      (s.info = 1#1 → v.hdr.fname.toList.take v.rfnlen.toNat = fnameRecover (fname64 s.nameOperand) ∧
        (nameRecoverable s.nameOperand → v.hdr.fname.toList.take v.rfnlen.toNat = s.nameOperand)) ∧
      (s.info = 0#1 → v.rfnlen = 0#7)

/-- R193: an image without an embedding is not detected: EXTRACT fails with TruncatedHeader or InsufficientData, or decodes; all data bits 0
is an empty text, all data bits 1 is InsufficientData. -/
def Obligations.ExtractWithoutEmbedding : Prop :=
  (∀ s : State, ∃ t, exec .extract s = .next t ∧
    (t.status = 0x002#12 ∨ t.status = 0x406#12 ∨ t.status = 0x506#12) ∧ (t.status = 0x506#12 ↔ s.pixelCount < 579)) ∧
  (∀ s : State, 611 ≤ s.pixelCount → (∀ idx < s.pixelCount, s.pixGetBit idx = false) →
    exec .extract s = .next { s with hdr := Header.reset, rlen := 0#32, kind := 0#1, rfnlen := 0#7, status := 0x002#12 }) ∧
  (∀ s : State, 579 ≤ s.pixelCount → (∀ idx < s.pixelCount, s.pixGetBit idx = true) →
    exec .extract s = .next { s with status := 0x406#12 })

/-- R194: a second EXTRACT gives the same STATUS, HDR, RLEN, KIND, RFNLEN and payload. -/
def Obligations.ExtractIsIdempotent : Prop :=
  ∀ s t : State, exec .extract s = .next t → ∃ u, exec .extract t = .next u ∧
    u.status = t.status ∧ u.hdr = t.hdr ∧ u.rlen = t.rlen ∧ u.kind = t.kind ∧ u.rfnlen = t.rfnlen ∧
    (t.status = 0x002#12 → u.payRead u.rlen.toNat = t.payRead t.rlen.toNat) ∧ SamePay t u ∧ u.pix = t.pix

/-! ## All commands -/

/-- R70: the reading commands leave PIX as it is, the writing commands leave PAY, EXTRACT and RDBITS do not read PAY, and of PIX the writing
commands read no cell but the one they modify: with another image, a pixel ends differently only if it began differently. -/
def Obligations.CommandsKeepToTheirMemory : Prop :=
  (∀ (i : Instr) (s t : State), i ∈ [Instr.extract, .hdrrd, .rdbits, .selnext, .selcnt] → exec i s = .next t → t.pix = s.pix) ∧
  (∀ (i : Instr) (s t : State), i ∈ [Instr.embed, .hdrwr, .wrbits, .hdrrd, .selnext, .selcnt] → exec i s = .next t → t.pay = s.pay) ∧
  (∀ (i : Instr) (s t : State) (p : Memory Byte), i ∈ [Instr.extract, .rdbits] → exec i s = .next t →
    ∃ t', exec i { s with pay := p } = .next t' ∧ { t' with pay := t.pay } = t ∧
      (t.status = 0x002#12 → t'.payRead t.rlen.toNat = t.payRead t.rlen.toNat)) ∧
  (∀ (i : Instr) (s t : State) (q : Memory Pixel), i ∈ [Instr.embed, .hdrwr, .wrbits] → exec i s = .next t →
    ∃ t', exec i { s with pix := q } = .next t' ∧ { t' with pix := t.pix } = t ∧
      ∀ idx, { s with pix := q }.pixCell idx = s.pixCell idx → t'.pixCell idx = t.pixCell idx)

/-- R79 (its access bounds): no command writes a pixel at or above `N` or a payload byte at or above RLEN, and no command's outcome depends
on a pixel at or above `N` or on a payload byte at or above PLEN. -/
def Obligations.CommandsStayInBounds : Prop :=
  (∀ (i : Instr) (s t : State), exec i s = .next t →
    (∀ idx, s.pixelCount ≤ idx → t.pixCell idx = s.pixCell idx) ∧ (∀ a, t.rlen.toNat ≤ a → t.payByte a = s.payByte a)) ∧
  (∀ (i : Instr) (s t : State) (q : Memory Pixel), (∀ idx < s.pixelCount, { s with pix := q }.pixCell idx = s.pixCell idx) →
    exec i s = .next t → ∃ t', exec i { s with pix := q } = .next t' ∧ { t' with pix := t.pix } = t ∧
      ∀ idx < s.pixelCount, t'.pixCell idx = t.pixCell idx) ∧
  (∀ (i : Instr) (s t : State) (p : Memory Byte), (∀ a < s.plen.toNat, { s with pay := p }.payByte a = s.payByte a) →
    exec i s = .next t → ∃ t', exec i { s with pay := p } = .next t' ∧ { t' with pay := t.pay } = t)

/-- R217: every command ends, and with several error conditions it reports the one its pseudocode reaches first (`firstError`); with
none it completes, END set by SELNEXT alone. A reserved opcode reports IllegalCommand. With the rule's example. -/
def Obligations.CommandReportsFirstError : Prop :=
  (∀ (i : Instr) (s : State), ∃ t, exec i s = .next t ∧
    (∀ e, firstError i s = some e → t.status = statusRaised e) ∧
    (firstError i s = none → statusErr t.status = false ∧ statusDone t.status = true ∧ statusBusy t.status = false ∧
      statusErrcode t.status = 0#4 ∧ (statusEnd t.status = true → i = .selnext))) ∧
  (∀ s : State, execReserved s = .next { s with status := 0x806#12 }) ∧
  (∀ s : State, s.plen.toNat ≤ 0xFFFFFFFF → s.width = 10#16 → s.height = 10#16 → s.method = 7#8 →
    exec .embed s = .next { s with status := 0x206#12 })

/-- R207: which command can raise which error, in both directions. -/
def Obligations.CommandErrorTable : Prop :=
  ∀ (i : Instr) (e : ErrorKind), e ∈ canRaise i ↔
    ∃ s t, exec i s = .next t ∧ statusErr t.status = true ∧ statusErrcode t.status = errorCode e

/-- R215, R216: an error is all-or-nothing and precise: only STATUS changes, and REQ and AVAIL for InsufficientCapacity, which then hold the
two counts; BUSY = 0, DONE = ERR = 1, END = 0. -/
def Obligations.ErrorChangesOnlyStatus : Prop :=
  ∀ (i : Instr) (s t : State), exec i s = .next t → statusErr t.status = true →
    t = { s with req := t.req, avail := t.avail, status := t.status } ∧
    (∃ e, t.status = statusWord false true true false (errorCode e)) ∧
    (statusErrcode t.status ≠ errorCode .insufficientCapacity → t.req = s.req ∧ t.avail = s.avail) ∧
    (statusErrcode t.status = errorCode .insufficientCapacity → ∃ m, s.method.toNat = methodCode m ∧
      ((i = .embed ∧ t.req.toNat = 32 + 8 * s.plen.toNat ∧ t.avail.toNat = (s.filtered m 579).length) ∨
       (i = .wrbits ∧ t.req.toNat = 8 * s.plen.toNat ∧ t.avail.toNat = (s.filtered m s.floor.toNat).length)))

/-- R31: which command writes the HDR registers, and with what. -/
def Obligations.HeaderRegistersWrittenBy : Prop :=
  (∀ (i : Instr) (s t : State), i ∈ [Instr.hdrwr, .selnext, .selcnt, .wrbits, .rdbits] → exec i s = .next t → t.hdr = s.hdr) ∧
  (∀ (i : Instr) (s t : State), exec i s = .next t → statusErr t.status = true → t.hdr = s.hdr) ∧
  (∀ (i : Instr) (s t : State), i ∈ [Instr.extract, .hdrrd] → exec i s = .next t → statusErr t.status = false →
    hdrDecode ((List.range 579).map s.pixGetBit) = .ok t.hdr) ∧
  (∀ s t : State, exec .embed s = .next t → statusErr t.status = false →
    hdrDecode ((List.range 579).map t.pixGetBit) = .ok t.hdr)

/-- R29: which command writes which result register; every other keeps its value. REQ and AVAIL are written exactly when the capacity
comparison is evaluated. -/
def Obligations.ResultRegistersWrittenBy : Prop :=
  ∀ (i : Instr) (s t : State), exec i s = .next t →
    (i ≠ .selnext → i ≠ .selcnt → t.result = s.result) ∧
    (i ≠ .embed → i ≠ .wrbits → t.req = s.req ∧ t.avail = s.avail) ∧
    (i ≠ .extract → i ≠ .rdbits → t.rlen = s.rlen) ∧
    (i ≠ .extract → t.kind = s.kind ∧ t.rfnlen = s.rfnlen) ∧
    (∀ m, i = .embed → s.plen.toNat ≤ 0xFFFFFFFF → 579 ≤ s.pixelCount → s.method.toNat = methodCode m →
      t.req.toNat = 32 + 8 * s.plen.toNat ∧ t.avail.toNat = (s.filtered m 579).length) ∧
    (∀ m, i = .wrbits → s.plen.toNat ≤ 0xFFFFFFFF → s.method.toNat = methodCode m →
      t.req.toNat = 8 * s.plen.toNat ∧ t.avail.toNat = (s.filtered m s.floor.toNat).length) ∧
    (0xFFFFFFFF < s.plen.toNat ∨ 3 < s.method.toNat ∨ i = .embed ∧ s.pixelCount < 579 → t.req = s.req ∧ t.avail = s.avail) ∧
    (∀ m idx rest, i = .selnext → s.method.toNat = methodCode m → s.filtered m s.floor.toNat = idx :: rest → t.result.toNat = idx) ∧
    (∀ m, i = .selnext → s.method.toNat = methodCode m → s.filtered m s.floor.toNat = [] → t.result = 0xFFFFFFFF#32) ∧
    (∀ m, i = .selcnt → s.method.toNat = methodCode m → t.result.toNat = (s.filtered m s.floor.toNat).length) ∧
    (i = .rdbits → statusErr t.status = false → t.rlen.toNat = s.blen.toNat / 8) ∧
    (i = .extract → statusErr t.status = false →
      t.rlen.toNat = bitsToNat (((s.filtered (methodOfField t.hdr.method) (max t.hdr.first.toNat 579)).take 32).map s.pixGetBit) ∧
      t.kind = t.hdr.info ∧ t.rfnlen.toNat = if t.hdr.info = 1#1 then (fnameRecover t.hdr.fname).length else 0)

/-- R23 to R28 (the engine never writes an operand register), R20: no command writes an operand register or touches the host's
side. -/
def Obligations.CommandsKeepOperands : Prop :=
  ∀ (i : Instr) (s t : State), exec i s = .next t → SameOperands s t ∧ SameHost s t

/-- R32, R212, R219: no command reads STATUS: an error of an earlier command neither persists nor blocks. -/
def Obligations.CommandsIgnoreStatus : Prop :=
  ∀ (i : Instr) (s : State) (st : BitVec 12), exec i { s with status := st } = exec i s

/-- R32 and log 2: the reset state meets the invariant. -/
def Obligations.ResetMeetsInvariant : Prop := Inv State.reset

/-- R32 (its invariant), R206, R21 (widths), log 2: every step keeps the invariant: canonical memories, a legal STATUS, RFNLEN at most
64. -/
def Obligations.StepKeepsInvariant : Prop :=
  ∀ s t : State, Inv s → step s = .next t → Inv t

/-! ## Decoding, stepping, the host port, reset -/

/-- R92: the opcode map, from words written out bit by bit as spec/opcode_table.json has them. -/
def Obligations.OpcodeMapWords : Prop :=
  decode 0b00000001#8 = .ok .embed ∧ decode 0b00000010#8 = .ok .extract ∧ decode 0b00000011#8 = .ok .hdrwr ∧
  decode 0b00000100#8 = .ok .hdrrd ∧ decode 0b00000101#8 = .ok .selnext ∧ decode 0b00000110#8 = .ok .selcnt ∧
  decode 0b00000111#8 = .ok .wrbits ∧ decode 0b00001000#8 = .ok .rdbits

/-- R90, R91, R92, R93: decoding and encoding agree, and exactly the opcodes 0x00 and 0x09 to 0xFF are refused, by name. -/
def Obligations.DecodeAndEncodeAgree : Prop :=
  (∀ (op : BitVec 8) (i : Instr), decode op = .ok i ↔ op = encode i) ∧
  (∀ op : BitVec 8, decode op = .error (.reservedOpcode op) ↔ op = 0x00#8 ∨ 0x09 ≤ op.toNat) ∧
  (∀ i : Instr, i.wellFormed = true ∧ opcodeAssigned (encode i) = true)

/-- R90, R212, R214, log 1: a write to CMD of a value whose low 8 bits decode to a command makes that step the command's own, at the
state that has moved past the transaction; and `withFetchWord` puts such a write next. With no transaction to come the engine idles. -/
def Obligations.StepRunsDecodedCommand : Prop :=
  (∀ (s : State) (v : Nat) (rest : List HostAccess) (i : Instr), statusBusy s.status = false →
    s.host = .write 32#8 v :: rest → decode (BitVec.ofNat 8 (v % 256)) = .ok i →
    step s = exec i { s with host := rest }) ∧
  (∀ (s : State) (w : Nat) (i : Instr), decodeTableWord 8 w = some i → step (s.withFetchWord 8 w) = exec i s) ∧
  (∀ s : State, s.host = [] → step s = .next s)

/-- R93, R218: starting a reserved opcode, `0x00` or `0x09` to `0xFF`, ends with IllegalCommand and changes nothing but STATUS; no other
opcode does. `HostRegisterAccess` says that a CMD write is `startCommand`. -/
def Obligations.ReservedOpcodeIsIllegalCommand : Prop :=
  (∀ (s : State) (v : Nat), v % 256 = 0 ∨ 9 ≤ v % 256 → startCommand v s = .next { s with status := 0x806#12 }) ∧
  (∀ (s t : State) (v : Nat), startCommand v s = .next t → t.status = 0x806#12 → v % 256 = 0 ∨ 9 ≤ v % 256)

/-- R22, the transactions being those of log 1. A host write to an RW register stores the value modulo its width and changes no other
register; to an RO or unassigned number it changes nothing; to CMD it starts a command. A read returns the value, and 0 for CMD, an
unassigned number or an element index above 63; the only effect of a read is the value the host holds (log 4). -/
def Obligations.HostRegisterAccess : Prop :=
  (∀ (s : State) (r : Reg) (v : Nat) (rest : List HostAccess), statusBusy s.status = false → regIsArray r = false → r ≠ .cmd →
    s.host = .write (regNumber r) v :: rest → ∃ t, step s = .next t ∧
      (regAccess r = .readWrite → t.readReg r = v % 2 ^ regWidth r) ∧
      (regAccess r = .readOnly → t = { s with host := rest }) ∧
      (∀ r', r' ≠ r → t.readReg r' = s.readReg r') ∧ (∀ r' j, t.readElem r' j = s.readElem r' j) ∧
      t.pix = s.pix ∧ t.pay = s.pay ∧ t.host = rest ∧ t.readData = s.readData ∧ t.resets = s.resets) ∧
  (∀ (s : State) (r : Reg) (j v : Nat) (rest : List HostAccess), statusBusy s.status = false → regIsArray r = true → j ≤ 63 →
    s.host = .writeElem (regNumber r) j v :: rest → ∃ t, step s = .next t ∧ t.readElem r j = v % 256 ∧
      (∀ r' j', ¬ (r' = r ∧ j' = j) → t.readElem r' j' = s.readElem r' j') ∧ (∀ r', t.readReg r' = s.readReg r') ∧
      t.pix = s.pix ∧ t.pay = s.pay ∧ t.host = rest ∧ t.readData = s.readData ∧ t.resets = s.resets) ∧
  (∀ (s : State) (n : BitVec 8) (v : Nat) (rest : List HostAccess), statusBusy s.status = false → regOfNumber n = none →
    s.host = .write n v :: rest → step s = .next { s with host := rest }) ∧
  (∀ (s : State) (n : BitVec 8) (j v : Nat) (rest : List HostAccess), statusBusy s.status = false → regOfNumber n = none ∨ 63 < j →
    s.host = .writeElem n j v :: rest → step s = .next { s with host := rest }) ∧
  (∀ (s : State) (r : Reg) (rest : List HostAccess), statusBusy s.status = false → regIsArray r = false →
    s.host = .read (regNumber r) :: rest → ∃ t, step s = .next t ∧ t.readData.toNat = s.readReg r ∧
      { t with readData := s.readData } = { s with host := rest }) ∧
  (∀ (s : State) (r : Reg) (j : Nat) (rest : List HostAccess), statusBusy s.status = false → regIsArray r = true → j ≤ 63 →
    s.host = .readElem (regNumber r) j :: rest → ∃ t, step s = .next t ∧ t.readData.toNat = s.readElem r j ∧
      { t with readData := s.readData } = { s with host := rest }) ∧
  (∀ (s : State) (n : BitVec 8) (rest : List HostAccess), statusBusy s.status = false → regOfNumber n = none →
    s.host = .read n :: rest → step s = .next { s with host := rest, readData := 0#64 }) ∧
  (∀ (s : State) (n : BitVec 8) (j : Nat) (rest : List HostAccess), statusBusy s.status = false → regOfNumber n = none ∨ 63 < j →
    s.host = .readElem n j :: rest → step s = .next { s with host := rest, readData := 0#64 }) ∧
  (∀ s : State, s.readReg .cmd = 0) ∧
  (∀ (s : State) (v : Nat) (rest : List HostAccess), statusBusy s.status = false → s.host = .write (regNumber .cmd) v :: rest →
    step s = startCommand v { s with host := rest }) ∧
  (∀ (s : State) (rest : List HostAccess), statusBusy s.status = false → s.host = .write (regNumber .hdrMethod) 6 :: rest →
    ∃ t, step s = .next t ∧ t.hdr.method = 2#2)

/-- R21: its rows as literals, register by register (number, width, of an array register the width of an element, host access, array or
not); the numbers that are assigned and those that are not; the datum of State that each register is; and the widths as bounds on what a
register holds. An array register has 64 elements. -/
def Obligations.RegisterNumbersAndWidths : Prop :=
  (regNumber .width = 0#8 ∧ regWidth .width = 16 ∧ regAccess .width = .readWrite ∧ regIsArray .width = false) ∧
  (regNumber .height = 1#8 ∧ regWidth .height = 16 ∧ regAccess .height = .readWrite ∧ regIsArray .height = false) ∧
  (regNumber .method = 2#8 ∧ regWidth .method = 8 ∧ regAccess .method = .readWrite ∧ regIsArray .method = false) ∧
  (regNumber .info = 3#8 ∧ regWidth .info = 1 ∧ regAccess .info = .readWrite ∧ regIsArray .info = false) ∧
  (regNumber .fnlen = 4#8 ∧ regWidth .fnlen = 8 ∧ regAccess .fnlen = .readWrite ∧ regIsArray .fnlen = false) ∧
  (regNumber .plen = 5#8 ∧ regWidth .plen = 64 ∧ regAccess .plen = .readWrite ∧ regIsArray .plen = false) ∧
  (regNumber .floor = 6#8 ∧ regWidth .floor = 32 ∧ regAccess .floor = .readWrite ∧ regIsArray .floor = false) ∧
  (regNumber .blen = 7#8 ∧ regWidth .blen = 32 ∧ regAccess .blen = .readWrite ∧ regIsArray .blen = false) ∧
  (regNumber .fname = 8#8 ∧ regWidth .fname = 8 ∧ regAccess .fname = .readWrite ∧ regIsArray .fname = true) ∧
  (regNumber .result = 16#8 ∧ regWidth .result = 32 ∧ regAccess .result = .readOnly ∧ regIsArray .result = false) ∧
  (regNumber .req = 17#8 ∧ regWidth .req = 36 ∧ regAccess .req = .readOnly ∧ regIsArray .req = false) ∧
  (regNumber .avail = 18#8 ∧ regWidth .avail = 32 ∧ regAccess .avail = .readOnly ∧ regIsArray .avail = false) ∧
  (regNumber .rlen = 19#8 ∧ regWidth .rlen = 32 ∧ regAccess .rlen = .readOnly ∧ regIsArray .rlen = false) ∧
  (regNumber .kind = 20#8 ∧ regWidth .kind = 1 ∧ regAccess .kind = .readOnly ∧ regIsArray .kind = false) ∧
  (regNumber .rfnlen = 21#8 ∧ regWidth .rfnlen = 7 ∧ regAccess .rfnlen = .readOnly ∧ regIsArray .rfnlen = false) ∧
  (regNumber .hdrInfo = 24#8 ∧ regWidth .hdrInfo = 1 ∧ regAccess .hdrInfo = .readWrite ∧ regIsArray .hdrInfo = false) ∧
  (regNumber .hdrMethod = 25#8 ∧ regWidth .hdrMethod = 2 ∧ regAccess .hdrMethod = .readWrite ∧ regIsArray .hdrMethod = false) ∧
  (regNumber .hdrFirst = 26#8 ∧ regWidth .hdrFirst = 32 ∧ regAccess .hdrFirst = .readWrite ∧ regIsArray .hdrFirst = false) ∧
  (regNumber .hdrLast = 27#8 ∧ regWidth .hdrLast = 32 ∧ regAccess .hdrLast = .readWrite ∧ regIsArray .hdrLast = false) ∧
  (regNumber .hdrFname = 28#8 ∧ regWidth .hdrFname = 8 ∧ regAccess .hdrFname = .readWrite ∧ regIsArray .hdrFname = true) ∧
  (regNumber .cmd = 32#8 ∧ regWidth .cmd = 8 ∧ regAccess .cmd = .writeOnly ∧ regIsArray .cmd = false) ∧
  (regNumber .status = 33#8 ∧ regWidth .status = 12 ∧ regAccess .status = .readOnly ∧ regIsArray .status = false) ∧
  (∀ (n : BitVec 8) (r : Reg), regOfNumber n = some r ↔ n = regNumber r) ∧
  (∀ n : BitVec 8, regOfNumber n = none ↔
    9 ≤ n.toNat ∧ n.toNat ≤ 15 ∨ n.toNat = 22 ∨ n.toNat = 23 ∨ 29 ≤ n.toNat ∧ n.toNat ≤ 31 ∨ 34 ≤ n.toNat) ∧
  (∀ s : State,
    s.readReg .width = s.width.toNat ∧ s.readReg .height = s.height.toNat ∧ s.readReg .method = s.method.toNat ∧
    s.readReg .info = s.info.toNat ∧ s.readReg .fnlen = s.fnlen.toNat ∧ s.readReg .plen = s.plen.toNat ∧
    s.readReg .floor = s.floor.toNat ∧ s.readReg .blen = s.blen.toNat ∧ s.readReg .result = s.result.toNat ∧
    s.readReg .req = s.req.toNat ∧ s.readReg .avail = s.avail.toNat ∧ s.readReg .rlen = s.rlen.toNat ∧
    s.readReg .kind = s.kind.toNat ∧ s.readReg .rfnlen = s.rfnlen.toNat ∧ s.readReg .hdrInfo = s.hdr.info.toNat ∧
    s.readReg .hdrMethod = s.hdr.method.toNat ∧ s.readReg .hdrFirst = s.hdr.first.toNat ∧ s.readReg .hdrLast = s.hdr.last.toNat ∧
    s.readReg .status = s.status.toNat ∧
    (∀ (j : Nat) (hj : j < 64), s.readElem .fname j = s.fname[j].toNat ∧ s.readElem .hdrFname j = s.hdr.fname[j].toNat)) ∧
  (∀ (s : State) (r : Reg), s.readReg r < 2 ^ regWidth r) ∧
  (∀ (s : State) (r : Reg) (j : Nat), s.readElem r j < 2 ^ 8)

/-- Log 7 and log 6 (the model's own choice): an idle engine answers every well-formed transaction with a next state; the ill-formed ones
are an array register without an element index and another register with one of at most 63, each refused by its own name with the number
and index of the access; and while BUSY = 1 everything but the reset event is refused. -/
def Obligations.WellFormedAccessIsAnswered : Prop :=
  (∀ (s : State) (a : HostAccess) (rest : List HostAccess), s.host = a :: rest → statusBusy s.status = false →
    a.wellFormed = true → ∃ t, step s = .next t) ∧
  (∀ a : HostAccess, a.wellFormed = false ↔
    (∃ r, regIsArray r = true ∧ ((∃ v, a = .write (regNumber r) v) ∨ a = .read (regNumber r))) ∨
    (∃ r j, regIsArray r = false ∧ j ≤ 63 ∧ ((∃ v, a = .writeElem (regNumber r) j v) ∨ a = .readElem (regNumber r) j))) ∧
  (∀ (s : State) (r : Reg) (v : Nat) (rest : List HostAccess), statusBusy s.status = false → regIsArray r = true →
    s.host = .write (regNumber r) v :: rest → step s = .refused (.arrayRegisterWithoutElement (regNumber r))) ∧
  (∀ (s : State) (r : Reg) (rest : List HostAccess), statusBusy s.status = false → regIsArray r = true →
    s.host = .read (regNumber r) :: rest → step s = .refused (.arrayRegisterWithoutElement (regNumber r))) ∧
  (∀ (s : State) (r : Reg) (j v : Nat) (rest : List HostAccess), statusBusy s.status = false → regIsArray r = false → j ≤ 63 →
    s.host = .writeElem (regNumber r) j v :: rest → step s = .refused (.elementOfPlainRegister (regNumber r) j)) ∧
  (∀ (s : State) (r : Reg) (j : Nat) (rest : List HostAccess), statusBusy s.status = false → regIsArray r = false → j ≤ 63 →
    s.host = .readElem (regNumber r) j :: rest → step s = .refused (.elementOfPlainRegister (regNumber r) j)) ∧
  (∀ (s : State) (a : HostAccess) (rest : List HostAccess), s.host = a :: rest → statusBusy s.status = true →
    a ≠ .reset → step s = .refused .hostAccessWhileBusy)

/-- R37: every register reads 0, every STATUS field is 0, no command is running, and no cell of PIX or PAY has been written, so each holds
its free value (the spec's "unspecified"; log 2). -/
def Obligations.ResetState : Prop :=
  (∀ r : Reg, State.reset.readReg r = 0) ∧ (∀ (r : Reg) (j : Nat), State.reset.readElem r j = 0) ∧
  statusBusy State.reset.status = false ∧ statusDone State.reset.status = false ∧ statusErr State.reset.status = false ∧
  statusEnd State.reset.status = false ∧ statusErrcode State.reset.status = 0#4 ∧
  (∀ idx, State.reset.pixCell idx = pixelOfCell (Config.freePixCell 0 idx)) ∧
  (∀ a, State.reset.payByte a = Config.freePayByte 0 a)

/-- R240, R241 and log 3: the reset event takes any state, a command running or not, to the reset state with new free values in PIX
and PAY; the host keeps what it has read and has still to do. -/
def Obligations.ResetEventFromAnyState : Prop :=
  ∀ (s : State) (rest : List HostAccess), s.host = .reset :: rest → ∃ t, step s = .next t ∧
    { t with resets := 0, host := [], readData := 0#64 } = State.reset ∧ t.host = rest ∧ t.readData = s.readData ∧
    (∀ idx, t.pixCell idx = pixelOfCell (Config.freePixCell (s.resets + 1) idx)) ∧
    (∀ a, t.payByte a = Config.freePayByte (s.resets + 1) a)

/-- R102 (its `hidetext` row): `hidetext m` sets METHOD, INFO = 0 and FNLEN = 0 and runs EMBED. -/
def Obligations.HidetextRunsEmbed : Prop :=
  ∀ (s : State) (m : Nat), statusBusy s.status = false →
    Sys2Proof.core.run 4 { s with host := expandStmt (.hidetext m) } =
      exec .embed { s with host := [], method := BitVec.ofNat 8 m, info := 0#1, fnlen := 0#8 }

/-! ## Beyond the spec's domain -/

/-- Log 14 (the model's own choice, where R124 defines nothing): of a value too large for its width `nat_to_bits` keeps the low bits, so it
has length `w` and bit `w-1-k` of `v` at position `k` for every `v`, and decodes to `v mod 2^w`. -/
def Obligations.NatToBitsKeepsLowBits : Prop :=
  ∀ v w : Nat, (natToBits v w).length = w ∧ (∀ k < w, (natToBits v w)[k]? = some (v.testBit (w - 1 - k))) ∧
    bitsToNat (natToBits v w) = v % 2 ^ w ∧ natToBits v w = natToBits (v % 2 ^ w) w
end

