-- ==== Sys2Proof/Laws/Codec.lean ====
section
/-! SUPPORT. The lengths of the codec's sequences, and the slices of a header frame. -/

namespace Sys2Proof.Machine

@[simp] theorem length_byteToBits (b : Byte) : (byteToBits b).length = 8 := rfl

theorem length_bytesToBits (bs : Bytes) : (bytesToBits bs).length = 8 * bs.length := by
  induction bs with
  | nil => rfl
  | cons b bs ih =>
    rw [bytesToBits] at ih
    rw [bytesToBits, List.flatMap_cons, List.length_append, ih, length_byteToBits, List.length_cons]
    omega

@[simp] theorem length_natToBits (v w : Nat) : (natToBits v w).length = w := by simp [natToBits]

@[simp] theorem length_be32 (n : BitVec 32) : (be32 n).length = 4 := rfl

theorem length_frameBits (n : BitVec 32) (p : Bytes) : (frameBits n p).length = 32 + 8 * p.length := by
  rw [frameBits, length_bytesToBits, List.length_append, length_be32]
  omega

/-- `len(hb) = 579` for every header value (R131). -/
@[simp] theorem length_hdrEncode (h : Header) : (hdrEncode h).length = 579 := by
  simp [hdrEncode, length_bytesToBits, Config.wInfo, Config.wMethod, Config.wPos]

theorem length_slice {α : Type} (s : List α) {a b : Nat} (h : b ≤ s.length) : (slice s a b).length = b - a := by
  simp only [slice, List.length_take, List.length_drop]
  omega

/-- A middle part of a concatenation. -/
theorem slice_append {α : Type} (x y z : List α) : slice (x ++ y ++ z) x.length (x.length + y.length) = y := by
  simp [slice]

theorem bitsToNat_lt (s : Bits) : bitsToNat s < 2 ^ s.length := by
  induction s with
  | nil => simp [bitsToNat]
  | cons x xs ih =>
    rw [bitsToNat, List.length_cons, Nat.pow_succ]
    cases x <;> simp <;> omega

end Sys2Proof.Machine
end

