-- ==== Sys2Proof/Laws/Memory.lean ====
section
/-! SUPPORT. The laws of a memory in canonical form: what a read gives after a write, and that every operation keeps the form. -/

namespace Sys2Proof.Machine

variable {α : Type}

theorem lookup_write_same (m : Memory α) (a : Nat) (x : α) : (m.write a x).lookup a = some x := by
  induction m with
  | nil => simp [Memory.write, Memory.lookup]
  | cons c m ih =>
    obtain ⟨k, v⟩ := c
    by_cases h1 : a < k
    · simp [Memory.write, Memory.lookup, h1]
    · by_cases h2 : a = k
      · simp [Memory.write, Memory.lookup, h2]
      · simp [Memory.write, Memory.lookup, h1, h2, Ne.symm h2, ih]

theorem lookup_write_other (m : Memory α) {a b : Nat} (x : α) (h : a ≠ b) :
    (m.write b x).lookup a = m.lookup a := by
  induction m with
  | nil => simp [Memory.write, Memory.lookup, h.symm]
  | cons c m ih =>
    obtain ⟨k, v⟩ := c
    by_cases h1 : b < k
    · simp [Memory.write, Memory.lookup, h1, h.symm]
    · by_cases h2 : b = k
      · subst h2
        simp [Memory.write, Memory.lookup, h.symm]
      · simp only [Memory.write, h1, h2, if_false, Memory.lookup, ih]

/-- Read after write, at any two addresses. -/
theorem lookup_write (m : Memory α) (a b : Nat) (x : α) :
    (m.write b x).lookup a = if a = b then some x else m.lookup a := by
  split
  · next h => rw [h, lookup_write_same]
  · next h => exact lookup_write_other m x h

theorem lookup_writeAll (m : Memory α) (b : Nat) (xs : List α) (a : Nat) :
    (m.writeAll b xs).lookup a = if b ≤ a ∧ a < b + xs.length then xs[a - b]? else m.lookup a := by
  induction xs generalizing m b with
  | nil =>
    have : ¬ (b ≤ a ∧ a < b) := by omega
    simp [Memory.writeAll, this]
  | cons x xs ih =>
    rw [Memory.writeAll, ih, lookup_write, List.length_cons]
    rcases Nat.lt_trichotomy a b with h | h | h
    · rw [if_neg (by omega), if_neg (by omega), if_neg (by omega)]
    · subst h
      rw [if_neg (by omega), if_pos rfl, if_pos (by omega)]
      simp
    · obtain ⟨d, rfl⟩ : ∃ d, a = b + 1 + d := ⟨a - (b + 1), by omega⟩
      have e1 : b + 1 + d - (b + 1) = d := by omega
      have e2 : b + 1 + d - b = d + 1 := by omega
      by_cases hd : d < xs.length
      · rw [if_pos (by omega), if_pos (by omega), e1, e2, List.getElem?_cons_succ]
      · rw [if_neg (by omega), if_neg (by omega), if_neg (by omega)]

theorem rising_mono {lo lo' : Nat} {m : Memory α} (h : Memory.rising lo m = true) (hl : lo' ≤ lo) :
    Memory.rising lo' m = true := by
  cases m with
  | nil => rfl
  | cons c m =>
    simp only [Memory.rising, Bool.and_eq_true, decide_eq_true_eq] at h ⊢
    exact ⟨by omega, h.2⟩

theorem rising_write {lo : Nat} {m : Memory α} (h : Memory.rising lo m = true) {a : Nat} (ha : lo ≤ a) (x : α) :
    Memory.rising lo (m.write a x) = true := by
  induction m generalizing lo with
  | nil => simp [Memory.write, Memory.rising, ha]
  | cons c m ih =>
    obtain ⟨k, v⟩ := c
    simp only [Memory.rising, Bool.and_eq_true, decide_eq_true_eq] at h
    unfold Memory.write
    split
    · simp only [Memory.rising, Bool.and_eq_true, decide_eq_true_eq]
      exact ⟨ha, by omega, h.2⟩
    · split
      · next hk =>
        subst hk
        simp only [Memory.rising, Bool.and_eq_true, decide_eq_true_eq]
        exact ⟨ha, h.2⟩
      · simp only [Memory.rising, Bool.and_eq_true, decide_eq_true_eq]
        exact ⟨h.1, ih h.2 (by omega)⟩

theorem bounded_write {m : Memory α} {a : Nat} (x : α) (h : m.all (fun c => c.1 < 2 ^ 32) = true) (ha : a < 2 ^ 32) :
    (m.write a x).all (fun c => c.1 < 2 ^ 32) = true := by
  induction m with
  | nil => simp [Memory.write]; omega
  | cons c m ih =>
    obtain ⟨k, v⟩ := c
    simp only [List.all_cons, Bool.and_eq_true, decide_eq_true_eq] at h
    unfold Memory.write
    split
    · simp only [List.all_cons, Bool.and_eq_true, decide_eq_true_eq]
      exact ⟨ha, h⟩
    · split
      · simp only [List.all_cons, Bool.and_eq_true, decide_eq_true_eq]
        exact ⟨ha, h.2⟩
      · simp only [List.all_cons, Bool.and_eq_true, decide_eq_true_eq]
        exact ⟨h.1, ih h.2⟩

/-- A write inside the address space keeps the canonical form. -/
theorem wf_write {m : Memory α} {a : Nat} (x : α) (h : m.wf = true) (ha : a < 2 ^ 32) : (m.write a x).wf = true := by
  simp only [Memory.wf, Bool.and_eq_true] at h ⊢
  exact ⟨rising_write h.1 (Nat.zero_le a) x, bounded_write x h.2 ha⟩

/-- Writing consecutive cells inside the address space keeps the canonical form. -/
theorem wf_writeAll {m : Memory α} {a : Nat} {xs : List α} (h : m.wf = true) (ha : a + xs.length ≤ 2 ^ 32) :
    (m.writeAll a xs).wf = true := by
  induction xs generalizing m a with
  | nil => exact h
  | cons x xs ih =>
    rw [List.length_cons] at ha
    exact ih (wf_write x h (by omega)) (by omega)

theorem wf_nil : Memory.wf ([] : Memory α) = true := rfl

theorem rising_lookup_none {lo a : Nat} {m : Memory α} (h : Memory.rising lo m = true) (ha : a < lo) : m.lookup a = none := by
  induction m generalizing lo with
  | nil => rfl
  | cons c m ih =>
    obtain ⟨k, v⟩ := c
    simp only [Memory.rising, Bool.and_eq_true, decide_eq_true_eq] at h
    rw [Memory.lookup, if_neg (by omega), ih h.2 (by omega)]

/-- Two memories in canonical form with the same cells are the same list. -/
theorem rising_ext {lo : Nat} {m n : Memory α} (hm : Memory.rising lo m = true) (hn : Memory.rising lo n = true)
    (h : ∀ a, m.lookup a = n.lookup a) : m = n := by
  induction m generalizing lo n with
  | nil =>
    cases n with
    | nil => rfl
    | cons c n =>
      have := h c.1
      simp [Memory.lookup] at this
  | cons c m ih =>
    obtain ⟨k, v⟩ := c
    simp only [Memory.rising, Bool.and_eq_true, decide_eq_true_eq] at hm
    cases n with
    | nil =>
      have := h k
      simp [Memory.lookup] at this
    | cons d n =>
      obtain ⟨l, w⟩ := d
      simp only [Memory.rising, Bool.and_eq_true, decide_eq_true_eq] at hn
      have hkl : k = l := by
        rcases Nat.lt_trichotomy k l with hlt | heq | hgt
        · have h1 := h k
          rw [Memory.lookup, if_pos rfl, Memory.lookup, if_neg (by omega),
            rising_lookup_none hn.2 (by omega)] at h1
          cases h1
        · exact heq
        · have h1 := h l
          rw [Memory.lookup, if_neg (by omega), Memory.lookup, if_pos rfl,
            rising_lookup_none hm.2 (by omega)] at h1
          cases h1
      subst hkl
      have hv : v = w := by
        have h1 := h k
        simpa [Memory.lookup] using h1
      subst hv
      congr 1
      refine ih hm.2 hn.2 (fun a => ?_)
      by_cases ha : a = k
      · subst ha
        rw [rising_lookup_none hm.2 (by omega), rising_lookup_none hn.2 (by omega)]
      · have h1 := h a
        simpa [Memory.lookup, Ne.symm ha] using h1

/-- The canonical form: equal memories are equal lists. -/
theorem wf_ext {m n : Memory α} (hm : m.wf = true) (hn : n.wf = true) (h : ∀ a, m.lookup a = n.lookup a) : m = n := by
  simp only [Memory.wf, Bool.and_eq_true] at hm hn
  exact rising_ext hm.1 hn.1 h

end Sys2Proof.Machine
end

