-- ==== Sys2Proof/Laws/PerInstr.lean ====
section
/-! SUPPORT. A statement about every command as syntax, one lemma per constructor. -/

namespace Sys2Proof.Laws.DecodeEncode

/-- A command is well formed, its word is an assigned opcode (spec/30_encoding.md R92), and that word, alone or as the low eight bits of a
longer value written to CMD (R90), decodes to the command. -/
def Statement (i : Instr) : Prop :=
  i.wellFormed = true ∧ opcodeAssigned (encode i) = true ∧ decodeTableWord 8 (encode i).toNat = some i ∧
  ∀ v : Nat, decode (opcodeField ((encode i).toNat + 256 * v)) = .ok i

theorem opcodeField_low (i : Instr) (v : Nat) : opcodeField ((encode i).toNat + 256 * v) = encode i := by
  apply BitVec.eq_of_toNat_eq
  have := (encode i).isLt
  simp only [opcodeField, BitVec.toNat_ofNat]
  omega

theorem of_decode {i : Instr} (h : i.wellFormed = true ∧ opcodeAssigned (encode i) = true ∧ decodeTableWord 8 (encode i).toNat = some i)
    (hd : decode (encode i) = .ok i) : Statement i :=
  ⟨h.1, h.2.1, h.2.2, fun v => by rw [opcodeField_low, hd]⟩

theorem embed : Statement .embed := of_decode (by decide) rfl
theorem extract : Statement .extract := of_decode (by decide) rfl
theorem hdrwr : Statement .hdrwr := of_decode (by decide) rfl
theorem hdrrd : Statement .hdrrd := of_decode (by decide) rfl
theorem selnext : Statement .selnext := of_decode (by decide) rfl
theorem selcnt : Statement .selcnt := of_decode (by decide) rfl
theorem wrbits : Statement .wrbits := of_decode (by decide) rfl
theorem rdbits : Statement .rdbits := of_decode (by decide) rfl

end Sys2Proof.Laws.DecodeEncode
end

