-- ==== Sys2Proof/Laws/State.lean ====
section
/-! SUPPORT. One lemma per field per named update of State, so that no proof unfolds a record update. -/

namespace Sys2Proof.Machine

variable (s : State)

/-! ## setPixCell -/

@[simp] theorem setPixCell_width (idx : Nat) (c : Pixel) : (s.setPixCell idx c).width = s.width := rfl
@[simp] theorem setPixCell_height (idx : Nat) (c : Pixel) : (s.setPixCell idx c).height = s.height := rfl
@[simp] theorem setPixCell_method (idx : Nat) (c : Pixel) : (s.setPixCell idx c).method = s.method := rfl
@[simp] theorem setPixCell_info (idx : Nat) (c : Pixel) : (s.setPixCell idx c).info = s.info := rfl
@[simp] theorem setPixCell_fnlen (idx : Nat) (c : Pixel) : (s.setPixCell idx c).fnlen = s.fnlen := rfl
@[simp] theorem setPixCell_plen (idx : Nat) (c : Pixel) : (s.setPixCell idx c).plen = s.plen := rfl
@[simp] theorem setPixCell_floor (idx : Nat) (c : Pixel) : (s.setPixCell idx c).floor = s.floor := rfl
@[simp] theorem setPixCell_blen (idx : Nat) (c : Pixel) : (s.setPixCell idx c).blen = s.blen := rfl
@[simp] theorem setPixCell_fname (idx : Nat) (c : Pixel) : (s.setPixCell idx c).fname = s.fname := rfl
@[simp] theorem setPixCell_result (idx : Nat) (c : Pixel) : (s.setPixCell idx c).result = s.result := rfl
@[simp] theorem setPixCell_req (idx : Nat) (c : Pixel) : (s.setPixCell idx c).req = s.req := rfl
@[simp] theorem setPixCell_avail (idx : Nat) (c : Pixel) : (s.setPixCell idx c).avail = s.avail := rfl
@[simp] theorem setPixCell_rlen (idx : Nat) (c : Pixel) : (s.setPixCell idx c).rlen = s.rlen := rfl
@[simp] theorem setPixCell_kind (idx : Nat) (c : Pixel) : (s.setPixCell idx c).kind = s.kind := rfl
@[simp] theorem setPixCell_rfnlen (idx : Nat) (c : Pixel) : (s.setPixCell idx c).rfnlen = s.rfnlen := rfl
@[simp] theorem setPixCell_hdr (idx : Nat) (c : Pixel) : (s.setPixCell idx c).hdr = s.hdr := rfl
@[simp] theorem setPixCell_status (idx : Nat) (c : Pixel) : (s.setPixCell idx c).status = s.status := rfl
@[simp] theorem setPixCell_pix (idx : Nat) (c : Pixel) : (s.setPixCell idx c).pix = s.pix.write idx c := rfl
@[simp] theorem setPixCell_pay (idx : Nat) (c : Pixel) : (s.setPixCell idx c).pay = s.pay := rfl
@[simp] theorem setPixCell_resets (idx : Nat) (c : Pixel) : (s.setPixCell idx c).resets = s.resets := rfl
@[simp] theorem setPixCell_host (idx : Nat) (c : Pixel) : (s.setPixCell idx c).host = s.host := rfl
@[simp] theorem setPixCell_readData (idx : Nat) (c : Pixel) : (s.setPixCell idx c).readData = s.readData := rfl

/-! ## pixSetBit -/

@[simp] theorem pixSetBit_width (idx : Nat) (x : Bool) : (s.pixSetBit idx x).width = s.width := rfl
@[simp] theorem pixSetBit_height (idx : Nat) (x : Bool) : (s.pixSetBit idx x).height = s.height := rfl
@[simp] theorem pixSetBit_method (idx : Nat) (x : Bool) : (s.pixSetBit idx x).method = s.method := rfl
@[simp] theorem pixSetBit_info (idx : Nat) (x : Bool) : (s.pixSetBit idx x).info = s.info := rfl
@[simp] theorem pixSetBit_fnlen (idx : Nat) (x : Bool) : (s.pixSetBit idx x).fnlen = s.fnlen := rfl
@[simp] theorem pixSetBit_plen (idx : Nat) (x : Bool) : (s.pixSetBit idx x).plen = s.plen := rfl
@[simp] theorem pixSetBit_floor (idx : Nat) (x : Bool) : (s.pixSetBit idx x).floor = s.floor := rfl
@[simp] theorem pixSetBit_blen (idx : Nat) (x : Bool) : (s.pixSetBit idx x).blen = s.blen := rfl
@[simp] theorem pixSetBit_fname (idx : Nat) (x : Bool) : (s.pixSetBit idx x).fname = s.fname := rfl
@[simp] theorem pixSetBit_result (idx : Nat) (x : Bool) : (s.pixSetBit idx x).result = s.result := rfl
@[simp] theorem pixSetBit_req (idx : Nat) (x : Bool) : (s.pixSetBit idx x).req = s.req := rfl
@[simp] theorem pixSetBit_avail (idx : Nat) (x : Bool) : (s.pixSetBit idx x).avail = s.avail := rfl
@[simp] theorem pixSetBit_rlen (idx : Nat) (x : Bool) : (s.pixSetBit idx x).rlen = s.rlen := rfl
@[simp] theorem pixSetBit_kind (idx : Nat) (x : Bool) : (s.pixSetBit idx x).kind = s.kind := rfl
@[simp] theorem pixSetBit_rfnlen (idx : Nat) (x : Bool) : (s.pixSetBit idx x).rfnlen = s.rfnlen := rfl
@[simp] theorem pixSetBit_hdr (idx : Nat) (x : Bool) : (s.pixSetBit idx x).hdr = s.hdr := rfl
@[simp] theorem pixSetBit_status (idx : Nat) (x : Bool) : (s.pixSetBit idx x).status = s.status := rfl
@[simp] theorem pixSetBit_pix (idx : Nat) (x : Bool) : (s.pixSetBit idx x).pix = s.pix.write idx { s.pixCell idx with b := setBlueLsb (s.pixCell idx).b x } := rfl
@[simp] theorem pixSetBit_pay (idx : Nat) (x : Bool) : (s.pixSetBit idx x).pay = s.pay := rfl
@[simp] theorem pixSetBit_resets (idx : Nat) (x : Bool) : (s.pixSetBit idx x).resets = s.resets := rfl
@[simp] theorem pixSetBit_host (idx : Nat) (x : Bool) : (s.pixSetBit idx x).host = s.host := rfl
@[simp] theorem pixSetBit_readData (idx : Nat) (x : Bool) : (s.pixSetBit idx x).readData = s.readData := rfl

/-! ## payWrite -/

@[simp] theorem payWrite_width (bs : Bytes) : (s.payWrite bs).width = s.width := rfl
@[simp] theorem payWrite_height (bs : Bytes) : (s.payWrite bs).height = s.height := rfl
@[simp] theorem payWrite_method (bs : Bytes) : (s.payWrite bs).method = s.method := rfl
@[simp] theorem payWrite_info (bs : Bytes) : (s.payWrite bs).info = s.info := rfl
@[simp] theorem payWrite_fnlen (bs : Bytes) : (s.payWrite bs).fnlen = s.fnlen := rfl
@[simp] theorem payWrite_plen (bs : Bytes) : (s.payWrite bs).plen = s.plen := rfl
@[simp] theorem payWrite_floor (bs : Bytes) : (s.payWrite bs).floor = s.floor := rfl
@[simp] theorem payWrite_blen (bs : Bytes) : (s.payWrite bs).blen = s.blen := rfl
@[simp] theorem payWrite_fname (bs : Bytes) : (s.payWrite bs).fname = s.fname := rfl
@[simp] theorem payWrite_result (bs : Bytes) : (s.payWrite bs).result = s.result := rfl
@[simp] theorem payWrite_req (bs : Bytes) : (s.payWrite bs).req = s.req := rfl
@[simp] theorem payWrite_avail (bs : Bytes) : (s.payWrite bs).avail = s.avail := rfl
@[simp] theorem payWrite_rlen (bs : Bytes) : (s.payWrite bs).rlen = s.rlen := rfl
@[simp] theorem payWrite_kind (bs : Bytes) : (s.payWrite bs).kind = s.kind := rfl
@[simp] theorem payWrite_rfnlen (bs : Bytes) : (s.payWrite bs).rfnlen = s.rfnlen := rfl
@[simp] theorem payWrite_hdr (bs : Bytes) : (s.payWrite bs).hdr = s.hdr := rfl
@[simp] theorem payWrite_status (bs : Bytes) : (s.payWrite bs).status = s.status := rfl
@[simp] theorem payWrite_pix (bs : Bytes) : (s.payWrite bs).pix = s.pix := rfl
@[simp] theorem payWrite_pay (bs : Bytes) : (s.payWrite bs).pay = s.pay.writeAll 0 bs := rfl
@[simp] theorem payWrite_resets (bs : Bytes) : (s.payWrite bs).resets = s.resets := rfl
@[simp] theorem payWrite_host (bs : Bytes) : (s.payWrite bs).host = s.host := rfl
@[simp] theorem payWrite_readData (bs : Bytes) : (s.payWrite bs).readData = s.readData := rfl

/-! ## beginCommand -/

@[simp] theorem beginCommand_width : (s.beginCommand).width = s.width := rfl
@[simp] theorem beginCommand_height : (s.beginCommand).height = s.height := rfl
@[simp] theorem beginCommand_method : (s.beginCommand).method = s.method := rfl
@[simp] theorem beginCommand_info : (s.beginCommand).info = s.info := rfl
@[simp] theorem beginCommand_fnlen : (s.beginCommand).fnlen = s.fnlen := rfl
@[simp] theorem beginCommand_plen : (s.beginCommand).plen = s.plen := rfl
@[simp] theorem beginCommand_floor : (s.beginCommand).floor = s.floor := rfl
@[simp] theorem beginCommand_blen : (s.beginCommand).blen = s.blen := rfl
@[simp] theorem beginCommand_fname : (s.beginCommand).fname = s.fname := rfl
@[simp] theorem beginCommand_result : (s.beginCommand).result = s.result := rfl
@[simp] theorem beginCommand_req : (s.beginCommand).req = s.req := rfl
@[simp] theorem beginCommand_avail : (s.beginCommand).avail = s.avail := rfl
@[simp] theorem beginCommand_rlen : (s.beginCommand).rlen = s.rlen := rfl
@[simp] theorem beginCommand_kind : (s.beginCommand).kind = s.kind := rfl
@[simp] theorem beginCommand_rfnlen : (s.beginCommand).rfnlen = s.rfnlen := rfl
@[simp] theorem beginCommand_hdr : (s.beginCommand).hdr = s.hdr := rfl
@[simp] theorem beginCommand_status : (s.beginCommand).status = statusStarted := rfl
@[simp] theorem beginCommand_pix : (s.beginCommand).pix = s.pix := rfl
@[simp] theorem beginCommand_pay : (s.beginCommand).pay = s.pay := rfl
@[simp] theorem beginCommand_resets : (s.beginCommand).resets = s.resets := rfl
@[simp] theorem beginCommand_host : (s.beginCommand).host = s.host := rfl
@[simp] theorem beginCommand_readData : (s.beginCommand).readData = s.readData := rfl

/-! ## complete -/

@[simp] theorem complete_width (e : Bool) : (s.complete e).width = s.width := rfl
@[simp] theorem complete_height (e : Bool) : (s.complete e).height = s.height := rfl
@[simp] theorem complete_method (e : Bool) : (s.complete e).method = s.method := rfl
@[simp] theorem complete_info (e : Bool) : (s.complete e).info = s.info := rfl
@[simp] theorem complete_fnlen (e : Bool) : (s.complete e).fnlen = s.fnlen := rfl
@[simp] theorem complete_plen (e : Bool) : (s.complete e).plen = s.plen := rfl
@[simp] theorem complete_floor (e : Bool) : (s.complete e).floor = s.floor := rfl
@[simp] theorem complete_blen (e : Bool) : (s.complete e).blen = s.blen := rfl
@[simp] theorem complete_fname (e : Bool) : (s.complete e).fname = s.fname := rfl
@[simp] theorem complete_result (e : Bool) : (s.complete e).result = s.result := rfl
@[simp] theorem complete_req (e : Bool) : (s.complete e).req = s.req := rfl
@[simp] theorem complete_avail (e : Bool) : (s.complete e).avail = s.avail := rfl
@[simp] theorem complete_rlen (e : Bool) : (s.complete e).rlen = s.rlen := rfl
@[simp] theorem complete_kind (e : Bool) : (s.complete e).kind = s.kind := rfl
@[simp] theorem complete_rfnlen (e : Bool) : (s.complete e).rfnlen = s.rfnlen := rfl
@[simp] theorem complete_hdr (e : Bool) : (s.complete e).hdr = s.hdr := rfl
@[simp] theorem complete_status (e : Bool) : (s.complete e).status = statusCompleted e := rfl
@[simp] theorem complete_pix (e : Bool) : (s.complete e).pix = s.pix := rfl
@[simp] theorem complete_pay (e : Bool) : (s.complete e).pay = s.pay := rfl
@[simp] theorem complete_resets (e : Bool) : (s.complete e).resets = s.resets := rfl
@[simp] theorem complete_host (e : Bool) : (s.complete e).host = s.host := rfl
@[simp] theorem complete_readData (e : Bool) : (s.complete e).readData = s.readData := rfl

/-! ## raise -/

@[simp] theorem raise_width (e : ErrorKind) : (s.raise e).width = s.width := rfl
@[simp] theorem raise_height (e : ErrorKind) : (s.raise e).height = s.height := rfl
@[simp] theorem raise_method (e : ErrorKind) : (s.raise e).method = s.method := rfl
@[simp] theorem raise_info (e : ErrorKind) : (s.raise e).info = s.info := rfl
@[simp] theorem raise_fnlen (e : ErrorKind) : (s.raise e).fnlen = s.fnlen := rfl
@[simp] theorem raise_plen (e : ErrorKind) : (s.raise e).plen = s.plen := rfl
@[simp] theorem raise_floor (e : ErrorKind) : (s.raise e).floor = s.floor := rfl
@[simp] theorem raise_blen (e : ErrorKind) : (s.raise e).blen = s.blen := rfl
@[simp] theorem raise_fname (e : ErrorKind) : (s.raise e).fname = s.fname := rfl
@[simp] theorem raise_result (e : ErrorKind) : (s.raise e).result = s.result := rfl
@[simp] theorem raise_req (e : ErrorKind) : (s.raise e).req = s.req := rfl
@[simp] theorem raise_avail (e : ErrorKind) : (s.raise e).avail = s.avail := rfl
@[simp] theorem raise_rlen (e : ErrorKind) : (s.raise e).rlen = s.rlen := rfl
@[simp] theorem raise_kind (e : ErrorKind) : (s.raise e).kind = s.kind := rfl
@[simp] theorem raise_rfnlen (e : ErrorKind) : (s.raise e).rfnlen = s.rfnlen := rfl
@[simp] theorem raise_hdr (e : ErrorKind) : (s.raise e).hdr = s.hdr := rfl
@[simp] theorem raise_status (e : ErrorKind) : (s.raise e).status = statusRaised e := rfl
@[simp] theorem raise_pix (e : ErrorKind) : (s.raise e).pix = s.pix := rfl
@[simp] theorem raise_pay (e : ErrorKind) : (s.raise e).pay = s.pay := rfl
@[simp] theorem raise_resets (e : ErrorKind) : (s.raise e).resets = s.resets := rfl
@[simp] theorem raise_host (e : ErrorKind) : (s.raise e).host = s.host := rfl
@[simp] theorem raise_readData (e : ErrorKind) : (s.raise e).readData = s.readData := rfl

/-! ## recordCapacity -/

@[simp] theorem recordCapacity_width (l a : Nat) : (s.recordCapacity l a).width = s.width := rfl
@[simp] theorem recordCapacity_height (l a : Nat) : (s.recordCapacity l a).height = s.height := rfl
@[simp] theorem recordCapacity_method (l a : Nat) : (s.recordCapacity l a).method = s.method := rfl
@[simp] theorem recordCapacity_info (l a : Nat) : (s.recordCapacity l a).info = s.info := rfl
@[simp] theorem recordCapacity_fnlen (l a : Nat) : (s.recordCapacity l a).fnlen = s.fnlen := rfl
@[simp] theorem recordCapacity_plen (l a : Nat) : (s.recordCapacity l a).plen = s.plen := rfl
@[simp] theorem recordCapacity_floor (l a : Nat) : (s.recordCapacity l a).floor = s.floor := rfl
@[simp] theorem recordCapacity_blen (l a : Nat) : (s.recordCapacity l a).blen = s.blen := rfl
@[simp] theorem recordCapacity_fname (l a : Nat) : (s.recordCapacity l a).fname = s.fname := rfl
@[simp] theorem recordCapacity_result (l a : Nat) : (s.recordCapacity l a).result = s.result := rfl
@[simp] theorem recordCapacity_req (l a : Nat) : (s.recordCapacity l a).req = BitVec.ofNat 36 l := rfl
@[simp] theorem recordCapacity_avail (l a : Nat) : (s.recordCapacity l a).avail = BitVec.ofNat 32 a := rfl
@[simp] theorem recordCapacity_rlen (l a : Nat) : (s.recordCapacity l a).rlen = s.rlen := rfl
@[simp] theorem recordCapacity_kind (l a : Nat) : (s.recordCapacity l a).kind = s.kind := rfl
@[simp] theorem recordCapacity_rfnlen (l a : Nat) : (s.recordCapacity l a).rfnlen = s.rfnlen := rfl
@[simp] theorem recordCapacity_hdr (l a : Nat) : (s.recordCapacity l a).hdr = s.hdr := rfl
@[simp] theorem recordCapacity_status (l a : Nat) : (s.recordCapacity l a).status = s.status := rfl
@[simp] theorem recordCapacity_pix (l a : Nat) : (s.recordCapacity l a).pix = s.pix := rfl
@[simp] theorem recordCapacity_pay (l a : Nat) : (s.recordCapacity l a).pay = s.pay := rfl
@[simp] theorem recordCapacity_resets (l a : Nat) : (s.recordCapacity l a).resets = s.resets := rfl
@[simp] theorem recordCapacity_host (l a : Nat) : (s.recordCapacity l a).host = s.host := rfl
@[simp] theorem recordCapacity_readData (l a : Nat) : (s.recordCapacity l a).readData = s.readData := rfl

/-! ## extractResults -/

@[simp] theorem extractResults_width (h : Header) (len : Nat) (p : Bytes) : (s.extractResults h len p).width = s.width := rfl
@[simp] theorem extractResults_height (h : Header) (len : Nat) (p : Bytes) : (s.extractResults h len p).height = s.height := rfl
@[simp] theorem extractResults_method (h : Header) (len : Nat) (p : Bytes) : (s.extractResults h len p).method = s.method := rfl
@[simp] theorem extractResults_info (h : Header) (len : Nat) (p : Bytes) : (s.extractResults h len p).info = s.info := rfl
@[simp] theorem extractResults_fnlen (h : Header) (len : Nat) (p : Bytes) : (s.extractResults h len p).fnlen = s.fnlen := rfl
@[simp] theorem extractResults_plen (h : Header) (len : Nat) (p : Bytes) : (s.extractResults h len p).plen = s.plen := rfl
@[simp] theorem extractResults_floor (h : Header) (len : Nat) (p : Bytes) : (s.extractResults h len p).floor = s.floor := rfl
@[simp] theorem extractResults_blen (h : Header) (len : Nat) (p : Bytes) : (s.extractResults h len p).blen = s.blen := rfl
@[simp] theorem extractResults_fname (h : Header) (len : Nat) (p : Bytes) : (s.extractResults h len p).fname = s.fname := rfl
@[simp] theorem extractResults_result (h : Header) (len : Nat) (p : Bytes) : (s.extractResults h len p).result = s.result := rfl
@[simp] theorem extractResults_req (h : Header) (len : Nat) (p : Bytes) : (s.extractResults h len p).req = s.req := rfl
@[simp] theorem extractResults_avail (h : Header) (len : Nat) (p : Bytes) : (s.extractResults h len p).avail = s.avail := rfl
@[simp] theorem extractResults_rlen (h : Header) (len : Nat) (p : Bytes) : (s.extractResults h len p).rlen = BitVec.ofNat 32 len := rfl
@[simp] theorem extractResults_kind (h : Header) (len : Nat) (p : Bytes) : (s.extractResults h len p).kind = h.info := rfl
@[simp] theorem extractResults_rfnlen (h : Header) (len : Nat) (p : Bytes) : (s.extractResults h len p).rfnlen = if h.info = 1#1 then BitVec.ofNat 7 (fnameRecover h.fname).length else 0#7 := rfl
@[simp] theorem extractResults_hdr (h : Header) (len : Nat) (p : Bytes) : (s.extractResults h len p).hdr = h := rfl
@[simp] theorem extractResults_status (h : Header) (len : Nat) (p : Bytes) : (s.extractResults h len p).status = s.status := rfl
@[simp] theorem extractResults_pix (h : Header) (len : Nat) (p : Bytes) : (s.extractResults h len p).pix = s.pix := rfl
@[simp] theorem extractResults_pay (h : Header) (len : Nat) (p : Bytes) : (s.extractResults h len p).pay = s.pay.writeAll 0 p := rfl
@[simp] theorem extractResults_resets (h : Header) (len : Nat) (p : Bytes) : (s.extractResults h len p).resets = s.resets := rfl
@[simp] theorem extractResults_host (h : Header) (len : Nat) (p : Bytes) : (s.extractResults h len p).host = s.host := rfl
@[simp] theorem extractResults_readData (h : Header) (len : Nat) (p : Bytes) : (s.extractResults h len p).readData = s.readData := rfl

/-! ## answerRead -/

@[simp] theorem answerRead_width (v : Nat) : (s.answerRead v).width = s.width := rfl
@[simp] theorem answerRead_height (v : Nat) : (s.answerRead v).height = s.height := rfl
@[simp] theorem answerRead_method (v : Nat) : (s.answerRead v).method = s.method := rfl
@[simp] theorem answerRead_info (v : Nat) : (s.answerRead v).info = s.info := rfl
@[simp] theorem answerRead_fnlen (v : Nat) : (s.answerRead v).fnlen = s.fnlen := rfl
@[simp] theorem answerRead_plen (v : Nat) : (s.answerRead v).plen = s.plen := rfl
@[simp] theorem answerRead_floor (v : Nat) : (s.answerRead v).floor = s.floor := rfl
@[simp] theorem answerRead_blen (v : Nat) : (s.answerRead v).blen = s.blen := rfl
@[simp] theorem answerRead_fname (v : Nat) : (s.answerRead v).fname = s.fname := rfl
@[simp] theorem answerRead_result (v : Nat) : (s.answerRead v).result = s.result := rfl
@[simp] theorem answerRead_req (v : Nat) : (s.answerRead v).req = s.req := rfl
@[simp] theorem answerRead_avail (v : Nat) : (s.answerRead v).avail = s.avail := rfl
@[simp] theorem answerRead_rlen (v : Nat) : (s.answerRead v).rlen = s.rlen := rfl
@[simp] theorem answerRead_kind (v : Nat) : (s.answerRead v).kind = s.kind := rfl
@[simp] theorem answerRead_rfnlen (v : Nat) : (s.answerRead v).rfnlen = s.rfnlen := rfl
@[simp] theorem answerRead_hdr (v : Nat) : (s.answerRead v).hdr = s.hdr := rfl
@[simp] theorem answerRead_status (v : Nat) : (s.answerRead v).status = s.status := rfl
@[simp] theorem answerRead_pix (v : Nat) : (s.answerRead v).pix = s.pix := rfl
@[simp] theorem answerRead_pay (v : Nat) : (s.answerRead v).pay = s.pay := rfl
@[simp] theorem answerRead_resets (v : Nat) : (s.answerRead v).resets = s.resets := rfl
@[simp] theorem answerRead_host (v : Nat) : (s.answerRead v).host = s.host := rfl
@[simp] theorem answerRead_readData (v : Nat) : (s.answerRead v).readData = BitVec.ofNat 64 v := rfl

/-! ## writeBits and writeHeader: only PIX changes -/

@[simp] theorem writeBits_width (S : List Nat) (xs : Bits) : (s.writeBits S xs).width = s.width := by
  induction S generalizing s xs with
  | nil => cases xs <;> rfl
  | cons i is ih => cases xs with
    | nil => rfl
    | cons x xs => simp [State.writeBits, ih]

@[simp] theorem writeHeader_width (h : Header) : (s.writeHeader h).width = s.width := by simp [State.writeHeader]

@[simp] theorem writeBits_height (S : List Nat) (xs : Bits) : (s.writeBits S xs).height = s.height := by
  induction S generalizing s xs with
  | nil => cases xs <;> rfl
  | cons i is ih => cases xs with
    | nil => rfl
    | cons x xs => simp [State.writeBits, ih]

@[simp] theorem writeHeader_height (h : Header) : (s.writeHeader h).height = s.height := by simp [State.writeHeader]

@[simp] theorem writeBits_method (S : List Nat) (xs : Bits) : (s.writeBits S xs).method = s.method := by
  induction S generalizing s xs with
  | nil => cases xs <;> rfl
  | cons i is ih => cases xs with
    | nil => rfl
    | cons x xs => simp [State.writeBits, ih]

@[simp] theorem writeHeader_method (h : Header) : (s.writeHeader h).method = s.method := by simp [State.writeHeader]

@[simp] theorem writeBits_info (S : List Nat) (xs : Bits) : (s.writeBits S xs).info = s.info := by
  induction S generalizing s xs with
  | nil => cases xs <;> rfl
  | cons i is ih => cases xs with
    | nil => rfl
    | cons x xs => simp [State.writeBits, ih]

@[simp] theorem writeHeader_info (h : Header) : (s.writeHeader h).info = s.info := by simp [State.writeHeader]

@[simp] theorem writeBits_fnlen (S : List Nat) (xs : Bits) : (s.writeBits S xs).fnlen = s.fnlen := by
  induction S generalizing s xs with
  | nil => cases xs <;> rfl
  | cons i is ih => cases xs with
    | nil => rfl
    | cons x xs => simp [State.writeBits, ih]

@[simp] theorem writeHeader_fnlen (h : Header) : (s.writeHeader h).fnlen = s.fnlen := by simp [State.writeHeader]

@[simp] theorem writeBits_plen (S : List Nat) (xs : Bits) : (s.writeBits S xs).plen = s.plen := by
  induction S generalizing s xs with
  | nil => cases xs <;> rfl
  | cons i is ih => cases xs with
    | nil => rfl
    | cons x xs => simp [State.writeBits, ih]

@[simp] theorem writeHeader_plen (h : Header) : (s.writeHeader h).plen = s.plen := by simp [State.writeHeader]

@[simp] theorem writeBits_floor (S : List Nat) (xs : Bits) : (s.writeBits S xs).floor = s.floor := by
  induction S generalizing s xs with
  | nil => cases xs <;> rfl
  | cons i is ih => cases xs with
    | nil => rfl
    | cons x xs => simp [State.writeBits, ih]

@[simp] theorem writeHeader_floor (h : Header) : (s.writeHeader h).floor = s.floor := by simp [State.writeHeader]

@[simp] theorem writeBits_blen (S : List Nat) (xs : Bits) : (s.writeBits S xs).blen = s.blen := by
  induction S generalizing s xs with
  | nil => cases xs <;> rfl
  | cons i is ih => cases xs with
    | nil => rfl
    | cons x xs => simp [State.writeBits, ih]

@[simp] theorem writeHeader_blen (h : Header) : (s.writeHeader h).blen = s.blen := by simp [State.writeHeader]

@[simp] theorem writeBits_fname (S : List Nat) (xs : Bits) : (s.writeBits S xs).fname = s.fname := by
  induction S generalizing s xs with
  | nil => cases xs <;> rfl
  | cons i is ih => cases xs with
    | nil => rfl
    | cons x xs => simp [State.writeBits, ih]

@[simp] theorem writeHeader_fname (h : Header) : (s.writeHeader h).fname = s.fname := by simp [State.writeHeader]

@[simp] theorem writeBits_result (S : List Nat) (xs : Bits) : (s.writeBits S xs).result = s.result := by
  induction S generalizing s xs with
  | nil => cases xs <;> rfl
  | cons i is ih => cases xs with
    | nil => rfl
    | cons x xs => simp [State.writeBits, ih]

@[simp] theorem writeHeader_result (h : Header) : (s.writeHeader h).result = s.result := by simp [State.writeHeader]

@[simp] theorem writeBits_req (S : List Nat) (xs : Bits) : (s.writeBits S xs).req = s.req := by
  induction S generalizing s xs with
  | nil => cases xs <;> rfl
  | cons i is ih => cases xs with
    | nil => rfl
    | cons x xs => simp [State.writeBits, ih]

@[simp] theorem writeHeader_req (h : Header) : (s.writeHeader h).req = s.req := by simp [State.writeHeader]

@[simp] theorem writeBits_avail (S : List Nat) (xs : Bits) : (s.writeBits S xs).avail = s.avail := by
  induction S generalizing s xs with
  | nil => cases xs <;> rfl
  | cons i is ih => cases xs with
    | nil => rfl
    | cons x xs => simp [State.writeBits, ih]

@[simp] theorem writeHeader_avail (h : Header) : (s.writeHeader h).avail = s.avail := by simp [State.writeHeader]

@[simp] theorem writeBits_rlen (S : List Nat) (xs : Bits) : (s.writeBits S xs).rlen = s.rlen := by
  induction S generalizing s xs with
  | nil => cases xs <;> rfl
  | cons i is ih => cases xs with
    | nil => rfl
    | cons x xs => simp [State.writeBits, ih]

@[simp] theorem writeHeader_rlen (h : Header) : (s.writeHeader h).rlen = s.rlen := by simp [State.writeHeader]

@[simp] theorem writeBits_kind (S : List Nat) (xs : Bits) : (s.writeBits S xs).kind = s.kind := by
  induction S generalizing s xs with
  | nil => cases xs <;> rfl
  | cons i is ih => cases xs with
    | nil => rfl
    | cons x xs => simp [State.writeBits, ih]

@[simp] theorem writeHeader_kind (h : Header) : (s.writeHeader h).kind = s.kind := by simp [State.writeHeader]

@[simp] theorem writeBits_rfnlen (S : List Nat) (xs : Bits) : (s.writeBits S xs).rfnlen = s.rfnlen := by
  induction S generalizing s xs with
  | nil => cases xs <;> rfl
  | cons i is ih => cases xs with
    | nil => rfl
    | cons x xs => simp [State.writeBits, ih]

@[simp] theorem writeHeader_rfnlen (h : Header) : (s.writeHeader h).rfnlen = s.rfnlen := by simp [State.writeHeader]

@[simp] theorem writeBits_hdr (S : List Nat) (xs : Bits) : (s.writeBits S xs).hdr = s.hdr := by
  induction S generalizing s xs with
  | nil => cases xs <;> rfl
  | cons i is ih => cases xs with
    | nil => rfl
    | cons x xs => simp [State.writeBits, ih]

@[simp] theorem writeHeader_hdr (h : Header) : (s.writeHeader h).hdr = s.hdr := by simp [State.writeHeader]

@[simp] theorem writeBits_status (S : List Nat) (xs : Bits) : (s.writeBits S xs).status = s.status := by
  induction S generalizing s xs with
  | nil => cases xs <;> rfl
  | cons i is ih => cases xs with
    | nil => rfl
    | cons x xs => simp [State.writeBits, ih]

@[simp] theorem writeHeader_status (h : Header) : (s.writeHeader h).status = s.status := by simp [State.writeHeader]

@[simp] theorem writeBits_pay (S : List Nat) (xs : Bits) : (s.writeBits S xs).pay = s.pay := by
  induction S generalizing s xs with
  | nil => cases xs <;> rfl
  | cons i is ih => cases xs with
    | nil => rfl
    | cons x xs => simp [State.writeBits, ih]

@[simp] theorem writeHeader_pay (h : Header) : (s.writeHeader h).pay = s.pay := by simp [State.writeHeader]

@[simp] theorem writeBits_resets (S : List Nat) (xs : Bits) : (s.writeBits S xs).resets = s.resets := by
  induction S generalizing s xs with
  | nil => cases xs <;> rfl
  | cons i is ih => cases xs with
    | nil => rfl
    | cons x xs => simp [State.writeBits, ih]

@[simp] theorem writeHeader_resets (h : Header) : (s.writeHeader h).resets = s.resets := by simp [State.writeHeader]

@[simp] theorem writeBits_host (S : List Nat) (xs : Bits) : (s.writeBits S xs).host = s.host := by
  induction S generalizing s xs with
  | nil => cases xs <;> rfl
  | cons i is ih => cases xs with
    | nil => rfl
    | cons x xs => simp [State.writeBits, ih]

@[simp] theorem writeHeader_host (h : Header) : (s.writeHeader h).host = s.host := by simp [State.writeHeader]

@[simp] theorem writeBits_readData (S : List Nat) (xs : Bits) : (s.writeBits S xs).readData = s.readData := by
  induction S generalizing s xs with
  | nil => cases xs <;> rfl
  | cons i is ih => cases xs with
    | nil => rfl
    | cons x xs => simp [State.writeBits, ih]

@[simp] theorem writeHeader_readData (h : Header) : (s.writeHeader h).readData = s.readData := by simp [State.writeHeader]

/-! ## Reads that depend on one memory only -/

@[simp] theorem setPixCell_payByte (idx : Nat) (c : Pixel) (i : Nat) : (s.setPixCell idx c).payByte i = s.payByte i := rfl
@[simp] theorem setPixCell_payRead (idx : Nat) (c : Pixel) (k : Nat) : (s.setPixCell idx c).payRead k = s.payRead k := rfl
@[simp] theorem setPixCell_payloadOperand (idx : Nat) (c : Pixel) : (s.setPixCell idx c).payloadOperand = s.payloadOperand := rfl
@[simp] theorem setPixCell_pixelCount (idx : Nat) (c : Pixel) : (s.setPixCell idx c).pixelCount = s.pixelCount := rfl
@[simp] theorem setPixCell_filtered (idx : Nat) (c : Pixel) (m : Method) (f : Nat) : (s.setPixCell idx c).filtered m f = s.filtered m f := rfl
@[simp] theorem setPixCell_methodOperand (idx : Nat) (c : Pixel) : (s.setPixCell idx c).methodOperand = s.methodOperand := rfl
@[simp] theorem setPixCell_nameOperand (idx : Nat) (c : Pixel) : (s.setPixCell idx c).nameOperand = s.nameOperand := rfl
@[simp] theorem setPixCell_embedHeader (idx : Nat) (c : Pixel) (i j : Nat) : (s.setPixCell idx c).embedHeader i j = s.embedHeader i j := rfl
@[simp] theorem pixSetBit_payByte (idx : Nat) (x : Bool) (i : Nat) : (s.pixSetBit idx x).payByte i = s.payByte i := rfl
@[simp] theorem pixSetBit_payRead (idx : Nat) (x : Bool) (k : Nat) : (s.pixSetBit idx x).payRead k = s.payRead k := rfl
@[simp] theorem pixSetBit_payloadOperand (idx : Nat) (x : Bool) : (s.pixSetBit idx x).payloadOperand = s.payloadOperand := rfl
@[simp] theorem pixSetBit_pixelCount (idx : Nat) (x : Bool) : (s.pixSetBit idx x).pixelCount = s.pixelCount := rfl
@[simp] theorem pixSetBit_filtered (idx : Nat) (x : Bool) (m : Method) (f : Nat) : (s.pixSetBit idx x).filtered m f = s.filtered m f := rfl
@[simp] theorem pixSetBit_methodOperand (idx : Nat) (x : Bool) : (s.pixSetBit idx x).methodOperand = s.methodOperand := rfl
@[simp] theorem pixSetBit_nameOperand (idx : Nat) (x : Bool) : (s.pixSetBit idx x).nameOperand = s.nameOperand := rfl
@[simp] theorem pixSetBit_embedHeader (idx : Nat) (x : Bool) (i j : Nat) : (s.pixSetBit idx x).embedHeader i j = s.embedHeader i j := rfl
@[simp] theorem payWrite_pixCell (bs : Bytes) (i : Nat) : (s.payWrite bs).pixCell i = s.pixCell i := rfl
@[simp] theorem payWrite_pixGetBit (bs : Bytes) (i : Nat) : (s.payWrite bs).pixGetBit i = s.pixGetBit i := rfl
@[simp] theorem payWrite_readBits (bs : Bytes) (S : List Nat) : (s.payWrite bs).readBits S = s.readBits S := rfl
@[simp] theorem payWrite_headerBits (bs : Bytes) : (s.payWrite bs).headerBits = s.headerBits := rfl
@[simp] theorem payWrite_pixelCount (bs : Bytes) : (s.payWrite bs).pixelCount = s.pixelCount := rfl
@[simp] theorem payWrite_filtered (bs : Bytes) (m : Method) (f : Nat) : (s.payWrite bs).filtered m f = s.filtered m f := rfl
@[simp] theorem payWrite_methodOperand (bs : Bytes) : (s.payWrite bs).methodOperand = s.methodOperand := rfl
@[simp] theorem payWrite_nameOperand (bs : Bytes) : (s.payWrite bs).nameOperand = s.nameOperand := rfl
@[simp] theorem payWrite_embedHeader (bs : Bytes) (i j : Nat) : (s.payWrite bs).embedHeader i j = s.embedHeader i j := rfl
@[simp] theorem beginCommand_pixCell (i : Nat) : (s.beginCommand).pixCell i = s.pixCell i := rfl
@[simp] theorem beginCommand_pixGetBit (i : Nat) : (s.beginCommand).pixGetBit i = s.pixGetBit i := rfl
@[simp] theorem beginCommand_readBits (S : List Nat) : (s.beginCommand).readBits S = s.readBits S := rfl
@[simp] theorem beginCommand_headerBits : (s.beginCommand).headerBits = s.headerBits := rfl
@[simp] theorem beginCommand_payByte (i : Nat) : (s.beginCommand).payByte i = s.payByte i := rfl
@[simp] theorem beginCommand_payRead (k : Nat) : (s.beginCommand).payRead k = s.payRead k := rfl
@[simp] theorem beginCommand_payloadOperand : (s.beginCommand).payloadOperand = s.payloadOperand := rfl
@[simp] theorem beginCommand_pixelCount : (s.beginCommand).pixelCount = s.pixelCount := rfl
@[simp] theorem beginCommand_filtered (m : Method) (f : Nat) : (s.beginCommand).filtered m f = s.filtered m f := rfl
@[simp] theorem beginCommand_methodOperand : (s.beginCommand).methodOperand = s.methodOperand := rfl
@[simp] theorem beginCommand_nameOperand : (s.beginCommand).nameOperand = s.nameOperand := rfl
@[simp] theorem beginCommand_embedHeader (i j : Nat) : (s.beginCommand).embedHeader i j = s.embedHeader i j := rfl
@[simp] theorem complete_pixCell (e : Bool) (i : Nat) : (s.complete e).pixCell i = s.pixCell i := rfl
@[simp] theorem complete_pixGetBit (e : Bool) (i : Nat) : (s.complete e).pixGetBit i = s.pixGetBit i := rfl
@[simp] theorem complete_readBits (e : Bool) (S : List Nat) : (s.complete e).readBits S = s.readBits S := rfl
@[simp] theorem complete_headerBits (e : Bool) : (s.complete e).headerBits = s.headerBits := rfl
@[simp] theorem complete_payByte (e : Bool) (i : Nat) : (s.complete e).payByte i = s.payByte i := rfl
@[simp] theorem complete_payRead (e : Bool) (k : Nat) : (s.complete e).payRead k = s.payRead k := rfl
@[simp] theorem complete_payloadOperand (e : Bool) : (s.complete e).payloadOperand = s.payloadOperand := rfl
@[simp] theorem complete_pixelCount (e : Bool) : (s.complete e).pixelCount = s.pixelCount := rfl
@[simp] theorem complete_filtered (e : Bool) (m : Method) (f : Nat) : (s.complete e).filtered m f = s.filtered m f := rfl
@[simp] theorem complete_methodOperand (e : Bool) : (s.complete e).methodOperand = s.methodOperand := rfl
@[simp] theorem complete_nameOperand (e : Bool) : (s.complete e).nameOperand = s.nameOperand := rfl
@[simp] theorem complete_embedHeader (e : Bool) (i j : Nat) : (s.complete e).embedHeader i j = s.embedHeader i j := rfl
@[simp] theorem raise_pixCell (e : ErrorKind) (i : Nat) : (s.raise e).pixCell i = s.pixCell i := rfl
@[simp] theorem raise_pixGetBit (e : ErrorKind) (i : Nat) : (s.raise e).pixGetBit i = s.pixGetBit i := rfl
@[simp] theorem raise_readBits (e : ErrorKind) (S : List Nat) : (s.raise e).readBits S = s.readBits S := rfl
@[simp] theorem raise_headerBits (e : ErrorKind) : (s.raise e).headerBits = s.headerBits := rfl
@[simp] theorem raise_payByte (e : ErrorKind) (i : Nat) : (s.raise e).payByte i = s.payByte i := rfl
@[simp] theorem raise_payRead (e : ErrorKind) (k : Nat) : (s.raise e).payRead k = s.payRead k := rfl
@[simp] theorem raise_payloadOperand (e : ErrorKind) : (s.raise e).payloadOperand = s.payloadOperand := rfl
@[simp] theorem raise_pixelCount (e : ErrorKind) : (s.raise e).pixelCount = s.pixelCount := rfl
@[simp] theorem raise_filtered (e : ErrorKind) (m : Method) (f : Nat) : (s.raise e).filtered m f = s.filtered m f := rfl
@[simp] theorem raise_methodOperand (e : ErrorKind) : (s.raise e).methodOperand = s.methodOperand := rfl
@[simp] theorem raise_nameOperand (e : ErrorKind) : (s.raise e).nameOperand = s.nameOperand := rfl
@[simp] theorem raise_embedHeader (e : ErrorKind) (i j : Nat) : (s.raise e).embedHeader i j = s.embedHeader i j := rfl
@[simp] theorem recordCapacity_pixCell (l a : Nat) (i : Nat) : (s.recordCapacity l a).pixCell i = s.pixCell i := rfl
@[simp] theorem recordCapacity_pixGetBit (l a : Nat) (i : Nat) : (s.recordCapacity l a).pixGetBit i = s.pixGetBit i := rfl
@[simp] theorem recordCapacity_readBits (l a : Nat) (S : List Nat) : (s.recordCapacity l a).readBits S = s.readBits S := rfl
@[simp] theorem recordCapacity_headerBits (l a : Nat) : (s.recordCapacity l a).headerBits = s.headerBits := rfl
@[simp] theorem recordCapacity_payByte (l a : Nat) (i : Nat) : (s.recordCapacity l a).payByte i = s.payByte i := rfl
@[simp] theorem recordCapacity_payRead (l a : Nat) (k : Nat) : (s.recordCapacity l a).payRead k = s.payRead k := rfl
@[simp] theorem recordCapacity_payloadOperand (l a : Nat) : (s.recordCapacity l a).payloadOperand = s.payloadOperand := rfl
@[simp] theorem recordCapacity_pixelCount (l a : Nat) : (s.recordCapacity l a).pixelCount = s.pixelCount := rfl
@[simp] theorem recordCapacity_filtered (l a : Nat) (m : Method) (f : Nat) : (s.recordCapacity l a).filtered m f = s.filtered m f := rfl
@[simp] theorem recordCapacity_methodOperand (l a : Nat) : (s.recordCapacity l a).methodOperand = s.methodOperand := rfl
@[simp] theorem recordCapacity_nameOperand (l a : Nat) : (s.recordCapacity l a).nameOperand = s.nameOperand := rfl
@[simp] theorem recordCapacity_embedHeader (l a : Nat) (i j : Nat) : (s.recordCapacity l a).embedHeader i j = s.embedHeader i j := rfl
@[simp] theorem extractResults_pixCell (h : Header) (len : Nat) (p : Bytes) (i : Nat) : (s.extractResults h len p).pixCell i = s.pixCell i := rfl
@[simp] theorem extractResults_pixGetBit (h : Header) (len : Nat) (p : Bytes) (i : Nat) : (s.extractResults h len p).pixGetBit i = s.pixGetBit i := rfl
@[simp] theorem extractResults_readBits (h : Header) (len : Nat) (p : Bytes) (S : List Nat) : (s.extractResults h len p).readBits S = s.readBits S := rfl
@[simp] theorem extractResults_headerBits (h : Header) (len : Nat) (p : Bytes) : (s.extractResults h len p).headerBits = s.headerBits := rfl
@[simp] theorem extractResults_pixelCount (h : Header) (len : Nat) (p : Bytes) : (s.extractResults h len p).pixelCount = s.pixelCount := rfl
@[simp] theorem extractResults_filtered (h : Header) (len : Nat) (p : Bytes) (m : Method) (f : Nat) : (s.extractResults h len p).filtered m f = s.filtered m f := rfl
@[simp] theorem extractResults_methodOperand (h : Header) (len : Nat) (p : Bytes) : (s.extractResults h len p).methodOperand = s.methodOperand := rfl
@[simp] theorem extractResults_nameOperand (h : Header) (len : Nat) (p : Bytes) : (s.extractResults h len p).nameOperand = s.nameOperand := rfl
@[simp] theorem extractResults_embedHeader (h : Header) (len : Nat) (p : Bytes) (i j : Nat) : (s.extractResults h len p).embedHeader i j = s.embedHeader i j := rfl
@[simp] theorem answerRead_pixCell (v : Nat) (i : Nat) : (s.answerRead v).pixCell i = s.pixCell i := rfl
@[simp] theorem answerRead_pixGetBit (v : Nat) (i : Nat) : (s.answerRead v).pixGetBit i = s.pixGetBit i := rfl
@[simp] theorem answerRead_readBits (v : Nat) (S : List Nat) : (s.answerRead v).readBits S = s.readBits S := rfl
@[simp] theorem answerRead_headerBits (v : Nat) : (s.answerRead v).headerBits = s.headerBits := rfl
@[simp] theorem answerRead_payByte (v : Nat) (i : Nat) : (s.answerRead v).payByte i = s.payByte i := rfl
@[simp] theorem answerRead_payRead (v : Nat) (k : Nat) : (s.answerRead v).payRead k = s.payRead k := rfl
@[simp] theorem answerRead_payloadOperand (v : Nat) : (s.answerRead v).payloadOperand = s.payloadOperand := rfl
@[simp] theorem answerRead_pixelCount (v : Nat) : (s.answerRead v).pixelCount = s.pixelCount := rfl
@[simp] theorem answerRead_filtered (v : Nat) (m : Method) (f : Nat) : (s.answerRead v).filtered m f = s.filtered m f := rfl
@[simp] theorem answerRead_methodOperand (v : Nat) : (s.answerRead v).methodOperand = s.methodOperand := rfl
@[simp] theorem answerRead_nameOperand (v : Nat) : (s.answerRead v).nameOperand = s.nameOperand := rfl
@[simp] theorem answerRead_embedHeader (v : Nat) (i j : Nat) : (s.answerRead v).embedHeader i j = s.embedHeader i j := rfl

@[simp] theorem writeBits_payByte (S : List Nat) (xs : Bits) (a : Nat) : (s.writeBits S xs).payByte a = s.payByte a := by
  simp [State.payByte]

@[simp] theorem writeBits_payRead (S : List Nat) (xs : Bits) (n : Nat) : (s.writeBits S xs).payRead n = s.payRead n := by
  simp [State.payRead, List.map_inj_left]

@[simp] theorem writeHeader_payByte (h : Header) (a : Nat) : (s.writeHeader h).payByte a = s.payByte a := by
  simp [State.writeHeader]

@[simp] theorem writeHeader_payRead (h : Header) (n : Nat) : (s.writeHeader h).payRead n = s.payRead n := by
  simp [State.writeHeader]

@[simp] theorem writeHeader_payloadOperand (h : Header) : (s.writeHeader h).payloadOperand = s.payloadOperand := by
  simp [State.payloadOperand]

@[simp] theorem writeHeader_pixelCount (h : Header) : (s.writeHeader h).pixelCount = s.pixelCount := by
  simp [State.pixelCount]

@[simp] theorem writeHeader_filtered (h : Header) (m : Method) (f : Nat) : (s.writeHeader h).filtered m f = s.filtered m f := by
  simp [State.filtered]

end Sys2Proof.Machine
end

