-- ==== Sys2Proof/Laws/Pixels.lean ====
section
/-! SUPPORT. What one cell, one bit and one byte read as after each shared operation on PIX and PAY. -/

namespace Sys2Proof.Machine

theorem pixCell_setPixCell (s : State) (i j : Nat) (c : Pixel) :
    (s.setPixCell i c).pixCell j = if j = i then c else s.pixCell j := by
  simp only [State.pixCell, setPixCell_pix, setPixCell_resets, lookup_write]
  split <;> simp

theorem getLsbD_setBlueLsb (b : Byte) (x : Bool) (i : Nat) :
    (setBlueLsb b x).getLsbD i = if i = 0 then x else b.getLsbD i := by
  have h : (setBlueLsb b x).getLsbD i = (if i < 1 then (BitVec.ofBool x).getLsbD i else (b.extractLsb' 1 7).getLsbD (i - 1)) :=
    BitVec.getLsbD_append
  rw [h]
  by_cases h0 : i = 0
  · subst h0
    cases x <;> rfl
  · rw [if_neg (by omega), if_neg h0, BitVec.getLsbD_extractLsb', show 1 + (i - 1) = i by omega]
    by_cases h8 : i < 8
    · simp [show i - 1 < 7 by omega]
    · simp [show ¬ i - 1 < 7 by omega, BitVec.getLsbD_of_ge b i (by omega)]

theorem setBlueLsb_lsb (b : Byte) (x : Bool) : (setBlueLsb b x).getLsbD 0 = x := by
  rw [getLsbD_setBlueLsb, if_pos rfl]

@[simp] theorem setBlueLsb_upper (b : Byte) (x : Bool) : (setBlueLsb b x).extractLsb' 1 7 = b.extractLsb' 1 7 := by
  apply BitVec.eq_of_getLsbD_eq
  intro i hi
  rw [BitVec.getLsbD_extractLsb', BitVec.getLsbD_extractLsb', getLsbD_setBlueLsb, if_neg (by omega)]

theorem pixCell_pixSetBit (s : State) (i j : Nat) (x : Bool) :
    (s.pixSetBit i x).pixCell j = if j = i then { s.pixCell i with b := setBlueLsb (s.pixCell i).b x } else s.pixCell j :=
  pixCell_setPixCell s i j _

theorem pixGetBit_pixSetBit (s : State) (i j : Nat) (x : Bool) :
    (s.pixSetBit i x).pixGetBit j = if j = i then x else s.pixGetBit j := by
  simp only [State.pixGetBit, pixCell_pixSetBit]
  split
  · exact setBlueLsb_lsb _ x
  · rfl

/-- `writeBits` touches only the indices it gets to. -/
theorem writeBits_pixCell_other (s : State) (S : List Nat) (xs : Bits) {j : Nat} (h : j ∉ S.take xs.length) :
    (s.writeBits S xs).pixCell j = s.pixCell j := by
  induction S generalizing s xs with
  | nil => cases xs <;> rfl
  | cons i is ih =>
    cases xs with
    | nil => rfl
    | cons x xs =>
      simp only [List.length_cons, List.take_succ_cons, List.mem_cons, not_or] at h
      rw [State.writeBits, ih _ _ h.2, pixCell_pixSetBit, if_neg h.1]

theorem writeBits_pixGetBit_other (s : State) (S : List Nat) (xs : Bits) {j : Nat} (h : j ∉ S.take xs.length) :
    (s.writeBits S xs).pixGetBit j = s.pixGetBit j := by
  simp only [State.pixGetBit, writeBits_pixCell_other s S xs h]

/-- `writeBits` keeps red, green and the upper seven bits of blue everywhere. -/
theorem writeBits_keeps_upper (s : State) (S : List Nat) (xs : Bits) (j : Nat) :
    ((s.writeBits S xs).pixCell j).r = (s.pixCell j).r ∧ ((s.writeBits S xs).pixCell j).g = (s.pixCell j).g ∧
    ((s.writeBits S xs).pixCell j).b.extractLsb' 1 7 = (s.pixCell j).b.extractLsb' 1 7 := by
  induction S generalizing s xs with
  | nil => cases xs <;> exact ⟨rfl, rfl, rfl⟩
  | cons i is ih =>
    cases xs with
    | nil => exact ⟨rfl, rfl, rfl⟩
    | cons x xs =>
      obtain ⟨h1, h2, h3⟩ := ih (s.pixSetBit i x) xs
      rw [State.writeBits, h1, h2, h3, pixCell_pixSetBit]
      split
      · next h => subst h; simp
      · exact ⟨rfl, rfl, rfl⟩

/-- Bit `k` reaches the `k`-th index. -/
theorem writeBits_pixGetBit (s : State) {S : List Nat} {xs : Bits} (hS : S.Nodup) {k : Nat} (hk : k < S.length)
    (hx : k < xs.length) : (s.writeBits S xs).pixGetBit S[k] = xs[k] := by
  induction S generalizing s xs k with
  | nil => cases hk
  | cons i is ih =>
    cases xs with
    | nil => cases hx
    | cons x xs =>
      rw [List.nodup_cons] at hS
      rw [State.writeBits]
      cases k with
      | zero =>
        have : i ∉ is.take xs.length := fun h => hS.1 (List.mem_of_mem_take h)
        simp only [List.getElem_cons_zero, writeBits_pixGetBit_other _ _ _ this, pixGetBit_pixSetBit, if_true]
      | succ k =>
        simp only [List.getElem_cons_succ]
        exact ih _ hS.2 (by simpa using hk) (by simpa using hx)

/-- Reading back what `writeBits` wrote. -/
theorem readBits_writeBits (s : State) {S : List Nat} {xs : Bits} (hS : S.Nodup) (h : xs.length ≤ S.length) :
    (s.writeBits S xs).readBits (S.take xs.length) = xs := by
  apply List.ext_getElem
  · simp [State.readBits, h]
  · intro k h1 h2
    simp only [State.readBits, List.getElem_map, List.getElem_take]
    exact writeBits_pixGetBit s hS (by omega) h2

/-- Reading elsewhere. -/
theorem readBits_writeBits_other (s : State) {S T : List Nat} (xs : Bits) (h : ∀ j ∈ T, j ∉ S) :
    (s.writeBits S xs).readBits T = s.readBits T := by
  refine List.map_congr_left (fun j hj => ?_)
  exact writeBits_pixGetBit_other s S xs (fun hm => h j hj (List.mem_of_mem_take hm))

theorem wf_pix_writeBits (s : State) {S : List Nat} (xs : Bits) (h : s.pix.wf = true) (hS : ∀ i ∈ S, i < 2 ^ 32) :
    (s.writeBits S xs).pix.wf = true := by
  induction S generalizing s xs with
  | nil => cases xs <;> exact h
  | cons i is ih =>
    cases xs with
    | nil => exact h
    | cons x xs =>
      refine ih (s.pixSetBit i x) xs ?_ (fun j hj => hS j (List.mem_cons_of_mem _ hj))
      exact wf_write _ h (hS i List.mem_cons_self)

theorem payByte_payWrite (s : State) (bs : Bytes) (a : Nat) :
    (s.payWrite bs).payByte a = if a < bs.length then bs.getD a 0#8 else s.payByte a := by
  simp only [State.payByte, payWrite_pay, payWrite_resets, lookup_writeAll, Nat.zero_le, true_and, Nat.zero_add, Nat.sub_zero]
  split
  · next h => simp [h]
  · rfl

theorem payRead_payWrite (s : State) (bs : Bytes) : (s.payWrite bs).payRead bs.length = bs := by
  apply List.ext_getElem
  · simp [State.payRead]
  · intro k h1 h2
    simp only [State.payRead, List.getElem_map, List.getElem_range, payByte_payWrite, if_pos h2]
    simp [h2]

@[simp] theorem length_payRead (s : State) (n : Nat) : (s.payRead n).length = n := by simp [State.payRead]

end Sys2Proof.Machine
end

