-- ==== Sys2Proof/Laws/Selector.lean ====
section
/-! SUPPORT. What the selector's sequences are, once, so that no proof unfolds them. -/

namespace Sys2Proof.Machine

theorem mem_eligibleIndices {W H : Nat} {m : Method} {idx : Nat} :
    idx ∈ eligibleIndices W H m ↔ idx < W * H ∧ elig W H m idx = true := by
  simp [eligibleIndices]

theorem mem_filteredIndices {W H : Nat} {m : Method} {f idx : Nat} :
    idx ∈ filteredIndices W H m f ↔ (idx < W * H ∧ elig W H m idx = true) ∧ f ≤ idx := by
  simp [filteredIndices, mem_eligibleIndices]

theorem eligibleIndices_ascending (W H : Nat) (m : Method) : (eligibleIndices W H m).Pairwise (· < ·) :=
  List.pairwise_lt_range.filter _

theorem filteredIndices_ascending (W H : Nat) (m : Method) (f : Nat) : (filteredIndices W H m f).Pairwise (· < ·) :=
  (eligibleIndices_ascending W H m).filter _

theorem filteredIndices_nodup (W H : Nat) (m : Method) (f : Nat) : (filteredIndices W H m f).Nodup :=
  (filteredIndices_ascending W H m f).imp (fun h => Nat.ne_of_lt h)

theorem length_filteredIndices_le (W H : Nat) (m : Method) (f : Nat) : (filteredIndices W H m f).length ≤ W * H := by
  refine (List.length_filter_le _ _).trans ((List.length_filter_le _ _).trans ?_)
  simp

/-- Raising the floor of a filtered sequence drops more. -/
theorem filteredIndices_of_le {W H : Nat} {m : Method} {f g : Nat} (h : f ≤ g) :
    filteredIndices W H m g = (filteredIndices W H m f).filter (fun idx => decide (g ≤ idx)) := by
  simp only [filteredIndices, List.filter_filter]
  refine List.filter_congr (fun idx _ => ?_)
  by_cases hg : g ≤ idx
  · simp [hg, h.trans hg]
  · simp [hg]

/-- The tail of a filtered sequence is the filtered sequence from above its head. -/
theorem filteredIndices_tail {W H : Nat} {m : Method} {f idx : Nat} {rest : List Nat}
    (h : filteredIndices W H m f = idx :: rest) : filteredIndices W H m (idx + 1) = rest := by
  have hf : f ≤ idx := (mem_filteredIndices.1 (h ▸ List.mem_cons_self)).2
  have hp := filteredIndices_ascending W H m f
  rw [filteredIndices_of_le (by omega : f ≤ idx + 1), h]
  rw [h, List.pairwise_cons] at hp
  rw [List.filter_cons_of_neg (by simp)]
  exact List.filter_eq_self.2 (fun j hj => by simpa using hp.1 j hj)

/-- The same sequence from its own head. -/
theorem filteredIndices_head {W H : Nat} {m : Method} {f idx : Nat} {rest : List Nat}
    (h : filteredIndices W H m f = idx :: rest) : filteredIndices W H m idx = idx :: rest := by
  have hf : f ≤ idx := (mem_filteredIndices.1 (h ▸ List.mem_cons_self)).2
  have hp := filteredIndices_ascending W H m f
  rw [filteredIndices_of_le hf, h]
  rw [h, List.pairwise_cons] at hp
  refine List.filter_eq_self.2 (fun j hj => ?_)
  rcases List.mem_cons.1 hj with rfl | hj
  · simp
  · simpa using (hp.1 j hj).le

/-- `N < 2^32` (spec/00_scope.md R13 a). -/
theorem pixelCount_lt (s : State) : s.pixelCount ≤ 4294836225 := by
  have h1 : s.width.toNat ≤ 65535 := by have := s.width.isLt; omega
  have h2 : s.height.toNat ≤ 65535 := by have := s.height.isLt; omega
  exact Nat.mul_le_mul h1 h2

theorem length_filtered_le (s : State) (m : Method) (f : Nat) : (s.filtered m f).length ≤ s.pixelCount :=
  length_filteredIndices_le _ _ _ _

theorem mem_filtered {s : State} {m : Method} {f idx : Nat} :
    idx ∈ s.filtered m f ↔ (idx < s.pixelCount ∧ elig s.width.toNat s.height.toNat m idx = true) ∧ f ≤ idx :=
  mem_filteredIndices

theorem filtered_nodup (s : State) (m : Method) (f : Nat) : (s.filtered m f).Nodup := filteredIndices_nodup _ _ _ _

theorem mem_headerIndices {idx : Nat} : idx ∈ headerIndices ↔ idx < 579 := by
  rw [headerIndices, List.mem_range, Config.hdrBits]

theorem headerIndices_nodup : headerIndices.Nodup := List.nodup_range

@[simp] theorem length_headerIndices : headerIndices.length = 579 := by rw [headerIndices, List.length_range, Config.hdrBits]

/-- The METHOD operand is a method exactly when it is that method's code. -/
theorem methodOfOperand_ok {m : BitVec 8} {k : Method} : methodOfOperand m = .ok k ↔ m.toNat = methodCode k := by
  unfold methodOfOperand
  split <;> cases k <;> simp_all [methodCode]

/-- The METHOD operand is no method exactly above 3. -/
theorem methodOfOperand_error {m : BitVec 8} {e : ErrorKind} :
    methodOfOperand m = .error e ↔ 3 < m.toNat ∧ e = .unsupportedMethod := by
  unfold methodOfOperand
  split
  · simp; omega
  · simp; omega
  · simp; omega
  · simp; omega
  · next h0 h1 h2 h3 =>
    have : 3 < m.toNat := by
      rcases Nat.lt_or_ge 3 m.toNat with h | h
      · exact h
      · have : m.toNat = 0 ∨ m.toNat = 1 ∨ m.toNat = 2 ∨ m.toNat = 3 := by omega
        rcases this with h | h | h | h <;> contradiction
    simp [this, eq_comm]

end Sys2Proof.Machine
end

