-- ==== Sys2Proof/Tests/Slice0.lean ====
section
/-! SUPPORT. Tests. Every expected value is of spec/95_test_vectors.md (section named in the docstring) or of the rule named there. The
theorems named test_witness_<Statement> show inputs that meet the hypotheses of that statement, clause by clause. -/

namespace Sys2Proof.Tests

open Sys2Proof.Machine

/-! ## Small states -/

/-- The reset state with dimensions and a method; no pixel written. -/
def image (w h : Nat) (m : BitVec 8) : State :=
  { State.reset with width := BitVec.ofNat 16 w, height := BitVec.ofNat 16 h, method := m }

/-- An image whose pixels are given by a function. -/
def painted (w h : Nat) (m : BitVec 8) (f : Nat → Pixel) : State :=
  { image w h m with pix := (List.range (w * h)).map (fun i => (i, f i)) }

/-- A black image whose data bits are 1 at the listed pixels. -/
def marked (w h : Nat) (m : BitVec 8) (ones : List Nat) : State :=
  painted w h m (fun i => if i ∈ ones then ⟨0#8, 0#8, 1#8⟩ else ⟨0#8, 0#8, 0#8⟩)

/-- The state of a next outcome. -/
def after : Result → State
  | .next t => t
  | _ => State.reset

/-- Whether an outcome is a next state. -/
def isNext : Result → Bool
  | .next _ => true
  | _ => false

theorem eq_after {r : Result} (h : isNext r = true) : r = .next (after r) := by
  cases r <;> first | rfl | cases h

/-- A state whose STATUS is not 0 is not the default of `after`. -/
theorem eq_after_of_status {r : Result} {st : BitVec 12} (h : (after r).status = st) (h0 : st ≠ 0#12) : r = .next (after r) := by
  cases r with
  | next t => rfl
  | _ => exact absurd h.symm h0

/-- The ones of the header `(0, 0, zeros, 579, 618)` (2.2). -/
def headerOnes : List Nat := [537, 540, 545, 546, 569, 572, 573, 575, 577]

/-- The 5x4 image of 2.5: every pixel `(7, 7, 6)`, METHOD = 3, FLOOR = 6, PLEN = 1, `PAY[0] = 0xA5`. -/
def border54 : State :=
  { painted 5 4 3#8 (fun _ => ⟨7#8, 7#8, 6#8⟩) with floor := 6#32, plen := 1#64, pay := [(0, 0xA5#8)] }

theorem lookup_map {f : Nat → Pixel} {l : List Nat} {i : Nat} (h : i ∈ l) :
    Memory.lookup (l.map (fun i => (i, f i))) i = some (f i) := by
  induction l with
  | nil => cases h
  | cons k l ih =>
    rw [List.map_cons, Memory.lookup]
    split
    · next hk => rw [hk]
    · next hk => exact ih ((List.mem_cons.1 h).resolve_left (Ne.symm hk))

theorem pixCell_of_pix {s : State} {n : Nat} {f : Nat → Pixel} (hs : s.pix = (List.range n).map (fun i => (i, f i))) {i : Nat}
    (hi : i < n) : s.pixCell i = f i := by
  rw [State.pixCell, hs, lookup_map (List.mem_range.2 hi), Option.getD_some]

theorem painted_pixCell (w h : Nat) (m : BitVec 8) (f : Nat → Pixel) {i : Nat} (hi : i < w * h) :
    (painted w h m f).pixCell i = f i := pixCell_of_pix rfl hi

theorem marked_pixGetBit (w h : Nat) (m : BitVec 8) (ones : List Nat) {i : Nat} (hi : i < w * h) :
    (marked w h m ones).pixGetBit i = decide (i ∈ ones) := by
  rw [State.pixGetBit, marked, painted_pixCell w h m _ hi]
  by_cases h : i ∈ ones
  · rw [if_pos h, decide_eq_true h]; rfl
  · rw [if_neg h, decide_eq_false h]; rfl

theorem marked_headerBits {w h : Nat} (m : BitVec 8) {ones : List Nat} (hN : 579 ≤ w * h) :
    (List.range 579).map (marked w h m ones).pixGetBit = (List.range 579).map (fun i => decide (i ∈ ones)) :=
  List.map_congr_left (fun _ hi => marked_pixGetBit w h m ones (Nat.lt_of_lt_of_le (List.mem_range.1 hi) hN))

/-! ## Encoding -/

/-- R92: the words written out bit by bit, for every command. -/
theorem test_decode_words :
    decode 0b00000001#8 = .ok .embed ∧ decode 0b00000010#8 = .ok .extract ∧ decode 0b00000011#8 = .ok .hdrwr ∧
    decode 0b00000100#8 = .ok .hdrrd ∧ decode 0b00000101#8 = .ok .selnext ∧ decode 0b00000110#8 = .ok .selcnt ∧
    decode 0b00000111#8 = .ok .wrbits ∧ decode 0b00001000#8 = .ok .rdbits := by decide

/-- R93: reserved words. -/
theorem test_decode_reserved :
    decode 0x00#8 = .error (.reservedOpcode 0x00#8) ∧ decode 0x09#8 = .error (.reservedOpcode 0x09#8) ∧
    decode 0xFF#8 = .error (.reservedOpcode 0xFF#8) := by decide

/-- The table's words through the interface of the host. -/
theorem test_decodeTableWord :
    [1, 2, 3, 4, 5, 6, 7, 8].map (decodeTableWord 8) =
      [some .embed, some .extract, some .hdrwr, some .hdrrd, some .selnext, some .selcnt, some .wrbits, some .rdbits] ∧
    decodeTableWord 8 0 = none ∧ decodeTableWord 8 9 = none := by decide

/-! ## Well-formedness smoke: what each check refuses -/

theorem test_opcodeAssigned_refuses :
    opcodeAssigned 0x00#8 = false ∧ opcodeAssigned 0x09#8 = false ∧ opcodeAssigned 0xFF#8 = false ∧
    opcodeAssigned 0x01#8 = true ∧ opcodeAssigned 0x08#8 = true := by decide

theorem test_hostAccess_wellFormed_refuses :
    (HostAccess.write 8#8 0).wellFormed = false ∧ (HostAccess.read 28#8).wellFormed = false ∧
    (HostAccess.writeElem 0#8 63 0).wellFormed = false ∧ (HostAccess.readElem 33#8 0).wellFormed = false ∧
    (HostAccess.writeElem 0#8 64 0).wellFormed = true ∧ (HostAccess.write 9#8 0).wellFormed = true := by decide

theorem test_stmt_wellFormed_refuses :
    (Stmt.wr .fname 0).wellFormed = false ∧ (Stmt.rd .hdrFname).wellFormed = false ∧
    (Stmt.wrElem .width 0 0).wellFormed = false ∧ (Stmt.wrElem .fname 64 0).wellFormed = true ∧
    (Stmt.pixfill 0#32 0x100000001 ⟨0#8, 0#8, 0#8⟩).wellFormed = false ∧
    (Stmt.pixfill 0#32 0x100000000 ⟨0#8, 0#8, 0#8⟩).wellFormed = true := by decide

/-- A claim about an array register is refused and never holds; one about CMD, which reads 0, is not. -/
theorem test_expect_wellFormed_refuses :
    (Expect.reg .fname 0).wellFormed = false ∧ (Expect.reg .fname 0).holds State.reset = false ∧
    (Expect.reg .cmd 0).wellFormed = true ∧ (Expect.reg .cmd 0).holds State.reset = true := by decide

/-- R101: a fill whose exclusive end is past the last cell reaches that cell. -/
theorem test_expand_pixfill :
    expandStmt (.pixfill 0xFFFFFFFE#32 0x100000000 ⟨1#8, 2#8, 3#8⟩) =
      [.pixWrite 0xFFFFFFFE#32 0x010203#24, .pixWrite 0xFFFFFFFF#32 0x010203#24] ∧
    expandStmt (.pixfill 5#32 5 ⟨0#8, 0#8, 0#8⟩) = [] := by decide

/-- 3, P2: the encoding of `hidefile 3, "a.txt"`. -/
theorem test_expand_hidefile :
    expandStmt (.hidefile 3 [0x61#8, 0x2E#8, 0x74#8, 0x78#8, 0x74#8]) =
      [.write 2#8 3, .write 3#8 1, .writeElem 8#8 0 0x61, .writeElem 8#8 1 0x2E, .writeElem 8#8 2 0x74,
        .writeElem 8#8 3 0x78, .writeElem 8#8 4 0x74, .write 4#8 5, .write 32#8 1] := by decide

/-! ## Steps from reset (2.7) -/

/-- Each word of the table is the first to run after reset: with no image EMBED and HDRWR end in ImageTooSmall, EXTRACT and HDRRD in
TruncatedHeader (R23); the selector finds nothing; WRBITS and RDBITS of nothing succeed. -/
theorem test_step_after_reset :
    [1, 2, 3, 4, 5, 6, 7, 8].map (fun w => (after (step (State.reset.withFetchWord 8 w))).status) =
      [0x206#12, 0x506#12, 0x206#12, 0x506#12, 0x00A#12, 0x002#12, 0x002#12, 0x002#12] := by decide

/-- 2.7: reserved words, and `0x101` as `0x01`. -/
theorem test_step_reserved :
    [0x00, 0x09, 0xFF, 0x101].map (fun v => (after (step { State.reset with host := [.write 32#8 v] })).status) =
      [0x806#12, 0x806#12, 0x806#12, 0x206#12] := by decide

theorem test_reset_memory_wf : State.reset.pix.wf = true ∧ State.reset.pay.wf = true ∧ State.reset.status = 0x000#12 := by decide

/-- R22: HDR_METHOD keeps two bits, and reads back. -/
theorem test_write_hdr_method :
    (after (step { State.reset with host := [.write 25#8 6] })).hdr.method = 2#2 ∧
    (after (step { State.reset with hdr := { Header.reset with method := 2#2 }, host := [.read 25#8] })).readData = 2#64 := by decide

/-! ## Codecs (2.1, 2.2, 2.4) -/

theorem test_bytesToBits : bytesToBits [0xA5#8] = [true, false, true, false, false, true, false, true] := by decide

theorem test_bitsToBytes :
    bitsToBytes [true, false, false, false, false, false, false, false, false, false, false, false, false, false, false, true] =
      .ok [0x80#8, 0x01#8] ∧ bitsToBytes (List.replicate 9 true) = .error .misalignedBits := by decide

theorem test_be32 : be32 0x01020304#32 = [0x01#8, 0x02#8, 0x03#8, 0x04#8] := by decide

theorem test_frameBits :
    (List.range 48).filter (fun i => (frameBits 2#32 [0x00#8, 0xFF#8]).getD i false) = [30, 40, 41, 42, 43, 44, 45, 46, 47] := by
  decide

/-- The header of 3, P2: `(1, 3, fname64("a.txt"), 599, 1520)`. -/
def aTxtHeader : Header :=
  { info := 1#1, method := 3#2, fname := fname64 [0x61#8, 0x2E#8, 0x74#8, 0x78#8, 0x74#8], first := 599#32, last := 1520#32 }

/-- 2.2, last row of the first table. -/
theorem test_hdrEncode :
    (List.range 579).filter (fun i => (hdrEncode aTxtHeader).getD i false) =
    [0, 1, 2, 4, 5, 10, 13, 15, 16, 17, 20, 21, 22, 24, 28, 29, 30, 31, 36, 37, 38, 40, 537, 540, 542, 544, 545, 546, 568,
      570, 571, 572, 573, 574] := by decide +kernel

/-- 2.2, decoding of 579 ones. -/
theorem test_hdrDecode : hdrDecode (List.replicate 579 true) =
    .ok { info := 1#1, method := 3#2, fname := Vector.replicate 64 0xFF#8, first := 0xFFFFFFFF#32, last := 0xFFFFFFFF#32 } := by
  decide +kernel

theorem test_hdrDecode_zeros : hdrDecode (List.replicate 579 false) = .ok Header.reset := by decide +kernel

theorem test_fnameRecover :
    fnameRecover (fname64 [0x61#8, 0x00#8, 0x62#8]) = [0x61#8] ∧ (fnameRecover (Vector.replicate 64 0x41#8)).length = 64 := by
  decide +kernel

/-- 2.4: bit 0 of blue, no borrow. -/
theorem test_pixSetBit :
    ((painted 1 1 0#8 (fun _ => ⟨255#8, 255#8, 255#8⟩)).pixSetBit 0 false).pixCell 0 = ⟨255#8, 255#8, 254#8⟩ ∧
    (painted 1 1 0#8 (fun _ => ⟨1#8, 1#8, 0#8⟩)).pixGetBit 0 = false := by decide

/-! ## Commands -/

/-- 2.3. -/
theorem test_selnext :
    (after (exec .selnext { image 5 4 3#8 with floor := 11#32 })).result = 14#32 ∧
    (after (exec .selnext { image 5 4 1#8 with floor := 19#32 })).status = 0x00A#12 := by decide

/-- 2.3. -/
theorem test_selcnt :
    (after (exec .selcnt { image 25 25 1#8 with floor := 579#32 })).result = 23#32 ∧
    (after (exec .selcnt { image 5 4 255#8 with result := 7#32 })).result = 7#32 := by decide +kernel

/-- 2.5: 1x611, no payload: success, 579 to 610. -/
theorem test_embed :
    let t := after (exec .embed (image 1 611 0#8))
    t.status = 0x002#12 ∧ t.req = 32#36 ∧ t.avail = 32#32 ∧ t.hdr.first = 579#32 ∧ t.hdr.last = 610#32 := by decide +kernel

/-- 2.5: 30x22, method 2, one byte: 579 to 657; and the capacity error of 25x25 with method 3 leaves HDR. -/
theorem test_embed_methods :
    let t := after (exec .embed { image 30 22 2#8 with plen := 1#64 })
    let u := after (exec .embed { image 25 25 3#8 with plen := 1#64 })
    t.hdr.first = 579#32 ∧ t.hdr.last = 657#32 ∧ u.status = 0x306#12 ∧ u.avail = 26#32 ∧ u.hdr = Header.reset := by decide +kernel

/-- 2.5: WRBITS on the border. -/
theorem test_wrbits :
    let t := after (exec .wrbits border54)
    (List.range 20).filter (fun i => t.pixCell i == ⟨7#8, 7#8, 7#8⟩) = [9, 14, 17, 19] ∧ t.req = 8#36 ∧ t.avail = 8#32 := by decide

/-- 2.5: two bytes do not fit; REQ is recorded and no pixel changes. -/
theorem test_wrbits_capacity :
    let t := after (exec .wrbits { border54 with plen := 2#64 })
    t.status = 0x306#12 ∧ t.req = 16#36 ∧ t.pix = border54.pix := by decide

/-- 2.6: RDBITS of eight bits. -/
theorem test_rdbits :
    let t := after (exec .rdbits { marked 5 4 3#8 [9, 14, 17, 19] with floor := 6#32, blen := 8#32 })
    t.status = 0x002#12 ∧ t.rlen = 1#32 ∧ t.payByte 0 = 0xA5#8 := by decide

/-- 2.6: InsufficientData goes before MisalignedBits. -/
theorem test_rdbits_errors :
    (after (exec .rdbits { marked 5 4 3#8 [] with floor := 6#32, blen := 12#32 })).status = 0x406#12 ∧
    (after (exec .rdbits { marked 5 4 3#8 [] with floor := 6#32, blen := 4#32 })).status = 0x606#12 := by decide

/-- R135 on the first pixels of the region: `info = 1`, `method = 2` give the data bits 1, 1, 0. -/
theorem test_hdrwr :
    isNext (exec .hdrwr (image 579 1 0#8)) = true ∧
    ((marked 4 1 0#8 [2]).writeBits (headerIndices.take 3) (hdrEncode { Header.reset with info := 1#1, method := 2#2 })).readBits
      [0, 1, 2] = [true, true, false] := by decide +kernel

/-- 2.2, read back by HDRRD from the pixels. -/
theorem test_hdrrd :
    (after (exec .hdrrd (marked 579 1 0#8 headerOnes))).hdr.first = 579#32 := by decide +kernel

/-- 2.6: an image without an embedding, all black, is an empty text. -/
theorem test_extract :
    let t := after (exec .extract (marked 611 1 0#8 []))
    t.status = 0x002#12 ∧ t.rlen = 0#32 ∧ t.kind = 0#1 := by decide +kernel

/-! ## Witnesses: codecs -/

theorem test_witness_BytesToBitsIsMsbFirst : ([0x41#8] : Bytes).length = 0 + 1 ∧ 0 < 8 ∧ 7 < 8 := by decide

theorem test_witness_BitsToBytesWeighsEightBits :
    ([true, false, true] : Bits).length % 8 ≠ 0 ∧ ([] : Bits).length % 8 = 0 ∧
    ∃ bs, bitsToBytes (List.replicate 8 true) = .ok bs ∧ 0 < bs.length := ⟨by decide, by decide, [0xFF#8], by decide, by decide⟩

theorem test_witness_BitCodecIsInverse : ([] : Bits).length % 8 = 0 ∧ (List.replicate 16 true).length % 8 = 0 := by decide

theorem test_witness_BitsAndNumbersAgree :
    0 < 2 ^ 0 ∧ 2 ^ 32 - 1 < 2 ^ 32 ∧ (List.replicate 32 true).length = 32 ∧ 31 < 32 := by decide

theorem test_witness_PayloadFrameLayout :
    ([] : Bytes).length = (0#32).toNat ∧ ([0x41#8] : Bytes).length = (1#32).toNat ∧ 31 < 32 ∧ 7 < 8 := by decide

theorem test_witness_HeaderFrameLayout : 63 < 64 ∧ 7 < 8 ∧ 31 < 32 := by decide

theorem test_witness_HeaderDecodeReadsFields :
    (List.replicate 578 false).length < 579 ∧ (List.replicate 579 false).length = 579 := by decide +kernel

theorem test_witness_HeaderCodecIsBijection : (List.replicate 579 true).length = 579 := by decide +kernel

/-- The name of 64 bytes (`z = 64`), the empty one (`z = 0`) and one of length 1. -/
theorem test_witness_FilenamePaddedAndRecovered :
    (∀ (j : Nat) (hj : j < 64), (Vector.replicate 64 0x41#8)[j] ≠ 0#8) ∧
    (Vector.replicate 64 0#8)[0] = 0#8 ∧ (fname64 [0x41#8])[0] ≠ 0#8 ∧ (fname64 [0x41#8])[1] = 0#8 ∧
    63 < min ({ State.reset with fnlen := 255#8 }).fnlen.toNat 64 := by
  refine ⟨fun j hj => ?_, by decide, by decide, by decide, by decide⟩
  rw [Vector.getElem_replicate]
  decide

/-! ## Witnesses: pixels and ports -/

theorem test_witness_PixelBitAccess :
    (painted 1 1 0#8 (fun _ => ⟨0#8, 0#8, 0#8⟩)).pixGetBit 0 = false ∧
    ((painted 1 1 0#8 (fun _ => ⟨0#8, 0#8, 0#8⟩)).pixCell 0).b = 0#8 ∧
    (painted 1 1 0#8 (fun _ => ⟨0#8, 0#8, 255#8⟩)).pixGetBit 0 = true ∧
    ((painted 1 1 0#8 (fun _ => ⟨0#8, 0#8, 255#8⟩)).pixCell 0).b = 255#8 := by decide

theorem test_witness_ports :
    statusBusy State.reset.status = false ∧
    ({ State.reset with host := [.pixWrite 0xFFFFFFFF#32 0xFFFFFF#24, .pixRead 0#32] }).host =
      [.pixWrite 0xFFFFFFFF#32 0xFFFFFF#24, .pixRead 0#32] ∧
    ({ State.reset with host := [.payWrite 0xFFFFFFFF#32 0xFF#8, .payRead 0#32] }).host =
      [.payWrite 0xFFFFFFFF#32 0xFF#8, .payRead 0#32] := by decide

/-! ## Witnesses: selector -/

theorem test_witness_MethodCodes :
    (3#8).toNat = methodCode .border ∧ (0#8).toNat = methodCode .all ∧ 3 < (4#8).toNat ∧ 3 < (255#8).toNat := by decide

theorem test_witness_EligibilityByMethod : 19 < 5 * 4 ∧ 5 % 2 = 1 ∧ 0 < 4 * 4 ∧ 4 % 2 = 0 := by decide

theorem test_witness_EligibleSequenceAscending : 0 * 5 = 0 ∧ 1 * 1 = 1 := by decide

theorem test_witness_FilteredSequenceDropsByValue : 5 * 4 ≤ 20 ∧ 579 ≤ 579 * 1 := by decide

theorem test_witness_ThinImagesAreAllBorder :
    5 < 2 * 3 ∧ 2 ≤ 2 ∧ 5 < 3 * 2 ∧ 4 < 3 * 3 ∧ elig 3 3 .border 4 = false ∧ 0 * 5 = 0 := by decide

theorem test_witness_SelectorCountsClosedForm :
    2 ≤ 2 ∧ 1 < 2 ∧ 20 ≤ 5 * 4 ∧ 0 ≤ 0 * 5 ∧ 5 * 4 < 21 ∧ 579 ≤ 579 * 1 ∧ 0 < 4 ∧ 3 < 4 := by decide

theorem test_witness_SelnextFindsFirstEligible :
    3 < (image 5 4 4#8).method.toNat ∧
    (image 5 4 3#8).method.toNat = methodCode .border ∧ (image 5 4 3#8).filtered .border 20 = [] ∧
    (image 5 4 3#8).filtered .border 19 = [19] ∧ (image 5 4 3#8).filtered .border 6 = 9 :: [10, 14, 15, 16, 17, 18, 19] ∧
    (image 5 4 3#8).pixelCount ≤ (20#32).toNat := by decide

theorem test_witness_SelcntCountsEligible :
    3 < (image 5 4 255#8).method.toNat ∧ (image 5 4 3#8).method.toNat = methodCode .border ∧ (image 5 4 3#8).floor = 0#32 ∧
    (image 25 25 0#8).width = 25#16 ∧ (image 5 4 3#8).pixelCount ≤ (20#32).toNat := by decide

/-! ## Witnesses: the mapper's commands. `embedded` is the smallest successful EMBED, 1x611 with no payload. -/

/-- The smallest image that takes a payload, with FLOOR at the end of the header region. -/
def smallest : State := { image 1 611 0#8 with floor := 579#32 }

/-- One pixel less. -/
def tooSmall : State := { image 1 610 0#8 with floor := 579#32 }

/-- `smallest` after EMBED. -/
def embedded : State := after (exec .embed smallest)

theorem test_witness_embed_succeeds : exec .embed smallest = .next embedded ∧ embedded.status = 0x002#12 ∧ smallest.floor = 579#32 :=
  ⟨eq_after (by decide +kernel), by decide +kernel, rfl⟩

theorem test_witness_embed_capacity :
    exec .embed tooSmall = .next (after (exec .embed tooSmall)) ∧ (after (exec .embed tooSmall)).status = 0x306#12 ∧
    tooSmall.floor = 579#32 := ⟨eq_after (by decide +kernel), by decide +kernel, rfl⟩

theorem test_witness_HdrwrWritesHeaderRegion :
    (image 578 1 0#8).pixelCount < 579 ∧ 579 ≤ (image 579 1 0#8).pixelCount ∧
    ∀ idx < 625, (marked 25 25 0#8 []).pixCell idx = ⟨0#8, 0#8, 0#8⟩ :=
  ⟨by decide, by decide, fun _ h => painted_pixCell 25 25 0#8 _ h⟩

theorem test_witness_HdrrdReadsHeaderRegion :
    (image 578 1 0#8).pixelCount < 579 ∧ 579 ≤ (marked 25 25 0#8 headerOnes).pixelCount ∧
    ∀ idx < 579, (marked 25 25 0#8 headerOnes).pixGetBit idx = decide (idx ∈ [537, 540, 545, 546, 569, 572, 573, 575, 577]) :=
  ⟨by decide, by decide, fun _ h => marked_pixGetBit 25 25 0#8 headerOnes (Nat.lt_trans h (by decide))⟩

theorem test_witness_HeaderCommandsRoundTrip :
    579 ≤ (image 579 1 0#8).pixelCount ∧ isNext (exec .hdrwr (image 579 1 0#8)) = true ∧
    isNext (exec .hdrrd (marked 579 1 0#8 [])) = true := by decide +kernel

theorem test_witness_WrbitsPlacesPayload :
    0xFFFFFFFF < ({ border54 with plen := 0x100000000#64 }).plen.toNat ∧
    ({ border54 with plen := 0xFFFFFFFF#64 }).plen.toNat ≤ 0xFFFFFFFF ∧ 3 < ({ border54 with method := 4#8 }).method.toNat ∧
    border54.method.toNat = methodCode .border ∧
    (border54.filtered .border border54.floor.toNat).length < 8 * ({ border54 with plen := 2#64 }).plen.toNat ∧
    8 * border54.plen.toNat ≤ (border54.filtered .border border54.floor.toNat).length ∧ border54.payByte 0 = 0xA5#8 := by decide

theorem test_witness_EmbedPlacesHeaderAndFrame :
    0xFFFFFFFF < ({ State.reset with plen := 0x100000000#64 }).plen.toNat ∧
    ({ image 578 1 0#8 with plen := 0xFFFFFFFF#64 }).plen.toNat ≤ 0xFFFFFFFF ∧ (image 578 1 0#8).pixelCount < 579 ∧
    579 ≤ (image 579 1 4#8).pixelCount ∧ 3 < (image 579 1 4#8).method.toNat ∧ smallest.method.toNat = methodCode .all ∧
    (tooSmall.filtered .all 579).length < 32 + 8 * tooSmall.plen.toNat ∧
    32 + 8 * smallest.plen.toNat ≤ (smallest.filtered .all 579).length := by decide +kernel

/-- The start state of 3, P1, before EMBED. -/
def scenario : State := { marked 25 25 0#8 [] with plen := 1#64, pay := [(0, 0x41#8)] }

theorem scenario_pix : scenario.pix =
    (List.range (25 * 25)).map (fun i => (i, if i ∈ ([] : List Nat) then ⟨0#8, 0#8, 1#8⟩ else ⟨0#8, 0#8, 0#8⟩)) := by
  simp only [scenario, marked, painted]

theorem test_witness_EmbedPlacesHeaderAndFrame_example :
    scenario.width = 25#16 ∧ scenario.height = 25#16 ∧ (∀ idx < 625, scenario.pixCell idx = ⟨0#8, 0#8, 0#8⟩) ∧
    scenario.method = 0#8 ∧ scenario.info = 0#1 ∧ scenario.fnlen = 0#8 ∧ scenario.plen = 1#64 ∧ scenario.payByte 0 = 0x41#8 :=
  ⟨by decide, by decide, fun _ h => (pixCell_of_pix scenario_pix h).trans (if_neg List.not_mem_nil), by decide, by decide, by decide, by decide, by decide⟩

/-- A successful EMBED for each of methods 1 to 3; `test_witness_embed_succeeds` is the one for method 0. -/
theorem test_witness_EmbedRecordsPositions :
    (1#8).toNat = methodCode .even ∧ (after (exec .embed { image 30 22 1#8 with plen := 1#64 })).status = 0x002#12 ∧
    (2#8).toNat = methodCode .odd ∧ (after (exec .embed { image 30 22 2#8 with plen := 1#64 })).status = 0x002#12 ∧
    (3#8).toNat = methodCode .border ∧ (after (exec .embed (image 1 611 3#8))).status = 0x002#12 := by decide +kernel

theorem test_witness_EmbedCapacityBoundary :
    579 ≤ smallest.pixelCount ∧ (smallest.filtered .all 579).length = 32 + 8 * smallest.plen.toNat ∧
    579 ≤ tooSmall.pixelCount ∧ (tooSmall.filtered .all 579).length + 1 = 32 + 8 * tooSmall.plen.toNat ∧
    tooSmall.method = 0#8 ∧ tooSmall.plen.toNat ≤ 0xFFFFFFFF := by decide +kernel

theorem test_witness_RdbitsReadsPayload :
    3 < (image 5 4 4#8).method.toNat ∧ border54.method.toNat = methodCode .border ∧
    (border54.filtered .border border54.floor.toNat).length < (9#32).toNat ∧
    (4#32).toNat ≤ (border54.filtered .border border54.floor.toNat).length ∧ (4#32).toNat % 8 ≠ 0 ∧
    (8#32).toNat ≤ (border54.filtered .border border54.floor.toNat).length ∧ (8#32).toNat % 8 = 0 ∧
    [9, 10, 14, 15, 16, 17, 18, 19].map (marked 5 4 3#8 [9, 14, 17, 19]).pixGetBit =
      [true, false, true, false, false, true, false, true] := by decide

/-- The clauses of EXTRACT on a zero header: no index left (579x1), a length that does not fit (32 ones after the header), and length 0. -/
theorem test_witness_ExtractRecoversPayload :
    (∀ ones : List Nat, (∀ i ∈ ones, 579 ≤ i) → ∀ w h, 579 ≤ w * h →
      hdrDecode ((List.range 579).map (marked w h 0#8 ones).pixGetBit) = .ok Header.reset) ∧
    (image 578 1 0#8).pixelCount < 579 ∧ methodOfField Header.reset.method = .all ∧ max Header.reset.first.toNat 579 = 579 ∧
    ((image 579 1 0#8).filtered .all 579).length < 32 ∧
    ((image 611 1 0#8).filtered .all 579).length = 32 ∧
    32 < 32 + 8 * bitsToNat (List.replicate 32 true) ∧ 32 + 8 * bitsToNat (List.replicate 32 false) ≤ 32 := by
  refine ⟨fun ones ho w h hN => ?_, by decide, by decide, by decide, by decide +kernel, by decide +kernel, by decide, by decide⟩
  refine (congrArg hdrDecode ((marked_headerBits 0#8 hN).trans ?_)).trans test_hdrDecode_zeros
  rw [List.eq_replicate_iff]
  refine ⟨by simp, fun b hb => ?_⟩
  obtain ⟨i, hi, rfl⟩ := List.mem_map.1 hb
  exact decide_eq_false (fun hm => absurd (ho i hm) (Nat.not_le.2 (List.mem_range.1 hi)))

theorem test_witness_ExtractRecoversPayload_example : ∀ idx < 625,
    (marked 25 25 0#8 (headerOnes ++ [610, 612, 618])).pixGetBit idx =
      decide (idx ∈ [537, 540, 545, 546, 569, 572, 573, 575, 577, 610, 612, 618]) :=
  fun _ h => marked_pixGetBit 25 25 0#8 _ h

/-- Two images that differ in a bit of pixel 578 alone, and an EXTRACT that completes. -/
theorem test_witness_ExtractIgnoresLastPosition :
    (∀ idx < (image 611 1 0#8).pixelCount, ¬ (547 ≤ idx ∧ idx < 579) →
      ((marked 611 1 0#8 []).pixSetBit 578 true).pixGetBit idx = (marked 611 1 0#8 []).pixGetBit idx) ∧
    exec .extract (marked 611 1 0#8 []) = .next (after (exec .extract (marked 611 1 0#8 []))) := by
  refine ⟨fun idx _ h => ?_, eq_after_of_status test_extract.1 (by decide)⟩
  rw [pixGetBit_pixSetBit, if_neg (by omega)]

/-- A file with a recoverable name; the text case is `test_witness_embed_succeeds`. The same image meets the last three hypotheses. -/
theorem test_witness_EmbedThenExtractRoundTrip :
    let s := { smallest with info := 1#1, fnlen := 1#8, fname := Vector.replicate 64 0x61#8 }
    exec .embed s = .next (after (exec .embed s)) ∧ (after (exec .embed s)).status = 0x002#12 ∧
    s.nameOperand = [0x61#8] ∧ nameRecoverable s.nameOperand :=
  ⟨eq_after (by decide +kernel), by decide +kernel, by decide, by decide, by decide⟩

theorem test_witness_ExtractWithoutEmbedding :
    611 ≤ (marked 611 1 0#8 []).pixelCount ∧ (∀ idx < 611 * 1, (marked 611 1 0#8 []).pixGetBit idx = false) ∧
    579 ≤ (image 579 1 0#8).pixelCount ∧
    (∀ idx < 579 * 1, (painted 579 1 0#8 (fun _ => ⟨255#8, 255#8, 255#8⟩)).pixGetBit idx = true) := by
  refine ⟨by decide, fun idx h => ?_, by decide, fun idx h => ?_⟩
  · rw [marked_pixGetBit 611 1 0#8 [] h]; rfl
  · rw [State.pixGetBit, painted_pixCell 579 1 0#8 _ h]; decide

/-! ## Witnesses: all commands -/

/-- Every command answers a next state: the hypothesis of the statements about all commands. -/
theorem test_witness_commands_answer : ∀ i : Instr, isNext (exec i State.reset) = true := by
  intro i; cases i <;> decide

/-- Pixels at `N` and bytes at PLEN, which no command reads. -/
theorem test_witness_CommandsStayInBounds :
    (∀ idx < (marked 5 4 3#8 []).pixelCount, ((marked 5 4 3#8 []).pixSetBit 20 true).pixCell idx = (marked 5 4 3#8 []).pixCell idx) ∧
    (∀ a < border54.plen.toNat, ({ border54 with pay := [(0, 0xA5#8), (1, 0xFF#8)] }).payByte a = border54.payByte a) := by
  refine ⟨fun idx h => ?_, by decide⟩
  rw [pixCell_pixSetBit, if_neg (Nat.ne_of_lt (show idx < 20 from h))]

theorem test_witness_CommandReportsFirstError :
    firstError .embed { image 10 10 7#8 with plen := 0x100000000#64 } = some .payloadTooLarge ∧
    firstError .embed { image 10 10 7#8 with plen := 0xFFFFFFFF#64 } = some .imageTooSmall ∧
    firstError .selnext (image 5 4 3#8) = none ∧ firstError .rdbits border54 = none := by decide

theorem test_witness_ErrorChangesOnlyStatus :
    statusErr (after (exec .hdrrd (image 10 10 0#8))).status = true ∧
    statusErrcode (after (exec .hdrrd (image 10 10 0#8))).status ≠ errorCode .insufficientCapacity ∧
    statusErr (after (exec .wrbits { border54 with plen := 2#64 })).status = true ∧
    statusErrcode (after (exec .wrbits { border54 with plen := 2#64 })).status = errorCode .insufficientCapacity := by decide

theorem test_witness_CommandErrorTable :
    statusErr (after (exec .rdbits { marked 5 4 3#8 [] with blen := 4#32 })).status = true ∧
    statusErrcode (after (exec .rdbits { marked 5 4 3#8 [] with blen := 4#32 })).status = errorCode .misalignedBits := by decide

theorem test_witness_HeaderRegistersWrittenBy :
    isNext (exec .selcnt (image 5 4 3#8)) = true ∧ statusErr (after (exec .hdrwr (image 10 10 0#8))).status = true ∧
    isNext (exec .hdrrd (marked 579 1 0#8 [])) = true ∧ statusErr (after (exec .hdrrd (marked 579 1 0#8 []))).status = false ∧
    statusErr embedded.status = false := by decide +kernel

theorem test_witness_ResultRegistersWrittenBy :
    smallest.plen.toNat ≤ 0xFFFFFFFF ∧ 579 ≤ smallest.pixelCount ∧ smallest.method.toNat = methodCode .all ∧
    border54.plen.toNat ≤ 0xFFFFFFFF ∧ border54.method.toNat = methodCode .border ∧
    0xFFFFFFFF < ({ State.reset with plen := 0x100000000#64 }).plen.toNat ∧ 3 < (image 5 4 4#8).method.toNat ∧
    (image 578 1 0#8).pixelCount < 579 ∧
    border54.filtered .border border54.floor.toNat = 9 :: [10, 14, 15, 16, 17, 18, 19] ∧
    border54.filtered .border 20 = [] := by decide +kernel

/-- A state other than the reset state that meets the invariant, and a step from it. -/
theorem test_witness_StepKeepsInvariant :
    Inv { border54 with host := [.write 32#8 7] } ∧ isNext (step { border54 with host := [.write 32#8 7] }) = true :=
  ⟨⟨by decide, by decide, by decide, by decide⟩, by decide⟩

/-! ## Witnesses: steps and the host port -/

theorem test_witness_StepRunsDecodedCommand :
    statusBusy State.reset.status = false ∧ decode (BitVec.ofNat 8 (0x101 % 256)) = .ok .embed ∧
    decode (BitVec.ofNat 8 (8 % 256)) = .ok .rdbits ∧ decodeTableWord 8 1 = some .embed ∧ State.reset.host = [] := by decide

theorem test_witness_ReservedOpcodeIsIllegalCommand :
    statusBusy State.reset.status = false ∧ 0x100 % 256 = 0 ∧ 9 ≤ 9 % 256 ∧ 9 ≤ 0xFF % 256 := by decide

theorem test_witness_HostRegisterAccess :
    regIsArray .width = false ∧ Reg.width ≠ .cmd ∧ regAccess .width = .readWrite ∧ regAccess .status = .readOnly ∧
    Reg.status ≠ .cmd ∧ regIsArray .hdrFname = true ∧ regOfNumber 9#8 = none ∧ regOfNumber 34#8 = none ∧
    regOfNumber 255#8 = none ∧ 63 < 64 ∧ ({ State.reset with host := [.write (regNumber .hdrMethod) 6] }).host =
      [.write (regNumber .hdrMethod) 6] := by decide

theorem test_witness_WellFormedAccessIsAnswered :
    (HostAccess.write 0#8 5).wellFormed = true ∧ regIsArray .fname = true ∧ regIsArray .hdrFname = true ∧
    regIsArray .width = false ∧ regIsArray .cmd = false ∧ 0 ≤ 63 ∧ 63 ≤ 63 ∧
    statusBusy statusStarted = true ∧ HostAccess.read 0#8 ≠ .reset := by decide

/-- The reset event also lands on a running command. -/
theorem test_witness_ResetEventFromAnyState :
    ({ border54 with status := statusStarted, host := [.reset] }).host = .reset :: [] := rfl

theorem test_witness_HidetextRunsEmbed : statusBusy border54.status = false := by decide

end Sys2Proof.Tests
end

section
/-! SUPPORT. The codec's round trips: numbers, bytes and header values, decoded from their own encoding. -/

namespace Sys2Proof.Machine

/-! ## Numbers and bytes -/

theorem natToBits_succ (v w : Nat) : natToBits v (w + 1) = v.testBit w :: natToBits v w := by
  simp [natToBits, List.range_succ_eq_map, Function.comp_def, Nat.sub_sub, Nat.add_comm]

/-- Decoding a number's low `w` bits gives back its value modulo `2^w` (R124, log 14). -/
@[simp] theorem bitsToNat_natToBits (v w : Nat) : bitsToNat (natToBits v w) = v % 2 ^ w := by
  induction w with
  | zero => simp [natToBits, bitsToNat, Nat.mod_one]
  | succ w ih =>
    rw [natToBits_succ, bitsToNat, ih, length_natToBits, Nat.toNat_testBit, Nat.mod_pow_succ, Nat.mul_comm, Nat.add_comm]

theorem ofNat_bitsToNat_natToBits {w : Nat} (x : BitVec w) : BitVec.ofNat w (bitsToNat (natToBits x.toNat w)) = x := by
  rw [bitsToNat_natToBits, Nat.mod_eq_of_lt x.isLt, BitVec.ofNat_toNat, BitVec.setWidth_eq]

theorem bitsToByte_eq_bitsToNat (x7 x6 x5 x4 x3 x2 x1 x0 : Bool) :
    bitsToByte x7 x6 x5 x4 x3 x2 x1 x0 = BitVec.ofNat 8 (bitsToNat [x7, x6, x5, x4, x3, x2, x1, x0]) := by
  simp [bitsToByte, bitsToNat, Nat.add_assoc]

theorem byteToBits_eq_natToBits (b : Byte) : byteToBits b = natToBits b.toNat 8 := rfl

theorem packBytes_byteToBits_append (b : Byte) (xs : Bits) : packBytes (byteToBits b ++ xs) = b :: packBytes xs := by
  calc packBytes (byteToBits b ++ xs)
      = BitVec.ofNat 8 (bitsToNat (byteToBits b)) :: packBytes xs := by
        simp only [byteToBits, List.cons_append, List.nil_append, packBytes, bitsToByte_eq_bitsToNat]
    _ = b :: packBytes xs := by rw [byteToBits_eq_natToBits, ofNat_bitsToNat_natToBits]

theorem packBytes_bytesToBits (bs : Bytes) : packBytes (bytesToBits bs) = bs := by
  induction bs with
  | nil => rfl
  | cons b bs ih => rw [show bytesToBits (b :: bs) = byteToBits b ++ bytesToBits bs from rfl, packBytes_byteToBits_append, ih]

theorem bitsToBytes_aligned {xs : Bits} (h : xs.length % 8 = 0) : bitsToBytes xs = .ok (packBytes xs) := by
  simp [bitsToBytes, h]

theorem bitsToBytes_misaligned {xs : Bits} (h : xs.length % 8 ≠ 0) : bitsToBytes xs = .error .misalignedBits := by
  simp [bitsToBytes, h]

theorem bitsToBytes_bytesToBits (bs : Bytes) : bitsToBytes (bytesToBits bs) = .ok bs := by
  rw [bitsToBytes_aligned (by rw [length_bytesToBits]; omega), packBytes_bytesToBits]

/-! ## The header frame -/

@[simp] theorem fname64_toList (v : Vector Byte 64) : fname64 v.toList = v := by
  ext i hi
  simp [fname64]

theorem slice_of_eq_append {α : Type} {l x y z : List α} {a b : Nat} (h : l = x ++ y ++ z) (ha : a = x.length)
    (hb : b = x.length + y.length) : slice l a b = y := by
  rw [h, ha, hb, slice_append]

section
variable (h : Header)

theorem slice_hdrEncode_info : slice (hdrEncode h) 0 1 = natToBits h.info.toNat 1 :=
  slice_of_eq_append (x := []) (by simp only [hdrEncode, List.append_assoc]; rfl) rfl (by simp)

theorem slice_hdrEncode_method : slice (hdrEncode h) 1 3 = natToBits h.method.toNat 2 :=
  slice_of_eq_append (x := natToBits h.info.toNat 1) (by simp only [hdrEncode, List.append_assoc]; rfl) (by simp) (by simp)

theorem slice_hdrEncode_fname : slice (hdrEncode h) 3 515 = bytesToBits h.fname.toList :=
  slice_of_eq_append (x := natToBits h.info.toNat 1 ++ natToBits h.method.toNat 2)
    (by simp only [hdrEncode, List.append_assoc]; rfl) (by simp) (by simp [length_bytesToBits])

theorem slice_hdrEncode_first : slice (hdrEncode h) 515 547 = natToBits h.first.toNat 32 :=
  slice_of_eq_append (x := natToBits h.info.toNat 1 ++ natToBits h.method.toNat 2 ++ bytesToBits h.fname.toList)
    (by simp only [hdrEncode, List.append_assoc]; rfl) (by simp [length_bytesToBits]) (by simp [length_bytesToBits])

theorem slice_hdrEncode_last : slice (hdrEncode h) 547 579 = natToBits h.last.toNat 32 :=
  slice_of_eq_append (z := [])
    (x := natToBits h.info.toNat 1 ++ natToBits h.method.toNat 2 ++ bytesToBits h.fname.toList ++ natToBits h.first.toNat 32)
    (by rw [List.append_nil]; rfl) (by simp [length_bytesToBits]) (by simp [length_bytesToBits])

end

/-- Decoding a header's own frame gives it back (R133). -/
theorem hdrDecode_hdrEncode (h : Header) : hdrDecode (hdrEncode h) = .ok h := by
  simp only [hdrDecode, length_hdrEncode, Config.hdrBits, Nat.lt_irrefl, if_false, slice_hdrEncode_info,
    slice_hdrEncode_method, slice_hdrEncode_fname, slice_hdrEncode_first, slice_hdrEncode_last,
    bitsToBytes_bytesToBits, ofNat_bitsToNat_natToBits, fname64_toList]

/-- A sequence of 579 bits or more decodes, and these are the fields that EXTRACT reads (R132). -/
theorem hdrDecode_of_length {b : Bits} (hb : 579 ≤ b.length) :
    ∃ h, hdrDecode b = .ok h ∧ h.method = BitVec.ofNat 2 (bitsToNat (slice b 1 3)) ∧
      h.first.toNat = bitsToNat (slice b 515 547) := by
  have hname : (slice b 3 515).length % 8 = 0 := by rw [length_slice b (by omega)]
  have hfirst : bitsToNat (slice b 515 547) < 2 ^ 32 := by
    have hlt := bitsToNat_lt (slice b 515 547)
    rwa [length_slice b (by omega)] at hlt
  rw [hdrDecode, if_neg (by rw [Config.hdrBits]; omega), bitsToBytes_aligned hname]
  exact ⟨_, rfl, rfl, by simpa using Nat.mod_eq_of_lt hfirst⟩

end Sys2Proof.Machine
end

section
/-! SUPPORT. What each command can do, said once: the error `firstError` names, or its completion. -/

namespace Sys2Proof.Machine

/-! ## STATUS at a command's end -/

@[simp] theorem statusErr_statusRaised (e : ErrorKind) : statusErr (statusRaised e) = true := by
  cases e <;> rfl

@[simp] theorem statusErr_statusCompleted (endFlag : Bool) : statusErr (statusCompleted endFlag) = false := by
  cases endFlag <;> rfl

/-! ## The access forms over a filtered sequence -/

section
variable (s : State)

theorem place_of_le {bits : Bits} {S : List Nat} (h : bits.length ≤ S.length) : s.place bits S = .ok (s.writeBits S bits) := by
  rw [State.place, if_neg (by omega)]

theorem takeBits_of_le {S : List Nat} {c : Nat} (h : c ≤ S.length) : s.takeBits S c = .ok (s.readBits (S.take c)) := by
  rw [State.takeBits, if_neg (by omega)]

theorem takeBits_of_lt {S : List Nat} {c : Nat} (h : S.length < c) : s.takeBits S c = .error .insufficientData := by
  rw [State.takeBits, if_pos h]

@[simp] theorem length_readBits (S : List Nat) : (s.readBits S).length = S.length := by simp [State.readBits]

@[simp] theorem length_headerBits : s.headerBits.length = 579 := by simp [State.headerBits]

@[simp] theorem length_payloadOperand : s.payloadOperand.length = s.plen.toNat := by simp [State.payloadOperand]

theorem methodOperand_ok {m : Method} : s.methodOperand = .ok m ↔ s.method.toNat = methodCode m := methodOfOperand_ok

/-! ## The command start, moved to the end

STATUS is set at the start and again at the end of a command, and nothing between reads it. -/

@[simp] theorem beginCommand_takeBits (S : List Nat) (c : Nat) : s.beginCommand.takeBits S c = s.takeBits S c := rfl

@[simp] theorem complete_beginCommand (endFlag : Bool) : s.beginCommand.complete endFlag = s.complete endFlag := rfl

theorem writeBits_beginCommand (S : List Nat) (xs : Bits) : s.beginCommand.writeBits S xs = (s.writeBits S xs).beginCommand := by
  induction S generalizing s xs with
  | nil => cases xs <;> rfl
  | cons i is ih => cases xs with
    | nil => rfl
    | cons x xs => exact ih (s.pixSetBit i x) xs

theorem writeHeader_beginCommand (h : Header) : s.beginCommand.writeHeader h = (s.writeHeader h).beginCommand :=
  writeBits_beginCommand s _ _

/-! ## What EMBED and EXTRACT work on -/

/-- The header a successful EMBED under method `m` places: its positions are the first and the last payload pixel (R170, R171). -/
def State.placedHeader (m : Method) : Header :=
  s.embedHeader ((s.filtered m 579).getD 0 0) ((s.filtered m 579).getD (31 + 8 * s.plen.toNat) 0)

/-- The sequence EXTRACT reads the payload frame from, given the header it found (R190 step 2). -/
def State.frameIndices (h : Header) : List Nat := s.filtered (methodOfField h.method) (max h.first.toNat 579)

/-- The payload length EXTRACT finds in the first 32 bits of the frame (R190 step 3). -/
def State.frameLength (h : Header) : Nat := bitsToNat (s.readBits ((s.frameIndices h).take 32))

/-- At most 32 bits give the length. -/
theorem frameLength_lt (h : Header) : s.frameLength h < 2 ^ 32 := by
  refine (bitsToNat_lt _).trans_le (Nat.pow_le_pow_right (by decide) ?_)
  simp

end

/-! ## The ends of a command -/

/-- The state that `exec i s` answers. An error that is found before the capacity comparison, or by a command without one, changes
only STATUS; an InsufficientCapacity leaves REQ and AVAIL as well; a completion has no error condition. -/
inductive Ends (s : State) : Instr → State → Prop
  | raises {i : Instr} {e : ErrorKind} (herr : firstError i s = some e) (hcap : e ≠ .insufficientCapacity) : Ends s i (s.raise e)
  | embedCapacity {m : Method} (herr : firstError .embed s = some .insufficientCapacity) (hm : s.method.toNat = methodCode m) :
      Ends s .embed ((s.recordCapacity (32 + 8 * s.plen.toNat) (s.filtered m 579).length).raise .insufficientCapacity)
  | wrbitsCapacity {m : Method} (herr : firstError .wrbits s = some .insufficientCapacity) (hm : s.method.toNat = methodCode m) :
      Ends s .wrbits
        ((s.recordCapacity (8 * s.plen.toNat) (s.filtered m s.floor.toNat).length).raise .insufficientCapacity)
  | embed {m : Method} (herr : firstError .embed s = none) (hm : s.method.toNat = methodCode m) :
      Ends s .embed
        (((({ s.recordCapacity (32 + 8 * s.plen.toNat) (s.filtered m 579).length with hdr := s.placedHeader m }).writeHeader
          (s.placedHeader m)).writeBits (s.filtered m 579) (frameBits (s.plen.extractLsb' 0 32) s.payloadOperand)).complete false)
  | extract {h : Header} {bs : Bytes} (herr : firstError .extract s = none) (hh : hdrDecode s.headerBits = .ok h)
      (hbs : bitsToBytes (s.readBits ((s.frameIndices h).take (32 + 8 * s.frameLength h))) = .ok bs) :
      Ends s .extract ((s.extractResults h (s.frameLength h) (slice bs 4 (4 + s.frameLength h))).complete false)
  | hdrwr (herr : firstError .hdrwr s = none) : Ends s .hdrwr ((s.writeHeader s.hdr).complete false)
  | hdrrd {h : Header} (herr : firstError .hdrrd s = none) (hh : hdrDecode s.headerBits = .ok h) :
      Ends s .hdrrd (({ s with hdr := h }).complete false)
  | selnextFound {m : Method} {idx : Nat} {rest : List Nat} (herr : firstError .selnext s = none)
      (hm : s.method.toNat = methodCode m) (hS : s.filtered m s.floor.toNat = idx :: rest) :
      Ends s .selnext (({ s with result := BitVec.ofNat 32 idx }).complete false)
  | selnextEnd {m : Method} (herr : firstError .selnext s = none) (hm : s.method.toNat = methodCode m)
      (hS : s.filtered m s.floor.toNat = []) : Ends s .selnext (({ s with result := 0xFFFFFFFF#32 }).complete true)
  | selcnt {m : Method} (herr : firstError .selcnt s = none) (hm : s.method.toNat = methodCode m) :
      Ends s .selcnt (({ s with result := BitVec.ofNat 32 (s.filtered m s.floor.toNat).length }).complete false)
  | wrbits {m : Method} (herr : firstError .wrbits s = none) (hm : s.method.toNat = methodCode m) :
      Ends s .wrbits
        (((s.recordCapacity (8 * s.plen.toNat) (s.filtered m s.floor.toNat).length).writeBits (s.filtered m s.floor.toNat)
          (bytesToBits s.payloadOperand)).complete false)
  | rdbits {m : Method} {bs : Bytes} (herr : firstError .rdbits s = none) (hm : s.method.toNat = methodCode m)
      (hbs : bitsToBytes (s.readBits ((s.filtered m s.floor.toNat).take s.blen.toNat)) = .ok bs) :
      Ends s .rdbits (({ s.payWrite bs with rlen := BitVec.ofNat 32 (s.blen.toNat / 8) }).complete false)

section
variable (s : State)

/-- METHOD is a method's code, or no method and above 3. -/
theorem methodOperand_cases : (∃ m, methodOfOperand s.method = .ok m ∧ s.method.toNat = methodCode m) ∨
    (methodOfOperand s.method = .error .unsupportedMethod ∧ 3 < s.method.toNat) := by
  cases h : methodOfOperand s.method with
  | ok m => exact .inl ⟨m, rfl, methodOfOperand_ok.1 h⟩
  | error e =>
    obtain ⟨hlt, rfl⟩ := methodOfOperand_error.1 h
    exact .inr ⟨rfl, hlt⟩

theorem methodCode_le (m : Method) : methodCode m ≤ 3 := by cases m <;> decide

/-- A command that raises an error before any capacity comparison. -/
theorem ends_of_raised {i : Instr} {e : ErrorKind} (hexec : exec i s = raised e s.beginCommand) (herr : firstError i s = some e)
    (hcap : e ≠ .insufficientCapacity) : ∃ t, exec i s = .next t ∧ Ends s i t :=
  ⟨_, hexec, .raises herr hcap⟩

theorem embed_ends : ∃ t, exec .embed s = .next t ∧ Ends s .embed t := by
  by_cases hlen : 0xFFFFFFFF < s.plen.toNat
  · exact ends_of_raised s (if_pos hlen) (if_pos hlen) (by decide)
  by_cases hN : s.pixelCount < 579
  · exact ends_of_raised s ((if_neg hlen).trans (if_pos hN)) ((if_neg hlen).trans (if_pos hN)) (by decide)
  obtain ⟨m, hop, hm⟩ | ⟨hop, hm⟩ := methodOperand_cases s
  · by_cases hcap : (s.filtered m 579).length < 32 + 8 * s.plen.toNat
    · refine ⟨_, ?_, .embedCapacity (m := m) ?_ hm⟩
      · simp [exec, execEmbed, Config.maxPayload, Config.hdrBits, Config.wLenPrefix, State.methodOperand, hlen, hN, hop,
          hcap, raised]
        rfl
      · simp [firstError, hlen, hN, hop, hcap]
    · refine ⟨_, ?_, .embed (m := m) ?_ hm⟩
      · have hplace (t : State) := place_of_le t (bits := frameBits (s.plen.extractLsb' 0 32) s.payloadOperand)
          (S := s.filtered m 579) (by rw [length_frameBits, length_payloadOperand]; omega)
        rw [← complete_beginCommand, ← writeBits_beginCommand, ← writeHeader_beginCommand]
        simp [exec, execEmbed, Config.maxPayload, Config.hdrBits, Config.wLenPrefix, State.methodOperand, hlen, hN, hop,
          hcap, hplace, completed]
        rfl
      · simp [firstError, hlen, hN, hop, hcap]
  · refine ends_of_raised (e := .unsupportedMethod) s ?_ ?_ (by decide)
    · simp [exec, execEmbed, Config.maxPayload, Config.hdrBits, State.methodOperand, hlen, hN, hop]
    · simp [firstError, hlen, hN, hop]

theorem wrbits_ends : ∃ t, exec .wrbits s = .next t ∧ Ends s .wrbits t := by
  by_cases hlen : 0xFFFFFFFF < s.plen.toNat
  · exact ends_of_raised s (if_pos hlen) (if_pos hlen) (by decide)
  obtain ⟨m, hop, hm⟩ | ⟨hop, hm⟩ := methodOperand_cases s
  · by_cases hcap : (s.filtered m s.floor.toNat).length < 8 * s.plen.toNat
    · refine ⟨_, ?_, .wrbitsCapacity (m := m) ?_ hm⟩
      · simp [exec, execWrbits, Config.maxPayload, State.methodOperand, hlen, hop, hcap, raised]
        rfl
      · simp [firstError, hlen, hop, hcap]
    · refine ⟨_, ?_, .wrbits (m := m) ?_ hm⟩
      · have hplace (t : State) := place_of_le t (bits := bytesToBits s.payloadOperand)
          (S := s.filtered m s.floor.toNat) (by rw [length_bytesToBits, length_payloadOperand]; omega)
        rw [← complete_beginCommand, ← writeBits_beginCommand]
        simp [exec, execWrbits, Config.maxPayload, State.methodOperand, hlen, hop, hcap, hplace, completed]
        rfl
      · simp [firstError, hlen, hop, hcap]
  · refine ends_of_raised (e := .unsupportedMethod) s ?_ ?_ (by decide)
    · simp [exec, execWrbits, Config.maxPayload, State.methodOperand, hlen, hop]
    · simp [firstError, hlen, hop]

theorem rdbits_ends : ∃ t, exec .rdbits s = .next t ∧ Ends s .rdbits t := by
  obtain ⟨m, hop, hm⟩ | ⟨hop, hm⟩ := methodOperand_cases s
  · by_cases hdata : (s.filtered m s.floor.toNat).length < s.blen.toNat
    · refine ends_of_raised (e := .insufficientData) s ?_ ?_ (by decide)
      · simp [exec, execRdbits, State.methodOperand, hop, takeBits_of_lt, hdata]
      · simp [firstError, hop, hdata]
    have htake := takeBits_of_le s (Nat.le_of_not_lt hdata)
    have hbits : (s.readBits ((s.filtered m s.floor.toNat).take s.blen.toNat)).length = s.blen.toNat := by
      rw [length_readBits, List.length_take, Nat.min_eq_left (Nat.le_of_not_lt hdata)]
    by_cases halign : s.blen.toNat % 8 = 0
    · have hbs := bitsToBytes_aligned (hbits.symm ▸ halign)
      refine ⟨_, ?_, .rdbits (m := m) ?_ hm hbs⟩
      · simp [exec, execRdbits, State.methodOperand, hop, htake, hbs, completed]
        rfl
      · simp [firstError, hop, hdata, halign]
    · refine ends_of_raised (e := .misalignedBits) s ?_ ?_ (by decide)
      · simp [exec, execRdbits, State.methodOperand, hop, htake, bitsToBytes_misaligned (hbits.symm ▸ halign)]
      · simp [firstError, hop, hdata, halign]
  · refine ends_of_raised (e := .unsupportedMethod) s ?_ ?_ (by decide)
    · simp [exec, execRdbits, State.methodOperand, hop]
    · simp [firstError, hop]

theorem hdrwr_ends : ∃ t, exec .hdrwr s = .next t ∧ Ends s .hdrwr t := by
  by_cases hN : s.pixelCount < 579
  · exact ends_of_raised s (if_pos hN) (if_pos hN) (by decide)
  · refine ⟨_, ?_, .hdrwr (if_neg hN)⟩
    rw [← complete_beginCommand, ← writeHeader_beginCommand]
    exact if_neg hN

theorem hdrrd_ends : ∃ t, exec .hdrrd s = .next t ∧ Ends s .hdrrd t := by
  by_cases hN : s.pixelCount < 579
  · exact ends_of_raised (e := .truncatedHeader) s (by simp [exec, execHdrrd, Config.hdrBits, hN]) (if_pos hN) (by decide)
  · obtain ⟨h, hh, -⟩ := hdrDecode_of_length (b := s.headerBits) (by simp)
    refine ⟨_, ?_, .hdrrd (if_neg hN) hh⟩
    simp [exec, execHdrrd, Config.hdrBits, hN, hh, completed]
    rfl

theorem selnext_ends : ∃ t, exec .selnext s = .next t ∧ Ends s .selnext t := by
  obtain ⟨m, hop, hm⟩ | ⟨hop, hm⟩ := methodOperand_cases s
  · have herr : firstError .selnext s = none := if_neg (by have := methodCode_le m; omega)
    cases hS : s.filtered m s.floor.toNat with
    | nil =>
      refine ⟨_, ?_, .selnextEnd herr hm hS⟩
      simp [exec, execSelnext, State.methodOperand, hop, hS]
      rfl
    | cons idx rest =>
      refine ⟨_, ?_, .selnextFound herr hm hS⟩
      simp [exec, execSelnext, State.methodOperand, hop, hS]
      rfl
  · refine ends_of_raised s ?_ (if_pos hm) (by decide)
    simp [exec, execSelnext, State.methodOperand, hop]

theorem selcnt_ends : ∃ t, exec .selcnt s = .next t ∧ Ends s .selcnt t := by
  obtain ⟨m, hop, hm⟩ | ⟨hop, hm⟩ := methodOperand_cases s
  · refine ⟨_, ?_, .selcnt (if_neg (by have := methodCode_le m; omega)) hm⟩
    simp [exec, execSelcnt, State.methodOperand, hop, completed]
    rfl
  · refine ends_of_raised s ?_ (if_pos hm) (by decide)
    simp [exec, execSelcnt, State.methodOperand, hop]

theorem extract_ends : ∃ t, exec .extract s = .next t ∧ Ends s .extract t := by
  by_cases hN : s.pixelCount < 579
  · exact ends_of_raised (e := .truncatedHeader) s (by simp [exec, execExtract, Config.hdrBits, hN]) (if_pos hN) (by decide)
  obtain ⟨h, hh, hmethod, hfirst⟩ := hdrDecode_of_length (b := s.headerBits) (by simp)
  have hS : s.filtered (methodOfField h.method) (max h.first.toNat 579) = s.frameIndices h := rfl
  have herr : firstError .extract s =
      if (s.frameIndices h).length < 32 then some .insufficientData
      else if (s.frameIndices h).length < 32 + 8 * s.frameLength h then some .insufficientData else none := by
    simp only [firstError, if_neg hN, ← hmethod, ← hfirst, hS]
    rfl
  by_cases hshort : (s.frameIndices h).length < 32
  · refine ends_of_raised (e := .insufficientData) s ?_ (by rw [herr, if_pos hshort]) (by decide)
    simp [exec, execExtract, Config.hdrBits, Config.wLenPrefix, hN, hh, hS, takeBits_of_lt, hshort]
  have htake := takeBits_of_le s (Nat.le_of_not_lt hshort)
  have hlen : bitsToNat (s.readBits ((s.frameIndices h).take 32)) = s.frameLength h := rfl
  by_cases hframe : (s.frameIndices h).length < 32 + 8 * s.frameLength h
  · refine ends_of_raised (e := .insufficientData) s ?_ (by rw [herr, if_neg hshort, if_pos hframe]) (by decide)
    simp [exec, execExtract, Config.hdrBits, Config.wLenPrefix, hN, hh, hS, htake, hlen, takeBits_of_lt, hframe]
  have htake' := takeBits_of_le s (Nat.le_of_not_lt hframe)
  have hbs := bitsToBytes_aligned (xs := s.readBits ((s.frameIndices h).take (32 + 8 * s.frameLength h)))
    (by rw [length_readBits, List.length_take]; omega)
  refine ⟨_, ?_, .extract (by rw [herr, if_neg hshort, if_neg hframe]) hh hbs⟩
  simp [exec, execExtract, Config.hdrBits, Config.wLenPrefix, hN, hh, hS, htake, hlen, htake', hbs, completed]
  rfl

end

/-- Every command ends, in one of the states of `Ends` (R214, R217). -/
theorem exec_ends (i : Instr) (s : State) : ∃ t, exec i s = .next t ∧ Ends s i t := by
  cases i with
  | embed => exact embed_ends s
  | extract => exact extract_ends s
  | hdrwr => exact hdrwr_ends s
  | hdrrd => exact hdrrd_ends s
  | selnext => exact selnext_ends s
  | selcnt => exact selcnt_ends s
  | wrbits => exact wrbits_ends s
  | rdbits => exact rdbits_ends s

theorem ends_of_exec {i : Instr} {s t : State} (h : exec i s = .next t) : Ends s i t := by
  obtain ⟨t', ht, hends⟩ := exec_ends i s
  obtain rfl : t' = t := by simpa [ht] using h
  exact hends

end Sys2Proof.Machine
end

section
/-! O41 and O42: which command writes the HDR registers and the result registers, and with what (R29, R31). -/

namespace Sys2Proof.Machine

/-! ## The HDR registers -/

section
variable {i : Instr} {s t : State}

/-- EMBED, EXTRACT and HDRRD alone write HDR. -/
theorem Ends.hdr_eq (h : Ends s i t) (h1 : i ≠ .embed) (h2 : i ≠ .extract) (h3 : i ≠ .hdrrd) : t.hdr = s.hdr := by
  cases h with
  | embed => exact absurd rfl h1
  | extract => exact absurd rfl h2
  | hdrrd => exact absurd rfl h3
  | _ => simp

theorem Ends.hdr_eq_of_error (h : Ends s i t) (herr : statusErr t.status = true) : t.hdr = s.hdr := by
  cases h <;> simp at herr ⊢

theorem Ends.hdr_of_reads (h : Ends s i t) (hi : i ∈ [Instr.extract, .hdrrd]) (herr : statusErr t.status = false) :
    hdrDecode s.headerBits = .ok t.hdr := by
  cases h <;> simp_all

/-- The header region after a header, and then bits elsewhere, have been written. -/
theorem headerBits_writeBits_writeHeader (s : State) (h : Header) {S : List Nat} (xs : Bits) (hS : ∀ j ∈ S, 579 ≤ j) :
    ((s.writeHeader h).writeBits S xs).headerBits = hdrEncode h := by
  have hdisjoint : ∀ j ∈ headerIndices, j ∉ S := fun j hj hjS => by
    have hlt := mem_headerIndices.1 hj
    have hge := hS j hjS
    omega
  have hback := readBits_writeBits s headerIndices_nodup (xs := hdrEncode h) (by simp)
  rw [List.take_of_length_le (by simp)] at hback
  exact (readBits_writeBits_other _ xs hdisjoint).trans hback

theorem Ends.hdr_of_embed (h : Ends s .embed t) (herr : statusErr t.status = false) : hdrDecode t.headerBits = .ok t.hdr := by
  cases h with
  | raises | embedCapacity => simp at herr
  | embed =>
    rw [complete_headerBits, headerBits_writeBits_writeHeader _ _ _ (fun j hj => (mem_filtered.1 hj).2), hdrDecode_hdrEncode]
    simp

end

/-- Settles O41: clause by clause from the ends of a command; the header that EMBED placed is read back from below pixel 579, where
its payload frame does not reach. -/
theorem headerRegistersWrittenBy : Obligations.HeaderRegistersWrittenBy := by
  refine ⟨fun i s t hi h => ?_, fun i s t h => (ends_of_exec h).hdr_eq_of_error,
    fun i s t hi h => (ends_of_exec h).hdr_of_reads hi, fun s t h => (ends_of_exec h).hdr_of_embed⟩
  refine (ends_of_exec h).hdr_eq ?_ ?_ ?_ <;> rintro rfl <;> simp at hi

/-! ## The result registers -/

theorem filtered_length_toNat (s : State) (m : Method) (f : Nat) :
    (BitVec.ofNat 32 (s.filtered m f).length).toNat = (s.filtered m f).length := by
  have hle := length_filtered_le s m f
  have hN := pixelCount_lt s
  rw [BitVec.toNat_ofNat, Nat.mod_eq_of_lt (by omega)]

theorem filtered_head_toNat {s : State} {m : Method} {f idx : Nat} {rest : List Nat} (h : s.filtered m f = idx :: rest) :
    (BitVec.ofNat 32 idx).toNat = idx := by
  have hlt := (mem_filtered.1 (h ▸ List.mem_cons_self : idx ∈ s.filtered m f)).1.1
  have hN := pixelCount_lt s
  rw [BitVec.toNat_ofNat, Nat.mod_eq_of_lt (by omega)]

theorem methodCode_injective : Function.Injective methodCode := by
  intro m n h
  cases m <;> cases n <;> simp [methodCode] at h ⊢

theorem length_fnameRecover_le (v : Vector Byte 64) : (fnameRecover v).length ≤ 64 := by
  simpa [fnameRecover] using (List.takeWhile_sublist (fun b => b != 0#8) (l := v.toList)).length_le

section
variable {i : Instr} {s t : State}

theorem Ends.result_eq (h : Ends s i t) (h1 : i ≠ .selnext) (h2 : i ≠ .selcnt) : t.result = s.result := by
  cases h with
  | selnextFound | selnextEnd => exact absurd rfl h1
  | selcnt => exact absurd rfl h2
  | _ => simp

theorem Ends.capacity_eq (h : Ends s i t) (h1 : i ≠ .embed) (h2 : i ≠ .wrbits) : t.req = s.req ∧ t.avail = s.avail := by
  cases h with
  | embed | embedCapacity => exact absurd rfl h1
  | wrbits | wrbitsCapacity => exact absurd rfl h2
  | _ => simp

theorem Ends.rlen_eq (h : Ends s i t) (h1 : i ≠ .extract) (h2 : i ≠ .rdbits) : t.rlen = s.rlen := by
  cases h with
  | extract => exact absurd rfl h1
  | rdbits => exact absurd rfl h2
  | _ => simp

theorem Ends.kind_eq (h : Ends s i t) (h1 : i ≠ .extract) : t.kind = s.kind ∧ t.rfnlen = s.rfnlen := by
  cases h with
  | extract => exact absurd rfl h1
  | _ => simp

end

/-! ### REQ and AVAIL: whether the capacity comparison is reached -/

section
variable {s t : State}

/-- The two counts fit the registers that record them. -/
theorem recordCapacity_toNat {required : Nat} (h : required < 2 ^ 36) (m : Method) (f : Nat) :
    (s.recordCapacity required (s.filtered m f).length).req.toNat = required ∧
    (s.recordCapacity required (s.filtered m f).length).avail.toNat = (s.filtered m f).length :=
  ⟨by rw [recordCapacity_req, BitVec.toNat_ofNat, Nat.mod_eq_of_lt h], filtered_length_toNat s m f⟩

/-- Past EMBED's first three checks the capacity comparison decides. -/
theorem firstError_embed_of_operands {m : Method} (hplen : s.plen.toNat ≤ 0xFFFFFFFF) (hN : 579 ≤ s.pixelCount)
    (hm : s.method.toNat = methodCode m) : firstError .embed s =
      if (s.filtered m 579).length < 32 + 8 * s.plen.toNat then some .insufficientCapacity else none := by
  simp [firstError, Nat.not_lt.2 hplen, Nat.not_lt.2 hN, methodOfOperand_ok.2 hm]

theorem firstError_wrbits_of_operands {m : Method} (hplen : s.plen.toNat ≤ 0xFFFFFFFF) (hm : s.method.toNat = methodCode m) :
    firstError .wrbits s =
      if (s.filtered m s.floor.toNat).length < 8 * s.plen.toNat then some .insufficientCapacity else none := by
  simp [firstError, Nat.not_lt.2 hplen, methodOfOperand_ok.2 hm]

theorem operands_of_firstError_embed (h : ∀ e, firstError .embed s = some e → e = .insufficientCapacity) :
    s.plen.toNat ≤ 0xFFFFFFFF ∧ 579 ≤ s.pixelCount := by
  by_cases hplen : 0xFFFFFFFF < s.plen.toNat
  · exact absurd (h .payloadTooLarge (if_pos hplen)) (by decide)
  by_cases hN : s.pixelCount < 579
  · exact absurd (h .imageTooSmall ((if_neg hplen).trans (if_pos hN))) (by decide)
  · omega

theorem operands_of_firstError_wrbits (h : ∀ e, firstError .wrbits s = some e → e = .insufficientCapacity) :
    s.plen.toNat ≤ 0xFFFFFFFF := by
  by_cases hplen : 0xFFFFFFFF < s.plen.toNat
  · exact absurd (h .payloadTooLarge (if_pos hplen)) (by decide)
  · omega

theorem Ends.capacity_eq_of_unreached {i : Instr} (h : Ends s i t)
    (hearly : 0xFFFFFFFF < s.plen.toNat ∨ 3 < s.method.toNat ∨ i = .embed ∧ s.pixelCount < 579) :
    t.req = s.req ∧ t.avail = s.avail := by
  cases h with
  | embed herr hm | embedCapacity herr hm =>
    obtain ⟨hplen, hN⟩ := operands_of_firstError_embed (s := s) (by simp [herr])
    have hcode := hm ▸ methodCode_le _
    omega
  | wrbits herr hm | wrbitsCapacity herr hm =>
    have hplen := operands_of_firstError_wrbits (s := s) (by simp [herr])
    have hcode := hm ▸ methodCode_le _
    obtain hlong | hother | ⟨hembed, -⟩ := hearly
    · omega
    · omega
    · cases hembed
  | _ => simp

theorem Ends.capacity_of_embed {m : Method} (h : Ends s .embed t) (hplen : s.plen.toNat ≤ 0xFFFFFFFF) (hN : 579 ≤ s.pixelCount)
    (hm : s.method.toNat = methodCode m) :
    t.req.toNat = 32 + 8 * s.plen.toNat ∧ t.avail.toNat = (s.filtered m 579).length := by
  have hcounts := recordCapacity_toNat (s := s) (required := 32 + 8 * s.plen.toNat) (by omega) m 579
  cases h with
  | raises herr hcap =>
    rw [firstError_embed_of_operands hplen hN hm, Option.ite_none_right_eq_some] at herr
    exact absurd (Option.some.inj herr.2).symm hcap
  | embedCapacity herr hm' =>
    obtain rfl := methodCode_injective (hm'.symm.trans hm)
    exact hcounts
  | embed herr hm' =>
    obtain rfl := methodCode_injective (hm'.symm.trans hm)
    simpa using hcounts

theorem Ends.capacity_of_wrbits {m : Method} (h : Ends s .wrbits t) (hplen : s.plen.toNat ≤ 0xFFFFFFFF)
    (hm : s.method.toNat = methodCode m) :
    t.req.toNat = 8 * s.plen.toNat ∧ t.avail.toNat = (s.filtered m s.floor.toNat).length := by
  have hcounts := recordCapacity_toNat (s := s) (required := 8 * s.plen.toNat) (by omega) m s.floor.toNat
  cases h with
  | raises herr hcap =>
    rw [firstError_wrbits_of_operands hplen hm, Option.ite_none_right_eq_some] at herr
    exact absurd (Option.some.inj herr.2).symm hcap
  | wrbitsCapacity herr hm' =>
    obtain rfl := methodCode_injective (hm'.symm.trans hm)
    exact hcounts
  | wrbits herr hm' =>
    obtain rfl := methodCode_injective (hm'.symm.trans hm)
    simpa using hcounts

/-! ### RESULT -/

theorem firstError_selector {m : Method} (hm : s.method.toNat = methodCode m) :
    firstError .selnext s = none ∧ firstError .selcnt s = none := by
  have hcode : ¬ 3 < s.method.toNat := by have := methodCode_le m; omega
  exact ⟨if_neg hcode, if_neg hcode⟩

theorem Ends.result_of_selnext_found {m : Method} {idx : Nat} {rest : List Nat} (h : Ends s .selnext t)
    (hm : s.method.toNat = methodCode m) (hS : s.filtered m s.floor.toNat = idx :: rest) : t.result.toNat = idx := by
  cases h with
  | raises herr => simp [firstError_selector hm] at herr
  | selnextFound _ hm' hS' =>
    obtain rfl := methodCode_injective (hm'.symm.trans hm)
    rw [hS] at hS'
    obtain ⟨rfl, -⟩ := List.cons.inj hS'
    exact filtered_head_toNat hS
  | selnextEnd _ hm' hS' =>
    obtain rfl := methodCode_injective (hm'.symm.trans hm)
    simp [hS] at hS'

theorem Ends.result_of_selnext_end {m : Method} (h : Ends s .selnext t) (hm : s.method.toNat = methodCode m)
    (hS : s.filtered m s.floor.toNat = []) : t.result = 0xFFFFFFFF#32 := by
  cases h with
  | raises herr => simp [firstError_selector hm] at herr
  | selnextFound _ hm' hS' =>
    obtain rfl := methodCode_injective (hm'.symm.trans hm)
    simp [hS] at hS'
  | selnextEnd => rfl

theorem Ends.result_of_selcnt {m : Method} (h : Ends s .selcnt t) (hm : s.method.toNat = methodCode m) :
    t.result.toNat = (s.filtered m s.floor.toNat).length := by
  cases h with
  | raises herr => simp [firstError_selector hm] at herr
  | selcnt _ hm' =>
    obtain rfl := methodCode_injective (hm'.symm.trans hm)
    exact filtered_length_toNat s _ _

/-! ### RLEN, KIND and RFNLEN -/

theorem Ends.rlen_of_rdbits (h : Ends s .rdbits t) (herr : statusErr t.status = false) : t.rlen.toNat = s.blen.toNat / 8 := by
  cases h with
  | raises => simp at herr
  | rdbits =>
    have hlt := s.blen.isLt
    exact Nat.mod_eq_of_lt (by omega)

theorem Ends.results_of_extract (h : Ends s .extract t) (herr : statusErr t.status = false) :
    t.rlen.toNat = s.frameLength t.hdr ∧ t.kind = t.hdr.info ∧
    t.rfnlen.toNat = if t.hdr.info = 1#1 then (fnameRecover t.hdr.fname).length else 0 := by
  cases h with
  | raises => simp at herr
  | @extract h =>
    refine ⟨Nat.mod_eq_of_lt (frameLength_lt s h), rfl, ?_⟩
    have hname := length_fnameRecover_le h.fname
    by_cases hfile : h.info = 1#1
    · simpa [hfile] using (by omega : (fnameRecover h.fname).length < 128)
    · simp [hfile]

end

/-- Settles O42: clause by clause from the ends of a command. -/
theorem resultRegistersWrittenBy : Obligations.ResultRegistersWrittenBy := by
  intro i s t hexec
  have h := ends_of_exec hexec
  refine ⟨h.result_eq, h.capacity_eq, h.rlen_eq, h.kind_eq, ?embed, ?wrbits, h.capacity_eq_of_unreached,
    ?selnextFound, ?selnextEnd, ?selcnt, ?rdbits, ?extract⟩
  case embed => rintro m rfl; exact h.capacity_of_embed
  case wrbits => rintro m rfl; exact h.capacity_of_wrbits
  case selnextFound => rintro m idx rest rfl; exact h.result_of_selnext_found
  case selnextEnd => rintro m rfl; exact h.result_of_selnext_end
  case selcnt => rintro m rfl; exact h.result_of_selcnt
  case rdbits => rintro rfl; exact h.rlen_of_rdbits
  case extract => rintro rfl; exact h.results_of_extract

end Sys2Proof.Machine
end

section
/-! O5 and O10: the bits of the payload frame, position by position (R72, R99, R166), and the data bit of a pixel (R66 to R68). -/

namespace Sys2Proof.Machine

/-! ## Bytes as bits and back -/

theorem getElem?_natToBits (v : Nat) {w k : Nat} (hk : k < w) : (natToBits v w)[k]? = some (v.testBit (w - 1 - k)) := by
  rw [natToBits, List.getElem?_map, List.getElem?_range hk]
  rfl

theorem getElem?_byteToBits (b : Byte) {k : Nat} (hk : k < 8) : (byteToBits b)[k]? = some (b.getLsbD (7 - k)) :=
  getElem?_natToBits b.toNat hk

/-- Byte `j` stands at positions `8j` to `8j+7`, most significant bit first (R120). -/
theorem getElem?_bytesToBits (bs : Bytes) {j k : Nat} (hj : j < bs.length) (hk : k < 8) :
    (bytesToBits bs)[8 * j + k]? = some (bs[j].getLsbD (7 - k)) := by
  induction bs generalizing j with
  | nil => cases hj
  | cons b bs ih =>
    have hcons : bytesToBits (b :: bs) = byteToBits b ++ bytesToBits bs := rfl
    cases j with
    | zero =>
      rw [hcons, Nat.mul_zero, Nat.zero_add, List.getElem?_append_left (by simpa using hk), getElem?_byteToBits b hk]
      rfl
    | succ j =>
      rw [hcons, List.getElem?_append_right (by rw [length_byteToBits]; omega), length_byteToBits,
        show 8 * (j + 1) + k - 8 = 8 * j + k by omega]
      exact ih (by simpa using hj)

theorem length_packBytes : ∀ xs : Bits, (packBytes xs).length = xs.length / 8
  | _ :: _ :: _ :: _ :: _ :: _ :: _ :: _ :: xs => by
    rw [packBytes, List.length_cons, length_packBytes xs]
    simp only [List.length_cons]
    omega
  | [] | [_] | [_, _] | [_, _, _] | [_, _, _, _] | [_, _, _, _, _] | [_, _, _, _, _, _] | [_, _, _, _, _, _, _] => by simp [packBytes]

theorem length_of_bitsToBytes {xs : Bits} {bs : Bytes} (h : bitsToBytes xs = .ok bs) : bs.length = xs.length / 8 := by
  by_cases hx : xs.length % 8 = 0
  · rw [bitsToBytes_aligned hx] at h
    cases h
    exact length_packBytes xs
  · rw [bitsToBytes_misaligned hx] at h
    cases h

/-! ## The payload frame -/

theorem be32_map_toNat (n : BitVec 32) : (be32 n).map BitVec.toNat =
    [n.toNat / 2 ^ 24 % 256, n.toNat / 2 ^ 16 % 256, n.toNat / 2 ^ 8 % 256, n.toNat % 256] := by
  simp [be32, Nat.shiftRight_eq_div_pow]

/-- The big-endian length is the 32-bit numeral, most significant bit first (R72, R124). -/
theorem bytesToBits_be32 (n : BitVec 32) : bytesToBits (be32 n) = natToBits n.toNat 32 := by
  simp [be32, bytesToBits, byteToBits, natToBits, List.range_succ, BitVec.testBit_toNat]

theorem frameBits_eq_append (n : BitVec 32) (p : Bytes) : frameBits n p = natToBits n.toNat 32 ++ bytesToBits p := by
  rw [frameBits, bytesToBits, List.flatMap_append, ← bytesToBits_be32]
  rfl

theorem getElem?_frameBits_length (n : BitVec 32) (p : Bytes) {k : Nat} (hk : k < 32) :
    (frameBits n p)[k]? = some (n.getLsbD (31 - k)) := by
  rw [frameBits_eq_append, List.getElem?_append_left (by simpa using hk), getElem?_natToBits n.toNat hk]
  rfl

theorem getElem?_frameBits_payload (n : BitVec 32) (p : Bytes) {j k : Nat} (hj : j < p.length) (hk : k < 8) :
    (frameBits n p)[32 + 8 * j + k]? = some (p[j].getLsbD (7 - k)) := by
  rw [frameBits_eq_append, List.getElem?_append_right (by rw [length_natToBits]; omega), length_natToBits,
    show 32 + 8 * j + k - 32 = 8 * j + k by omega, getElem?_bytesToBits p hj hk]

/-- Settles O5: the frame is the 32-bit numeral of the length followed by the bits of the payload; the examples are evaluated. -/
theorem payloadFrameLayout : Obligations.PayloadFrameLayout := by
  refine ⟨be32_map_toNat, fun n p hp => ⟨?bytes, rfl, ?bits, fun k hk => getElem?_frameBits_length n p hk,
    fun j k hj hk => getElem?_frameBits_payload n p hj hk⟩, by decide, by decide⟩
  case bytes => rw [List.length_append, length_be32, hp]
  case bits => rw [length_frameBits, hp]

/-! ## The data bit -/

theorem getLsbD_zero_toNat (b : Byte) : (b.getLsbD 0).toNat = b.toNat % 2 := by
  rw [BitVec.getLsbD, Nat.toNat_testBit, Nat.pow_zero, Nat.div_one]

theorem setBlueLsb_toNat (b : Byte) (x : Bool) : (setBlueLsb b x).toNat = b.toNat - (b.getLsbD 0).toNat + x.toNat := by
  have hupper : (b.extractLsb' 1 7).toNat = b.toNat / 2 := by
    have hb := b.isLt
    rw [BitVec.extractLsb'_toNat, Nat.shiftRight_eq_div_pow]
    omega
  have hlsb := getLsbD_zero_toNat b
  calc (setBlueLsb b x).toNat
      = 2 * (b.toNat / 2) + x.toNat := by
        rw [setBlueLsb, BitVec.toNat_append, hupper, BitVec.toNat_ofBool, ← Nat.shiftLeft_add_eq_or_of_lt x.toNat_lt,
          Nat.shiftLeft_eq]
        omega
    _ = b.toNat - (b.getLsbD 0).toNat + x.toNat := by omega

theorem setBlueLsb_of_getLsbD_eq {b : Byte} {x : Bool} (h : b.getLsbD 0 = x) : setBlueLsb b x = b := by
  refine BitVec.eq_of_getLsbD_eq fun i _ => ?_
  rw [getLsbD_setBlueLsb]
  split
  · next h0 => rw [h0, h]
  · rfl

theorem pixCell_pixSetBit_same (s : State) (idx : Nat) (x : Bool) :
    (s.pixSetBit idx x).pixCell idx = { s.pixCell idx with b := setBlueLsb (s.pixCell idx).b x } := by
  rw [pixCell_pixSetBit, if_pos rfl]

/-- Settles O10: the cell written is the one read with `setBlueLsb` of its blue, which moves blue by the difference of the two bits. -/
theorem pixelBitAccess : Obligations.PixelBitAccess := by
  intro s idx x
  have hb := setBlueLsb_toNat (s.pixCell idx).b x
  have hlsb : (s.pixGetBit idx).toNat = (s.pixCell idx).b.toNat % 2 := getLsbD_zero_toNat _
  rw [pixCell_pixSetBit_same]
  refine ⟨rfl, ?read, rfl, rfl, setBlueLsb_upper _ x, hb, ?same, ?up, ?down, ?top, ?bottom, ?other, rfl⟩
  case read => rw [pixGetBit_pixSetBit, if_pos rfl]
  case same =>
    intro hx
    rw [setBlueLsb_of_getLsbD_eq hx]
  case up =>
    rintro hget rfl
    rw [← State.pixGetBit, hget] at hb
    exact hb
  case down =>
    rintro hget rfl
    rw [← State.pixGetBit] at hb
    rw [hget, Bool.toNat_true] at hlsb hb
    rw [Bool.toNat_false] at hb
    change (setBlueLsb (s.pixCell idx).b false).toNat + 1 = _
    omega
  case top => rintro h rfl; rw [h]; rfl
  case bottom => rintro h rfl; rw [h]; rfl
  case other =>
    intro j hj
    rw [pixCell_pixSetBit, if_neg hj]

end Sys2Proof.Machine
end

section
/-! O36: which memory a command writes, and which it reads (R70). -/

namespace Sys2Proof.Machine

/-! ## The state a command ends in is determined by `Ends` -/

/-- A state has one end for a command: `firstError` names the error or none, and METHOD and PIX fix what a completion works on. -/
theorem Ends.unique {i : Instr} {s t u : State} (h : Ends s i t) (h' : Ends s i u) : t = u := by
  cases h with
  | raises => cases h' <;> simp_all
  | embedCapacity | embed | wrbitsCapacity | wrbits | selnextFound | selnextEnd | selcnt | rdbits =>
    cases h' <;> simp_all [methodCode_injective.eq_iff]
  | extract | hdrrd | hdrwr => cases h' <;> simp_all

theorem exec_of_ends {i : Instr} {s t : State} (h : Ends s i t) : exec i s = .next t := by
  obtain ⟨u, hexec, hu⟩ := exec_ends i s
  rw [hexec, hu.unique h]

/-! ## The memory a command writes -/

section
variable {i : Instr} {s t : State}

theorem Ends.pix_eq (h : Ends s i t) (hi : i ∈ [Instr.extract, .hdrrd, .rdbits, .selnext, .selcnt]) : t.pix = s.pix := by
  cases h with
  | embed | hdrwr | wrbits => simp at hi
  | _ => simp

theorem Ends.pay_eq (h : Ends s i t) (hi : i ∈ [Instr.embed, .hdrwr, .wrbits, .hdrrd, .selnext, .selcnt]) : t.pay = s.pay := by
  cases h with
  | extract | rdbits => simp at hi
  | _ => simp

end

/-! ## Another PAY -/

section
variable {s : State}

/-- What a completed RDBITS has found in its sequence. -/
theorem le_length_of_firstError_rdbits {m : Method} (herr : firstError .rdbits s = none) (hm : s.method.toNat = methodCode m) :
    s.blen.toNat ≤ (s.filtered m s.floor.toNat).length := by
  by_contra hshort
  simp [firstError, methodOfOperand_ok.2 hm, Nat.lt_of_not_le hshort] at herr

/-- What a completed EXTRACT has found in its sequence: the whole frame. -/
theorem le_length_of_firstError_extract {h : Header} (herr : firstError .extract s = none) (hh : hdrDecode s.headerBits = .ok h) :
    32 + 8 * s.frameLength h ≤ (s.frameIndices h).length := by
  obtain ⟨h', hh', hmethod, hfirst⟩ := hdrDecode_of_length (b := s.headerBits) (by simp)
  obtain rfl : h' = h := by simpa [hh'] using hh
  simp only [firstError, ← hmethod, ← hfirst] at herr
  split_ifs at herr with _ _ hframe
  exact Nat.le_of_not_lt hframe

theorem payRead_of_pay_eq {t : State} {m : Memory Byte} {bs : Bytes} {n : Nat} (hpay : t.pay = m.writeAll 0 bs)
    (hn : n ≤ bs.length) : t.payRead n = bs.take n := by
  have hbs : t.payRead bs.length = bs := by
    have hwrite : t = { t with pay := m }.payWrite bs := by rw [State.payWrite, ← hpay]
    rw [hwrite, payRead_payWrite]
  have htake : t.payRead n = (t.payRead bs.length).take n := by
    rw [State.payRead, State.payRead, ← List.map_take, List.take_range, Nat.min_eq_left hn]
  rw [htake, hbs]

end

/-- `t` and `u` are the same but for PAY, and hold the same payload when a command has completed. -/
structure SameButPay (t u : State) : Prop where
  frame : { u with pay := t.pay } = t
  payload : t.status = 0x002#12 → u.payRead t.rlen.toNat = t.payRead t.rlen.toNat

theorem statusRaised_ne_completed (e : ErrorKind) : statusRaised e ≠ 0x002#12 := by cases e <;> decide

theorem SameButPay.raise (s : State) (p : Memory Byte) (e : ErrorKind) : SameButPay (s.raise e) ({ s with pay := p }.raise e) :=
  ⟨rfl, fun h => absurd h (statusRaised_ne_completed e)⟩

/-- The reading commands decide on their errors, their indices and the bytes they write without PAY. -/
theorem Ends.withPay {i : Instr} {s t : State} (h : Ends s i t) (hi : i ∈ [Instr.extract, .rdbits]) (p : Memory Byte) :
    ∃ t', Ends { s with pay := p } i t' ∧ SameButPay t t' := by
  cases h with
  | embedCapacity | wrbitsCapacity | embed | hdrwr | hdrrd | selnextFound | selnextEnd | selcnt | wrbits => simp at hi
  | raises herr hcap =>
    have herr' : firstError i { s with pay := p } = firstError i s := by
      fin_cases hi <;> rfl
    exact ⟨_, .raises (herr'.trans herr) hcap, .raise s p _⟩
  | @extract h bs herr hh hbs =>
    have hlen : bs.length = 4 + s.frameLength h := by
      have hframe := le_length_of_firstError_extract herr hh
      rw [length_of_bitsToBytes hbs, length_readBits, List.length_take, Nat.min_eq_left hframe]
      omega
    have hpayload : (slice bs 4 (4 + s.frameLength h)).length = s.frameLength h := by
      rw [length_slice bs hlen.ge, Nat.add_sub_cancel_left]
    refine ⟨_, .extract herr hh hbs, rfl, fun _ => ?_⟩
    have hrlen : (BitVec.ofNat 32 (s.frameLength h)).toNat ≤ (slice bs 4 (4 + s.frameLength h)).length :=
      (Nat.mod_le _ _).trans hpayload.ge
    exact (payRead_of_pay_eq rfl hrlen).trans (payRead_of_pay_eq rfl hrlen).symm
  | @rdbits m bs herr hm hbs =>
    have hlen : bs.length = s.blen.toNat / 8 := by
      rw [length_of_bitsToBytes hbs, length_readBits, List.length_take,
        Nat.min_eq_left (le_length_of_firstError_rdbits herr hm)]
    refine ⟨_, .rdbits herr hm hbs, rfl, fun _ => ?_⟩
    have hrlen : (BitVec.ofNat 32 (s.blen.toNat / 8)).toNat ≤ bs.length := (Nat.mod_le _ _).trans hlen.ge
    exact (payRead_of_pay_eq rfl hrlen).trans (payRead_of_pay_eq rfl hrlen).symm

/-! ## Another PIX -/

/-- `s` and `u` are the same but for PIX, and read the same in the cells of `A`. -/
structure SameButPix (A : Nat → Prop) (s u : State) : Prop where
  frame : { u with pix := s.pix } = s
  cells : ∀ idx, A idx → u.pixCell idx = s.pixCell idx

namespace SameButPix
variable {A : Nat → Prop} {s u : State}

theorem pixSetBit (h : SameButPix A s u) (j : Nat) (x : Bool) : SameButPix A (s.pixSetBit j x) (u.pixSetBit j x) where
  frame := congrArg (fun r : State => { r with pix := (s.pixSetBit j x).pix }) h.frame
  cells idx hidx := by
    rw [pixCell_pixSetBit, pixCell_pixSetBit]
    split
    · next hj => rw [← hj, h.cells idx hidx]
    · exact h.cells idx hidx

theorem writeBits (h : SameButPix A s u) (S : List Nat) (xs : Bits) : SameButPix A (s.writeBits S xs) (u.writeBits S xs) := by
  induction S generalizing s u xs with
  | nil => cases xs <;> exact h
  | cons j S ih => cases xs with
    | nil => exact h
    | cons x xs => exact ih (h.pixSetBit j x) xs

theorem writeHeader (h : SameButPix A s u) (hdr : Header) : SameButPix A (s.writeHeader hdr) (u.writeHeader hdr) :=
  h.writeBits _ _

theorem complete (h : SameButPix A s u) (endFlag : Bool) : SameButPix A (s.complete endFlag) (u.complete endFlag) :=
  ⟨congrArg (State.complete endFlag) h.frame, h.cells⟩

theorem raise (h : SameButPix A s u) (e : ErrorKind) : SameButPix A (s.raise e) (u.raise e) :=
  ⟨congrArg (State.raise e) h.frame, h.cells⟩

theorem recordCapacity (h : SameButPix A s u) (required available : Nat) :
    SameButPix A (s.recordCapacity required available) (u.recordCapacity required available) :=
  ⟨congrArg (State.recordCapacity · required available) h.frame, h.cells⟩

theorem setHdr (h : SameButPix A s u) (hdr : Header) : SameButPix A { s with hdr := hdr } { u with hdr := hdr } :=
  ⟨congrArg (fun r : State => { r with hdr := hdr }) h.frame, h.cells⟩

end SameButPix

/-- The writing commands decide on their errors, their indices and their bits without PIX. -/
theorem Ends.withPix {A : Nat → Prop} {i : Instr} {s t : State} {q : Memory Pixel} (h : Ends s i t)
    (hi : i ∈ [Instr.embed, .hdrwr, .wrbits]) (hq : SameButPix A s { s with pix := q }) :
    ∃ t', Ends { s with pix := q } i t' ∧ SameButPix A t t' := by
  cases h with
  | extract | hdrrd | selnextFound | selnextEnd | selcnt | rdbits => simp at hi
  | raises herr hcap =>
    have herr' : firstError i { s with pix := q } = firstError i s := by
      fin_cases hi <;> rfl
    exact ⟨_, .raises (herr'.trans herr) hcap, hq.raise _⟩
  | embedCapacity herr hm => exact ⟨_, .embedCapacity herr hm, (hq.recordCapacity _ _).raise _⟩
  | wrbitsCapacity herr hm => exact ⟨_, .wrbitsCapacity herr hm, (hq.recordCapacity _ _).raise _⟩
  | embed herr hm =>
    exact ⟨_, .embed herr hm, ((((hq.recordCapacity _ _).setHdr _).writeHeader _).writeBits _ _).complete _⟩
  | hdrwr herr => exact ⟨_, .hdrwr herr, (hq.writeHeader _).complete _⟩
  | wrbits herr hm => exact ⟨_, .wrbits herr hm, ((hq.recordCapacity _ _).writeBits _ _).complete _⟩

/-- Settles O36: the writes clause by clause from the ends of a command; the reads because a command has the same ends whatever the
other memory holds. -/
theorem commandsKeepToTheirMemory : Obligations.CommandsKeepToTheirMemory := by
  refine ⟨fun i s t hi hexec => (ends_of_exec hexec).pix_eq hi, fun i s t hi hexec => (ends_of_exec hexec).pay_eq hi,
    ?readsNoPay, ?readsNoPix⟩
  case readsNoPay =>
    intro i s t p hi hexec
    obtain ⟨t', hends, hsame⟩ := (ends_of_exec hexec).withPay hi p
    exact ⟨t', exec_of_ends hends, hsame.frame, hsame.payload⟩
  case readsNoPix =>
    intro i s t q hi hexec
    obtain ⟨t', hends, hsame⟩ := (ends_of_exec hexec).withPix (q := q) hi ⟨rfl, fun _ => id⟩
    exact ⟨t', exec_of_ends hends, hsame.frame, hsame.cells⟩

end Sys2Proof.Machine
end

section
/-! O6 and O9: the header frame position by position (R95, R131), and the filename field (R97, R138). -/

namespace Sys2Proof.Machine

/-! ## The header frame -/

theorem getElem?_slice {α : Type} (l : List α) {a b k : Nat} (hk : k < b - a) : (slice l a b)[k]? = l[a + k]? := by
  rw [slice, List.getElem?_take_of_lt hk, List.getElem?_drop]

/-- A field that stands at positions `a` to `b` as its numeral has its most significant bit at position `a`. -/
theorem getElem?_of_slice_eq_natToBits {l : Bits} {a b w k : Nat} {x : BitVec w} (hs : slice l a b = natToBits x.toNat w)
    (hw : w = b - a) (hk : k < w) : l[a + k]? = some (x.getLsbD (w - 1 - k)) := by
  rw [← getElem?_slice l (hw ▸ hk), hs, getElem?_natToBits _ hk]
  rfl

theorem getElem?_hdrEncode_fname (h : Header) {j k : Nat} (hj : j < 64) (hk : k < 8) :
    (hdrEncode h)[3 + 8 * j + k]? = some (h.fname[j].getLsbD (7 - k)) := by
  rw [Nat.add_assoc, ← getElem?_slice (b := 515) _ (by omega), slice_hdrEncode_fname, getElem?_bytesToBits _ (by simpa using hj) hk,
    Vector.getElem_toList]

/-- Position `h` of the frame goes to pixel `h` and is read back from it (R95, R135). -/
@[simp] theorem headerBits_writeHeader (s : State) (h : Header) : (s.writeHeader h).headerBits = hdrEncode h := by
  simpa [State.writeBits] using headerBits_writeBits_writeHeader s h (S := []) [] (by simp)

/-- Settles O6: each field is a slice of the frame, and the header region reads back what was written; the example is evaluated. -/
theorem headerFrameLayout : Obligations.HeaderFrameLayout := by
  refine ⟨fun h => ⟨rfl, length_hdrEncode h, ?info, ?method1, ?method0, fun j k => getElem?_hdrEncode_fname h, ?first, ?last,
    fun s => headerBits_writeHeader s h⟩, by decide +kernel⟩
  case info => exact getElem?_of_slice_eq_natToBits (slice_hdrEncode_info h) rfl Nat.one_pos
  case method1 => exact getElem?_of_slice_eq_natToBits (k := 0) (slice_hdrEncode_method h) rfl (by decide)
  case method0 => exact getElem?_of_slice_eq_natToBits (k := 1) (slice_hdrEncode_method h) rfl (by decide)
  case first => exact fun k => getElem?_of_slice_eq_natToBits (slice_hdrEncode_first h) rfl
  case last => exact fun k => getElem?_of_slice_eq_natToBits (slice_hdrEncode_last h) rfl

/-! ## The filename field -/

theorem getElem_fname64 (bs : Bytes) {j : Nat} (hj : j < 64) : (fname64 bs)[j] = bs.getD j 0#8 := by
  simp [fname64]

theorem getElem_fname64_of_le {bs : Bytes} {j : Nat} (hj : j < 64) (h : bs.length ≤ j) : (fname64 bs)[j] = 0#8 := by
  rw [getElem_fname64, List.getD_eq_default _ _ h]

theorem getElem_fname64_of_lt {bs : Bytes} {j : Nat} (hj : j < 64) (h : j < bs.length) : (fname64 bs)[j] = bs[j] := by
  rw [getElem_fname64, List.getD_eq_getElem _ _ h]

theorem take_fname64 {bs : Bytes} (h : bs.length ≤ 64) : (fname64 bs).toList.take bs.length = bs := by
  refine List.ext_getElem (by simpa using h) fun j _ hj => ?_
  rw [List.getElem_take, Vector.getElem_toList, getElem_fname64_of_lt (by omega) hj]

theorem length_nameOperand (s : State) : s.nameOperand.length = min s.fnlen.toNat 64 := by
  simp [State.nameOperand, Config.fnameBytes]

theorem getElem?_nameOperand (s : State) {j : Nat} (hj : j < 64) (h : j < min s.fnlen.toNat 64) :
    s.nameOperand[j]? = some s.fname[j] := by
  rw [State.nameOperand, Config.fnameBytes, List.getElem?_take_of_lt h]
  simp [hj]

/-- The first zero byte, or the end of the field, at `z` cuts the name there (R138). -/
theorem fnameRecover_eq_take {f : Vector Byte 64} {z : Nat} (hbefore : ∀ (j : Nat) (hj : j < 64), j < z → f[j] ≠ 0#8)
    (hat : ∀ hz : z < 64, f[z] = 0#8) : fnameRecover f = f.toList.take z := by
  have hkept : ∀ b ∈ f.toList.take z, (b != 0#8) = true := by
    intro b hb
    obtain ⟨j, hj, rfl⟩ := List.mem_take_iff_getElem.1 hb
    simp only [Vector.length_toList, Nat.lt_min] at hj
    simpa using hbefore j hj.2 hj.1
  have hcut : (f.toList.drop z).takeWhile (fun b => b != 0#8) = [] := by
    by_cases hz : z < 64
    · rw [List.drop_eq_getElem_cons (by simpa using hz)]
      simp [hat hz]
    · rw [List.drop_of_length_le (by simpa using hz), List.takeWhile_nil]
  rw [fnameRecover, ← List.take_append_drop z f.toList, List.takeWhile_append_of_pos hkept, hcut]
  simp

theorem zero_notMem_fnameRecover (f : Vector Byte 64) : 0#8 ∉ fnameRecover f := fun h => by
  simpa using List.mem_takeWhile_imp h

/-- The padded name comes back exactly when the field can hold it and no zero byte cuts it (R138). -/
theorem fnameRecover_fname64 (bs : Bytes) : fnameRecover (fname64 bs) = bs ↔ nameRecoverable bs := by
  constructor
  · intro h
    rw [← h]
    exact ⟨length_fnameRecover_le _, zero_notMem_fnameRecover _⟩
  · rintro ⟨hlen, hzero⟩
    have hbefore : ∀ (j : Nat) (hj : j < 64), j < bs.length → (fname64 bs)[j] ≠ 0#8 := by
      intro j hj hlt heq
      rw [getElem_fname64_of_lt hj hlt] at heq
      exact hzero (heq ▸ List.getElem_mem hlt)
    rw [fnameRecover_eq_take hbefore fun hz => getElem_fname64_of_le hz le_rfl, take_fname64 hlen]

/-- Settles O9: the field element by element, and the name recovered from it as the bytes before its first zero byte. -/
theorem filenamePaddedAndRecovered : Obligations.FilenamePaddedAndRecovered := by
  refine ⟨?field, fun s => ⟨length_nameOperand s, fun j => getElem?_nameOperand s⟩, ?recovered, fnameRecover_fname64⟩
  case field =>
    intro bs j hj
    split
    · exact getElem_fname64 bs hj
    · exact getElem_fname64_of_le hj (by omega)
  case recovered =>
    intro f z hz hbefore hat
    rw [fnameRecover_eq_take hbefore hat]
    exact ⟨rfl, by simpa using hz⟩

end Sys2Proof.Machine
end

section
/-! O13 and O50: the method codes (R94) and the reserved opcodes (R93, R218). -/

namespace Sys2Proof.Machine

/-! ## The method codes -/

/-- A pixel is on the border when it stands in the first or last column or row (R149). -/
theorem elig_border_iff {W H idx : Nat} (h : idx < W * H) :
    elig W H .border idx = true ↔ idx % W = 0 ∨ idx % W = W - 1 ∨ idx / W = 0 ∨ idx / W = H - 1 := by
  have hW : 0 < W := Nat.pos_of_mul_pos_right (Nat.zero_lt_of_lt h)
  have hH : 0 < H := Nat.pos_of_mul_pos_left (Nat.zero_lt_of_lt h)
  have hx : idx % W + 1 = W ↔ idx % W = W - 1 := by omega
  have hy : idx / W + 1 = H ↔ idx / W = H - 1 := by omega
  simp only [elig, Bool.or_eq_true, beq_iff_eq, hx, hy, or_assoc]

/-- Settles O13: field and operand agree with the codes of the four methods, and each code names its pixels. -/
theorem methodCodes : Obligations.MethodCodes := by
  refine ⟨rfl, rfl, rfl, rfl, by decide, fun m k => methodOfOperand_ok, ?unsupported, fun W H idx h =>
    ⟨rfl, beq_iff_eq, beq_iff_eq, elig_border_iff h⟩⟩
  case unsupported => exact fun m => methodOfOperand_error.trans (and_iff_left rfl)

/-! ## The reserved opcodes -/

theorem opcodeField_toNat (v : Nat) : (opcodeField v).toNat = v % 256 := BitVec.toNat_ofNat v 8

/-- The opcodes 0x01 to 0x08 decode to a command, every other one is reserved (R92, R93). -/
theorem decode_cases (op : BitVec 8) :
    (∃ i, decode op = .ok i ∧ 1 ≤ op.toNat ∧ op.toNat ≤ 8) ∨
    decode op = .error (.reservedOpcode op) ∧ (op.toNat = 0 ∨ 9 ≤ op.toNat) := by
  unfold decode
  split
  case h_9 =>
    refine .inr ⟨rfl, ?_⟩
    simp only [imp_false] at *
    omega
  all_goals exact .inl ⟨_, rfl, by omega⟩

/-- A reserved opcode ends with IllegalCommand; every other opcode runs a command (R93, R212, R218). -/
theorem startCommand_cases (v : Nat) (s : State) :
    (∃ i, startCommand v s = exec i s ∧ 1 ≤ v % 256 ∧ v % 256 ≤ 8) ∨
    startCommand v s = .next { s with status := 0x806#12 } ∧ (v % 256 = 0 ∨ 9 ≤ v % 256) := by
  rw [← opcodeField_toNat v, startCommand]
  obtain ⟨i, hdec, hop⟩ | ⟨hdec, hop⟩ := decode_cases (opcodeField v)
  · exact .inl ⟨i, by rw [hdec], hop⟩
  · exact .inr ⟨by rw [hdec]; rfl, hop⟩

/-- A command raises only the errors of its row (R207). -/
theorem firstError_mem_canRaise {i : Instr} {s : State} {e : ErrorKind} (h : firstError i s = some e) : e ∈ canRaise i := by
  cases i with
  | extract | hdrwr | hdrrd | selnext | selcnt =>
    simp only [firstError] at h
    split_ifs at h <;> cases h <;> decide
  | embed | wrbits | rdbits =>
    obtain ⟨m, hop, -⟩ | ⟨hop, -⟩ := methodOperand_cases s
    all_goals
      simp only [firstError, hop] at h
      repeat' split at h
      all_goals cases h <;> decide

theorem illegalCommand_notMem_canRaise (i : Instr) : ErrorKind.illegalCommand ∉ canRaise i := by cases i <;> decide

theorem statusRaised_eq_illegalCommand {e : ErrorKind} : statusRaised e = 0x806#12 ↔ e = .illegalCommand := by
  cases e <;> decide

theorem statusCompleted_ne_illegalCommand (endFlag : Bool) : statusCompleted endFlag ≠ 0x806#12 := by cases endFlag <;> decide

/-- A command ends with the error that `firstError` names, or completes when it names none. -/
theorem Ends.status_cases {i : Instr} {s t : State} (h : Ends s i t) :
    (∃ e, firstError i s = some e ∧ t.status = statusRaised e) ∨
    firstError i s = none ∧ ∃ endFlag, t.status = statusCompleted endFlag := by
  cases h with
  | raises herr | embedCapacity herr | wrbitsCapacity herr => exact .inl ⟨_, herr, rfl⟩
  | embed herr | extract herr | hdrwr herr | hdrrd herr | selnextFound herr | selnextEnd herr | selcnt herr | wrbits herr
  | rdbits herr => exact .inr ⟨herr, _, rfl⟩

/-- No assigned command ends with IllegalCommand. -/
theorem Ends.status_ne_illegalCommand {i : Instr} {s t : State} (h : Ends s i t) : t.status ≠ 0x806#12 := by
  obtain ⟨e, herr, hst⟩ | ⟨-, endFlag, hst⟩ := h.status_cases
  · rw [hst, Ne, statusRaised_eq_illegalCommand]
    rintro rfl
    exact illegalCommand_notMem_canRaise i (firstError_mem_canRaise herr)
  · exact hst ▸ statusCompleted_ne_illegalCommand endFlag

/-- Settles O50: a CMD value runs a command, which raises only the errors of its row, or ends as a reserved opcode. -/
theorem reservedOpcodeIsIllegalCommand : Obligations.ReservedOpcodeIsIllegalCommand := by
  constructor
  · intro s v hv
    obtain ⟨i, -, hlow, hhigh⟩ | ⟨hstart, -⟩ := startCommand_cases v s
    · omega
    · exact hstart
  · intro s t v hnext hst
    obtain ⟨i, hstart, -⟩ | ⟨-, hv⟩ := startCommand_cases v s
    · exact absurd hst (ends_of_exec (hstart.symm.trans hnext)).status_ne_illegalCommand
    · exact hv

end Sys2Proof.Machine
end

section
/-! O1 to O4 and O57: the bit codec, bytes to bits and numbers to bits and back (R120 to R124, log 14). -/

namespace Sys2Proof.Machine

/-! ## Numbers -/

/-- The numeral at width `w` depends only on the low `w` bits (log 14). -/
theorem natToBits_mod (v w : Nat) : natToBits (v % 2 ^ w) w = natToBits v w := by
  refine List.map_congr_left fun k hk => ?_
  have hk : k < w := List.mem_range.1 hk
  simp [Nat.testBit_mod_two_pow, (by omega : w - 1 - k < w)]

theorem natToBits_bitsToNat (s : Bits) : natToBits (bitsToNat s) s.length = s := by
  induction s with
  | nil => rfl
  | cons x xs ih =>
    have hlt := bitsToNat_lt xs
    have hhead : (bitsToNat (x :: xs)).testBit xs.length = x := by
      rw [bitsToNat, Nat.mul_comm, Nat.testBit_two_pow_mul_add _ hlt, if_neg (Nat.lt_irrefl _), Nat.sub_self]
      cases x <;> rfl
    have htail : bitsToNat (x :: xs) % 2 ^ xs.length = bitsToNat xs := by
      rw [bitsToNat, Nat.mul_add_mod', Nat.mod_eq_of_lt hlt]
    rw [List.length_cons, natToBits_succ, hhead, ← natToBits_mod, htail, ih]

theorem bitsToNat_append (a b : Bits) : bitsToNat (a ++ b) = bitsToNat a * 2 ^ b.length + bitsToNat b := by
  induction a with
  | nil => simp [bitsToNat]
  | cons x xs ih => rw [List.cons_append, bitsToNat, bitsToNat, ih, List.length_append, Nat.pow_add]; ring

/-- The position `k` of a sequence of `w` bits has weight `2 ^ (w - 1 - k)` (R124). -/
theorem bitsToNat_eq_sum (s : Bits) :
    bitsToNat s = ∑ k ∈ Finset.range s.length, (s.getD k false).toNat * 2 ^ (s.length - 1 - k) := by
  induction s with
  | nil => rfl
  | cons x xs ih =>
    rw [bitsToNat, ih, List.length_cons, Finset.sum_range_succ', Nat.add_comm]
    simp [Nat.sub_sub, Nat.add_comm]

/-- Settles O57: length, positions, value and numeral, each by the lemma that says it of every `v` and `w`. -/
theorem natToBitsKeepsLowBits : Obligations.NatToBitsKeepsLowBits := fun v w =>
  ⟨length_natToBits v w, fun _ => getElem?_natToBits v, bitsToNat_natToBits v w, (natToBits_mod v w).symm⟩

/-! ## Bytes -/

theorem bytesToBits_cons (b : Byte) (bs : Bytes) : bytesToBits (b :: bs) = byteToBits b ++ bytesToBits bs := rfl

theorem bytesToBits_append (a b : Bytes) : bytesToBits (a ++ b) = bytesToBits a ++ bytesToBits b := List.flatMap_append

theorem bitsToNat_byteToBits (b : Byte) : bitsToNat (byteToBits b) = b.toNat := by
  rw [byteToBits_eq_natToBits, bitsToNat_natToBits, Nat.mod_eq_of_lt b.isLt]

theorem byteToBits_bitsToByte (x7 x6 x5 x4 x3 x2 x1 x0 : Bool) :
    byteToBits (bitsToByte x7 x6 x5 x4 x3 x2 x1 x0) = [x7, x6, x5, x4, x3, x2, x1, x0] := by
  rw [bitsToByte_eq_bitsToNat, byteToBits_eq_natToBits, BitVec.toNat_ofNat, natToBits_mod]
  exact natToBits_bitsToNat [x7, x6, x5, x4, x3, x2, x1, x0]

theorem bytesToBits_packBytes : ∀ {s : Bits}, s.length % 8 = 0 → bytesToBits (packBytes s) = s
  | x7 :: x6 :: x5 :: x4 :: x3 :: x2 :: x1 :: x0 :: xs, h => by
    rw [packBytes, bytesToBits_cons, byteToBits_bitsToByte, bytesToBits_packBytes (s := xs) (by simp only [List.length_cons] at h; omega)]
    rfl
  | [], _ => rfl

/-- An aligned sequence is the bits of its bytes (R123). -/
theorem exists_bytesToBits_eq {s : Bits} (h : s.length % 8 = 0) : ∃ bs, bitsToBytes s = .ok bs ∧ bytesToBits bs = s :=
  ⟨packBytes s, bitsToBytes_aligned h, bytesToBits_packBytes h⟩

/-- A byte is the weighted sum of the eight bits at its positions (R122). -/
theorem toNat_eq_of_bytesToBits_eq {s : Bits} {bs : Bytes} (h : bytesToBits bs = s) {j : Nat} (hj : j < bs.length) :
    bs[j].toNat =
      (s.getD (8 * j) false).toNat * 128 + (s.getD (8 * j + 1) false).toNat * 64 + (s.getD (8 * j + 2) false).toNat * 32
      + (s.getD (8 * j + 3) false).toNat * 16 + (s.getD (8 * j + 4) false).toNat * 8 + (s.getD (8 * j + 5) false).toNat * 4
      + (s.getD (8 * j + 6) false).toNat * 2 + (s.getD (8 * j + 7) false).toNat := by
  have hbit {k : Nat} (hk : k < 8) : s.getD (8 * j + k) false = bs[j].getLsbD (7 - k) := by
    rw [List.getD_eq_getElem?_getD, ← h, getElem?_bytesToBits bs hj hk, Option.getD_some]
  have hfirst : s.getD (8 * j) false = bs[j].getLsbD 7 := hbit (k := 0) (by decide)
  rw [← bitsToNat_byteToBits]
  simp (disch := decide) only [hfirst, hbit]
  simp [byteToBits, bitsToNat, Nat.add_assoc]

/-- Settles O1: position by position; the examples are evaluated. -/
theorem bytesToBitsIsMsbFirst : Obligations.BytesToBitsIsMsbFirst :=
  ⟨fun bs => ⟨length_bytesToBits bs, fun _ _ => getElem?_bytesToBits bs⟩, rfl, by decide, by decide, by decide⟩

/-- Settles O2: an aligned sequence is the bits of its bytes, so each byte weighs the eight bits at its positions. -/
theorem bitsToBytesWeighsEightBits : Obligations.BitsToBytesWeighsEightBits := by
  refine ⟨fun s => bitsToBytes_misaligned, ?weights, bitsToBytes_bytesToBits, rfl, by decide, rfl⟩
  case weights =>
    intro s hs
    obtain ⟨bs, hok, hbits⟩ := exists_bytesToBits_eq hs
    exact ⟨bs, hok, length_of_bitsToBytes hok, fun j => toNat_eq_of_bytesToBits_eq hbits⟩

/-- Settles O3: packing the bits of bytes gives the bytes back, and an aligned sequence is the bits of its bytes. -/
theorem bitCodecIsInverse : Obligations.BitCodecIsInverse :=
  ⟨length_bytesToBits, bytesToBits_append, bitsToBytes_bytesToBits, fun _ => exists_bytesToBits_eq⟩

/-! ## Bytes and numbers at width 32 -/

/-- The leading byte of a byte sequence is its most significant one (R124). -/
theorem bitsToNat_bytesToBits_cons (b : Byte) (bs : Bytes) :
    bitsToNat (bytesToBits (b :: bs)) = b.toNat * 2 ^ (8 * bs.length) + bitsToNat (bytesToBits bs) := by
  rw [bytesToBits_cons, bitsToNat_append, bitsToNat_byteToBits, length_bytesToBits]

theorem bitsToNat_eq_bigEndian {s : Bits} (h : s.length = 32) : ∃ b3 b2 b1 b0 : Byte, bitsToBytes s = .ok [b3, b2, b1, b0] ∧
    bitsToNat s = b3.toNat * 2 ^ 24 + b2.toNat * 2 ^ 16 + b1.toNat * 2 ^ 8 + b0.toNat := by
  obtain ⟨bs, hok, rfl⟩ := exists_bytesToBits_eq (s := s) (by omega)
  have hfour : bs.length = 4 := by rw [length_bytesToBits] at h; omega
  obtain ⟨b3, b2, b1, b0, rfl⟩ := List.length_eq_four.1 hfour
  refine ⟨b3, b2, b1, b0, hok, ?_⟩
  simp only [bitsToNat_bytesToBits_cons, List.length_cons, List.length_nil]
  simp [bytesToBits, bitsToNat, Nat.add_assoc]

/-- Settles O4: the sum, the numeral and the inverses hold at every width; at width 32 the numeral is that of the four bytes; the
examples are evaluated. -/
theorem bitsAndNumbersAgree : Obligations.BitsAndNumbersAgree := by
  refine ⟨bitsToNat_eq_sum, fun v w _ => ⟨length_natToBits v w, fun _ => getElem?_natToBits v⟩, fun v w hv => ?value,
    natToBits_bitsToNat, fun n => (bytesToBits_be32 n).symm, fun _ => bitsToNat_eq_bigEndian, by decide, by decide⟩
  case value => rw [bitsToNat_natToBits, Nat.mod_eq_of_lt hv]

end Sys2Proof.Machine
end

section
/-! O7 and O8: the header decoder reads every sequence of 579 bits, and encoding what it reads gives the sequence back (R132, R133). -/

namespace Sys2Proof.Machine

/-! ## Slices -/

theorem slice_append_slice {α : Type} (l : List α) {a b c : Nat} (hab : a ≤ b) (hbc : b ≤ c) :
    slice l a b ++ slice l b c = slice l a c := by
  have hdrop : l.drop b = (l.drop a).drop (b - a) := by rw [List.drop_drop, Nat.add_sub_cancel' hab]
  rw [slice, slice, slice, hdrop, ← List.take_add, show b - a + (c - b) = c - a by omega]

theorem slice_zero_length {α : Type} {l : List α} {n : Nat} (h : l.length = n) : slice l 0 n = l := by
  rw [slice, List.drop_zero, Nat.sub_zero, ← h, List.take_length]

/-- The header's five fields follow each other without a gap (R95). -/
theorem append_slices_of_length {s : Bits} (h : s.length = 579) :
    slice s 0 1 ++ slice s 1 3 ++ slice s 3 515 ++ slice s 515 547 ++ slice s 547 579 = s := by
  simp (disch := decide) only [slice_append_slice, slice_zero_length h]

/-! ## Each field and its slice -/

/-- A field as wide as its slice holds the slice's number without loss. -/
theorem toNat_ofNat_bitsToNat_slice {s : Bits} {a b w : Nat} (hb : b ≤ s.length) (hw : b - a = w) :
    (BitVec.ofNat w (bitsToNat (slice s a b))).toNat = bitsToNat (slice s a b) := by
  have hlt := bitsToNat_lt (slice s a b)
  rw [length_slice s hb, hw] at hlt
  rw [BitVec.toNat_ofNat, Nat.mod_eq_of_lt hlt]

theorem natToBits_bitsToNat_slice {s : Bits} {a b w : Nat} (hb : b ≤ s.length) (hw : b - a = w) :
    natToBits (bitsToNat (slice s a b)) w = slice s a b := by
  rw [← hw, ← length_slice s hb, natToBits_bitsToNat]

theorem toList_fname64 {bs : Bytes} (h : bs.length = 64) : (fname64 bs).toList = bs := by
  have htake := take_fname64 h.le
  rwa [List.take_of_length_le (by simp [h])] at htake

theorem bytesToBits_of_bitsToBytes {s : Bits} {bs : Bytes} (h : bitsToBytes s = .ok bs) : bytesToBits bs = s := by
  by_cases hs : s.length % 8 = 0
  · rw [bitsToBytes_aligned hs] at h
    cases h
    exact bytesToBits_packBytes hs
  · rw [bitsToBytes_misaligned hs] at h
    cases h

/-! ## The decoder -/

theorem hdrDecode_of_lt {s : Bits} (h : s.length < 579) : hdrDecode s = .error .truncatedHeader := if_pos h

/-- The filename bits are 64 whole bytes, so nothing in 579 bits is rejected (R132). -/
theorem hdrDecode_fields {s : Bits} (h : s.length = 579) : ∃ hdr, hdrDecode s = .ok hdr ∧
    hdr.info.toNat = bitsToNat (slice s 0 1) ∧
    hdr.method.toNat = bitsToNat (slice s 1 3) ∧
    bitsToBytes (slice s 3 515) = .ok hdr.fname.toList ∧
    hdr.first.toNat = bitsToNat (slice s 515 547) ∧
    hdr.last.toNat = bitsToNat (slice s 547 579) := by
  have hbits : (slice s 3 515).length = 512 := length_slice s (by omega)
  have hname : bitsToBytes (slice s 3 515) = .ok (packBytes (slice s 3 515)) := bitsToBytes_aligned (by rw [hbits])
  have hbytes : (packBytes (slice s 3 515)).length = 64 := by rw [length_packBytes, hbits]
  refine ⟨_, by rw [hdrDecode, if_neg (by rw [h, Config.hdrBits]; decide), hname], ?info, ?method, ?fname, ?first, ?last⟩
  case fname => rw [hname, toList_fname64 hbytes]
  all_goals exact toNat_ofNat_bitsToNat_slice (by omega) rfl

theorem hdrEncode_of_hdrDecode {s : Bits} {hdr : Header} (h : s.length = 579) (hok : hdrDecode s = .ok hdr) :
    hdrEncode hdr = s := by
  obtain ⟨hdr', hok', hinfo, hmethod, hfname, hfirst, hlast⟩ := hdrDecode_fields h
  obtain rfl : hdr' = hdr := by simpa [hok'] using hok
  calc hdrEncode hdr'
      = slice s 0 1 ++ slice s 1 3 ++ slice s 3 515 ++ slice s 515 547 ++ slice s 547 579 := by
        rw [hdrEncode, hinfo, hmethod, bytesToBits_of_bitsToBytes hfname, hfirst, hlast, Config.wInfo, Config.wMethod,
          Config.wPos]
        simp (disch := omega) only [natToBits_bitsToNat_slice]
    _ = s := append_slices_of_length h

/-- Settles O7: below 579 bits the decoder stops; at 579 every field is as wide as its slice. -/
theorem headerDecodeReadsFields : Obligations.HeaderDecodeReadsFields :=
  ⟨fun _ => hdrDecode_of_lt, fun _ => hdrDecode_fields⟩

/-- Settles O8: the frame of a header has its fields as slices, and the slices of 579 bits make up the sequence. -/
theorem headerCodecIsBijection : Obligations.HeaderCodecIsBijection := by
  refine ⟨hdrDecode_hdrEncode, fun s hs => ?_⟩
  obtain ⟨hdr, hok, -⟩ := hdrDecode_fields hs
  exact ⟨hdr, hok, hdrEncode_of_hdrDecode hs hok⟩

end Sys2Proof.Machine
end

section
/-! O22 to O24: the header commands HDRWR and HDRRD, and their round trips (R135 to R137). -/

namespace Sys2Proof.Machine

/-! ## What `writeBits` leaves alone -/

/-- `writeBits` changes only PIX. -/
theorem writeBits_eq_withPix (s : State) (S : List Nat) (xs : Bits) :
    s.writeBits S xs = { s with pix := (s.writeBits S xs).pix } := by
  induction S generalizing s xs with
  | nil => cases xs <;> rfl
  | cons i S ih => cases xs with
    | nil => rfl
    | cons x xs => exact ih (s.pixSetBit i x) xs

theorem onlyLsbChangesAt_writeBits (s : State) (S : List Nat) (xs : Bits) :
    OnlyLsbChangesAt (S.take xs.length) s (s.writeBits S xs) :=
  ⟨fun _ => writeBits_pixCell_other s S xs, writeBits_keeps_upper s S xs⟩

theorem onlyLsbChangesAt_writeHeader (s : State) (h : Header) :
    OnlyLsbChangesAt (List.range 579) s (s.writeHeader h) := by
  have hall : headerIndices.take (hdrEncode h).length = List.range 579 := List.take_of_length_le (by simp)
  exact hall ▸ onlyLsbChangesAt_writeBits s headerIndices (hdrEncode h)

theorem setBlueLsb_self (p : Pixel) : { p with b := setBlueLsb p.b (p.b.getLsbD 0) } = p :=
  congrArg (fun b => { p with b := b }) (setBlueLsb_of_getLsbD_eq rfl)

/-- Writing the data bits that are there already changes no pixel. -/
theorem samePix_writeBits_readBits {s t : State} (h : SamePix s t) (S : List Nat) :
    SamePix s (t.writeBits S (s.readBits S)) := by
  induction S generalizing t with
  | nil => exact h
  | cons i S ih =>
    refine ih fun j => ?_
    rw [pixCell_pixSetBit, h i]
    split
    · next hj => rw [hj]; exact setBlueLsb_self (s.pixCell i)
    · exact h j

theorem samePix_writeHeader {s : State} {h : Header} (hbits : s.headerBits = hdrEncode h) : SamePix s (s.writeHeader h) := by
  rw [State.writeHeader, ← hbits]
  exact samePix_writeBits_readBits (fun _ => rfl) headerIndices

/-- A pixel of which only the data bit may have changed is determined by that bit. -/
theorem OnlyLsbChangesAt.pixCell_eq {S : List Nat} {s t : State} (h : OnlyLsbChangesAt S s t) (idx : Nat) :
    t.pixCell idx = { s.pixCell idx with b := setBlueLsb (s.pixCell idx).b (t.pixGetBit idx) } := by
  obtain ⟨hr, hg, hb⟩ := h.2 idx
  calc t.pixCell idx
      = { t.pixCell idx with b := setBlueLsb (t.pixCell idx).b (t.pixGetBit idx) } := (setBlueLsb_self _).symm
    _ = { s.pixCell idx with b := setBlueLsb (s.pixCell idx).b (t.pixGetBit idx) } := by simp only [setBlueLsb, hr, hg, hb]

theorem OnlyLsbChangesAt.complete {S : List Nat} {s t : State} (h : OnlyLsbChangesAt S s t) (endFlag : Bool) :
    OnlyLsbChangesAt S s (t.complete endFlag) := h

theorem SamePix.complete {s t : State} (h : SamePix s t) (endFlag : Bool) : SamePix s (t.complete endFlag) := h

/-! ## The two commands -/

section
variable {s : State}

theorem exec_hdrwr_of_lt (hN : s.pixelCount < 579) : exec .hdrwr s = .next (s.raise .imageTooSmall) :=
  exec_of_ends (.raises (e := .imageTooSmall) (if_pos hN) (by decide))

theorem exec_hdrrd_of_lt (hN : s.pixelCount < 579) : exec .hdrrd s = .next (s.raise .truncatedHeader) :=
  exec_of_ends (.raises (e := .truncatedHeader) (if_pos hN) (by decide))

theorem exec_hdrwr (hN : 579 ≤ s.pixelCount) : exec .hdrwr s = .next ((s.writeHeader s.hdr).complete false) :=
  exec_of_ends (.hdrwr (if_neg hN.not_gt))

theorem exec_hdrrd {h : Header} (hN : 579 ≤ s.pixelCount) (hh : hdrDecode s.headerBits = .ok h) :
    exec .hdrrd s = .next ({ s with hdr := h }.complete false) :=
  exec_of_ends (.hdrrd (if_neg hN.not_gt) hh)

/-- HDRRD changes nothing when the last command completed and HDR is what the pixels hold. -/
theorem exec_hdrrd_self (hN : 579 ≤ s.pixelCount) (hst : s.status = 0x002#12) (hh : hdrDecode s.headerBits = .ok s.hdr) :
    exec .hdrrd s = .next s := by
  have hcomplete : s.complete false = s := by rw [State.complete, show statusCompleted false = s.status from hst.symm]
  rw [exec_hdrrd hN hh]
  exact congrArg _ hcomplete

end

/-- HDRWR of the header that the pixels hold already changes no pixel. -/
theorem exec_hdrwr_samePix {s : State} (hN : 579 ≤ s.pixelCount) (hbits : s.headerBits = hdrEncode s.hdr) :
    ∃ u, exec .hdrwr s = .next u ∧ SamePix s u :=
  ⟨_, exec_hdrwr hN, (samePix_writeHeader hbits).complete false⟩

/-! ## The example of R131 and R135 -/

/-- The header of a one-byte text embedded under method 0. -/
def exampleHeader : Header := { info := 0#1, method := 0#2, fname := Vector.replicate 64 0#8, first := 579#32, last := 618#32 }

/-- The positions of the ones in the frame of `exampleHeader`. -/
def exampleOnes : List Nat := [537, 540, 545, 546, 569, 572, 573, 575, 577]

theorem hdrEncode_exampleHeader : hdrEncode exampleHeader = (List.range 579).map (fun i => decide (i ∈ exampleOnes)) :=
  headerFrameLayout.2

theorem lt_of_mem_exampleOnes : ∀ idx ∈ exampleOnes, idx < 579 := by decide

/-- HDRWR of the example header into black pixels. -/
theorem pixCell_writeHeader_example {s : State} {idx : Nat} (hblack : s.pixCell idx = ⟨0#8, 0#8, 0#8⟩) :
    (s.writeHeader exampleHeader).pixCell idx = if idx ∈ exampleOnes then ⟨0#8, 0#8, 1#8⟩ else ⟨0#8, 0#8, 0#8⟩ := by
  have hchange := onlyLsbChangesAt_writeHeader s exampleHeader
  by_cases hidx : idx < 579
  · have hbit : (s.writeHeader exampleHeader).pixGetBit idx = decide (idx ∈ exampleOnes) :=
      List.map_inj_left.1 ((headerBits_writeHeader s exampleHeader).trans hdrEncode_exampleHeader) idx (List.mem_range.2 hidx)
    rw [hchange.pixCell_eq, hbit, hblack]
    by_cases hone : idx ∈ exampleOnes
    · rw [decide_eq_true hone, if_pos hone]; rfl
    · rw [decide_eq_false hone, if_neg hone]; rfl
  · rw [hchange.1 idx (hidx ∘ List.mem_range.1), hblack, if_neg (hidx ∘ lt_of_mem_exampleOnes idx)]

/-- Settles O22: HDRWR writes the bits of the header frame in place, and the second time they are there already. -/
theorem hdrwrWritesHeaderRegion : Obligations.HdrwrWritesHeaderRegion := by
  refine ⟨rfl, fun s => exec_hdrwr_of_lt, fun s hN => ?writes, ?worked⟩
  case writes =>
    have hbits : ((s.writeHeader s.hdr).complete false).headerBits = hdrEncode s.hdr := by simp
    refine ⟨_, exec_hdrwr hN, ?frame, hbits, (onlyLsbChangesAt_writeHeader s s.hdr).complete false,
      exec_hdrwr_samePix (by simpa using hN) (by simp)⟩
    case frame =>
      rw [State.writeHeader, writeBits_eq_withPix]
      rfl
  case worked =>
    intro s hw hh hblack hhdr
    refine ⟨_, exec_hdrwr (by rw [State.pixelCount, hw, hh]; decide), fun idx hidx => ?_⟩
    rw [complete_pixCell, hhdr]
    exact pixCell_writeHeader_example (hblack idx hidx)

/-- Settles O23: the 579 bits of the header region always decode; the example's bits are the frame of its header. -/
theorem hdrrdReadsHeaderRegion : Obligations.HdrrdReadsHeaderRegion := by
  refine ⟨rfl, fun s => exec_hdrrd_of_lt, fun s hN => ?reads, fun s hN hbits => ?worked⟩
  case reads =>
    obtain ⟨h, hh, -⟩ := hdrDecode_fields (length_headerBits s)
    exact ⟨h, hh, exec_hdrrd hN hh⟩
  case worked =>
    have hframe : s.headerBits = hdrEncode exampleHeader :=
      (List.map_congr_left fun idx hidx => hbits idx (List.mem_range.1 hidx)).trans hdrEncode_exampleHeader.symm
    exact exec_hdrrd hN (by rw [hframe, hdrDecode_hdrEncode])

/-! ## Round trips -/

/-- A completed EMBED had room for the header, and HDR holds the header it placed. -/
theorem Ends.embed_completed {s t : State} (h : Ends s .embed t) (hst : t.status = 0x002#12) :
    579 ≤ t.pixelCount ∧ ∃ m, t.hdr = s.placedHeader m := by
  cases h with
  | raises | embedCapacity => exact absurd hst (statusRaised_ne_completed _)
  | @embed m herr =>
    obtain ⟨-, hN⟩ := operands_of_firstError_embed (s := s) (by simp [herr])
    exact ⟨by simpa [State.pixelCount] using hN, m, by simp⟩

/-- Settles O24: decoding undoes encoding and encoding undoes decoding, and EMBED leaves in the pixels the header that HDR holds. -/
theorem headerCommandsRoundTrip : Obligations.HeaderCommandsRoundTrip := by
  refine ⟨fun s t hN hexec => ?writeRead, fun s t hN hexec => ?readWrite, fun s t hexec hst => ?embedRead⟩
  case writeRead =>
    obtain rfl : (s.writeHeader s.hdr).complete false = t := by simpa [exec_hdrwr hN] using hexec
    exact ⟨exec_hdrrd_self (by simpa using hN) rfl (by simp [hdrDecode_hdrEncode]), by simp⟩
  case readWrite =>
    obtain ⟨h, hh, -⟩ := hdrDecode_fields (length_headerBits s)
    obtain rfl : { s with hdr := h }.complete false = t := by simpa [exec_hdrrd hN hh] using hexec
    exact exec_hdrwr_samePix hN (hdrEncode_of_hdrDecode (length_headerBits s) hh).symm
  case embedRead =>
    have hends := ends_of_exec hexec
    obtain ⟨hN, m, hhdr⟩ := hends.embed_completed hst
    exact ⟨exec_hdrrd_self hN hst (hends.hdr_of_embed (by rw [hst]; rfl)), _, _, hhdr⟩

end Sys2Proof.Machine
end

section
/-! O14 to O19: the eligible and the filtered sequences, member by member and by their lengths (R146 to R153, R156, R157). -/

namespace Sys2Proof.Machine

/-! ## The sequences -/

/-- Below a floor inside the image stand the eligible indices that the floor drops, in order (R151). -/
theorem eligibleIndices_eq_append {W H f : Nat} (m : Method) (hf : f ≤ W * H) :
    eligibleIndices W H m = (List.range f).filter (elig W H m) ++ filteredIndices W H m f := by
  refine (eligibleIndices_ascending W H m).eq_of_mem_iff (List.pairwise_append.2
    ⟨List.pairwise_lt_range.filter _, filteredIndices_ascending W H m f, fun i hi j hj => ?below⟩) fun idx => ?mem
  case below =>
    have hlt : i < f := List.mem_range.1 (List.mem_filter.1 hi).1
    exact hlt.trans_le (mem_filteredIndices.1 hj).2
  case mem =>
    rw [List.mem_append, List.mem_filter, List.mem_range, mem_eligibleIndices, mem_filteredIndices]
    by_cases hidx : idx < f
    · simp [hidx, hidx.trans_le hf]
    · simp [hidx, Nat.le_of_not_lt hidx]

theorem filter_lt_eligibleIndices {W H f : Nat} (m : Method) (hf : f ≤ W * H) :
    (eligibleIndices W H m).filter (fun idx => decide (idx < f)) = (List.range f).filter (elig W H m) := by
  refine ((eligibleIndices_ascending W H m).filter _).eq_of_mem_iff (List.pairwise_lt_range.filter _) fun idx => ?_
  simp only [List.mem_filter, List.mem_range, mem_eligibleIndices, decide_eq_true_eq]
  constructor
  · rintro ⟨⟨-, helig⟩, hlt⟩
    exact ⟨hlt, helig⟩
  · rintro ⟨hlt, helig⟩
    exact ⟨⟨hlt.trans_le hf, helig⟩, hlt⟩

theorem filteredIndices_zero (W H : Nat) (m : Method) : filteredIndices W H m 0 = eligibleIndices W H m :=
  List.filter_eq_self.2 fun idx _ => decide_eq_true idx.zero_le

theorem filteredIndices_eq_nil {W H f : Nat} (m : Method) (hf : W * H ≤ f) : filteredIndices W H m f = [] := by
  refine List.eq_nil_iff_forall_not_mem.2 fun idx hmem => ?_
  obtain ⟨⟨hlt, -⟩, hle⟩ := mem_filteredIndices.1 hmem
  omega

theorem eligibleIndices_eq_nil {W H : Nat} (m : Method) (hN : W * H = 0) : eligibleIndices W H m = [] := by
  rw [← filteredIndices_zero, filteredIndices_eq_nil m hN.le]

/-- A floor inside the image drops the eligible indices below it, and no more (R151). -/
theorem filteredIndices_eq_drop {W H f : Nat} (m : Method) (hf : f ≤ W * H) :
    filteredIndices W H m f = (eligibleIndices W H m).drop ((List.range f).filter (elig W H m)).length := by
  rw [eligibleIndices_eq_append m hf, List.drop_left]

/-! ## Parity -/

/-- In an image of odd width the index has the parity of `x + y` (R147). -/
theorem mod_two_of_odd_width {W idx : Nat} (hW : W % 2 = 1) : idx % 2 = (idx % W + idx / W) % 2 := by
  have hxy : W * (idx / W) + idx % W = idx := Nat.div_add_mod idx W
  have hW2 : W = 2 * (W / 2) + 1 := by omega
  have hprod : W * (idx / W) = 2 * (W / 2 * (idx / W)) + idx / W := by
    calc W * (idx / W) = (2 * (W / 2) + 1) * (idx / W) := by rw [← hW2]
      _ = 2 * (W / 2 * (idx / W)) + idx / W := by ring
  omega

/-- Settles O14: methods 0 to 2 by the index, the border by column and row, and the parity of the index in both. -/
theorem eligibilityByMethod : Obligations.EligibilityByMethod := by
  refine fun W H idx h => ⟨rfl, beq_iff_eq, beq_iff_eq, elig_border_iff h, fun hW => ?checkerboard, fun hW => ?columns⟩
  case checkerboard => rw [← mod_two_of_odd_width hW]; exact beq_iff_eq
  case columns => rw [Nat.mod_mod_of_dvd idx (Nat.dvd_of_mod_eq_zero hW)]; exact beq_iff_eq

/-- Settles O15: ascending and exact by construction; the one index of a single pixel is 0, which is not odd. -/
theorem eligibleSequenceAscending : Obligations.EligibleSequenceAscending := by
  refine fun W H m => ⟨eligibleIndices_ascending W H m, fun _ => mem_eligibleIndices, eligibleIndices_eq_nil m, fun hN => ?_⟩
  rw [eligibleIndices, hN]
  rfl

/-! ## Border pixels -/

/-- With a side of at most 2 every pixel is a border pixel (R153). -/
theorem elig_border_of_thin {W H idx : Nat} (h : idx < W * H) (hthin : W ≤ 2 ∨ H ≤ 2) : elig W H .border idx = true := by
  have hx : idx % W < W := Nat.mod_lt _ (Nat.pos_of_mul_pos_right (Nat.zero_lt_of_lt h))
  have hy : idx / W < H := Nat.div_lt_of_lt_mul h
  rw [elig_border_iff h]
  generalize idx / W = y at hy ⊢
  omega

/-- Settles O17: column and row are 0 or the last one when the side is at most 2. -/
theorem thinImagesAreAllBorder : Obligations.ThinImagesAreAllBorder := by
  refine ⟨fun W H idx => elig_border_of_thin, fun W H idx h hinterior => ?_, fun W H => eligibleIndices_eq_nil .border⟩
  by_contra hthin
  have hborder := elig_border_of_thin h (by omega)
  rw [hinterior] at hborder
  cases hborder

/-- Settles O19: the border of the 5x4 image, evaluated. -/
theorem borderOfFiveByFour : Obligations.BorderOfFiveByFour := by
  unfold Obligations.BorderOfFiveByFour
  decide

/-! ## Counts -/

theorem length_filter_range (p : Nat → Bool) (n : Nat) : ((List.range n).filter p).length = Nat.count (p · = true) n := by
  rw [← List.countP_eq_length_filter, Nat.count]
  simp only [Bool.decide_eq_true]

theorem count_congr {p q : Nat → Prop} [DecidablePred p] [DecidablePred q] {n : Nat} (h : ∀ k < n, (p k ↔ q k)) :
    Nat.count p n = Nat.count q n :=
  (Nat.count_mono_left fun k hk => (h k hk).1).antisymm (Nat.count_mono_left fun k hk => (h k hk).2)

section
variable {W H : Nat}

theorem count_elig_all (n : Nat) : Nat.count (elig W H .all · = true) n = n := Nat.count_of_forall fun _ _ => rfl

theorem count_elig_even (n : Nat) : Nat.count (elig W H .even · = true) n = (n + 1) / 2 := by
  induction n with
  | zero => rfl
  | succ n ih =>
    rw [Nat.count_succ, ih]
    simp only [elig, beq_iff_eq]
    split <;> omega

theorem count_elig_odd (n : Nat) : Nat.count (elig W H .odd · = true) n = n / 2 := by
  induction n with
  | zero => rfl
  | succ n ih =>
    rw [Nat.count_succ, ih]
    simp only [elig, beq_iff_eq]
    split <;> omega

theorem length_eligibleIndices (m : Method) :
    (eligibleIndices W H m).length = Nat.count (elig W H m · = true) (W * H) := length_filter_range _ _

/-- A floor inside the image drops the eligible indices below it (R156). -/
theorem length_filteredIndices (m : Method) {f : Nat} (hf : f ≤ W * H) : (filteredIndices W H m f).length =
    Nat.count (elig W H m · = true) (W * H) - Nat.count (elig W H m · = true) f := by
  rw [filteredIndices_eq_drop m hf, List.length_drop, length_filter_range, length_eligibleIndices]

/-- Settles O16: membership and order by construction; the header region has 290 even indices. -/
theorem filteredSequenceDropsByValue : Obligations.FilteredSequenceDropsByValue := by
  refine fun W H m f => ⟨rfl, filteredIndices_ascending W H m f, fun idx => ?mem, filteredIndices_zero W H m,
    filteredIndices_eq_nil m, fun hN => ?header⟩
  case mem => rw [mem_filteredIndices, and_comm]
  case header =>
    have hdropped : ((List.range 579).filter (elig W H .even)).length = 290 := by rw [length_filter_range, count_elig_even]
    exact ⟨by rw [filter_lt_eligibleIndices .even hN, hdropped], by rw [filteredIndices_eq_drop .even hN, hdropped]⟩

/-! ## The border, row by row -/

/-- A pixel of the image has its index below `N` (R11). -/
theorem index_lt_of_row {x y : Nat} (hx : x < W) (hy : y < H) : W * y + x < W * H := calc
  W * y + x < W * (y + 1) := by rw [Nat.mul_succ]; omega
  _ ≤ W * H := Nat.mul_le_mul_left W hy

theorem elig_border_row_iff {x y : Nat} (hx : x < W) (hy : y < H) :
    elig W H .border (W * y + x) = true ↔ x = 0 ∨ x = W - 1 ∨ y = 0 ∨ y = H - 1 := by
  rw [elig_border_iff (index_lt_of_row hx hy), Nat.mul_add_mod, Nat.mod_eq_of_lt hx, Nat.mul_add_div (by omega), Nat.div_eq_of_lt hx, Nat.add_zero]

/-- The two ends of a row. -/
theorem count_row_ends (W : Nat) : Nat.count (fun x => x = 0 ∨ x = W - 1) W = min W 2 := by
  match W with
  | 0 | 1 => rfl
  | k + 2 =>
    have hinner : Nat.count (fun x => x + 1 = 0 ∨ x + 1 = k + 1) k = 0 := Nat.count_iff_forall_not.2 fun x hx => by omega
    rw [show k + 2 - 1 = k + 1 from rfl, Nat.count_succ, Nat.count_succ', hinner]
    simp

/-- The border pixels of row `y` (R156). -/
theorem count_border_row {y : Nat} (hy : y < H) : Nat.count (fun x => elig W H .border (W * y + x) = true) W =
    if y = 0 ∨ y = H - 1 then W else min W 2 := by
  rw [count_congr fun x hx => elig_border_row_iff hx hy]
  split
  · next hedge => exact Nat.count_of_forall fun x _ => .inr (.inr hedge)
  · next hinner => simp only [hinner, or_false, count_row_ends]

/-- Row `y` of the eligible sequence. -/
theorem filter_row_eligibleIndices (m : Method) {y : Nat} (hy : y < H) :
    (eligibleIndices W H m).filter (fun idx => idx / W == y) =
      ((List.range W).filter (fun x => elig W H m (W * y + x))).map (W * y + ·) := by
  refine ((eligibleIndices_ascending W H m).filter _).eq_of_mem_iff
    ((List.pairwise_lt_range.filter _).map _ fun _ _ h => Nat.add_lt_add_left h _) fun idx => ?_
  simp only [List.mem_filter, List.mem_map, List.mem_range, mem_eligibleIndices, beq_iff_eq]
  constructor
  · rintro ⟨⟨hlt, helig⟩, rfl⟩
    have hxy := Nat.div_add_mod idx W
    exact ⟨idx % W, ⟨Nat.mod_lt _ (Nat.pos_of_mul_pos_right (Nat.zero_lt_of_lt hlt)), by rwa [hxy]⟩, hxy⟩
  · rintro ⟨x, ⟨hx, helig⟩, rfl⟩
    exact ⟨⟨index_lt_of_row hx hy, helig⟩, by rw [Nat.mul_add_div (by omega), Nat.div_eq_of_lt hx, Nat.add_zero]⟩

/-- The indices of an image, counted row by row. -/
theorem count_rows (p : Nat → Prop) [DecidablePred p] (W H : Nat) :
    Nat.count p (W * H) = ∑ y ∈ Finset.range H, Nat.count (fun x => p (W * y + x)) W := by
  induction H with
  | zero => rfl
  | succ H ih => rw [Nat.mul_succ, Nat.count_add, ih, Finset.sum_range_succ]

theorem length_border_of_thin (hthin : W ≤ 2 ∨ H ≤ 2) : (eligibleIndices W H .border).length = W * H := by
  rw [length_eligibleIndices, Nat.count_of_forall fun _ h => elig_border_of_thin h hthin]

/-- Two full rows, and two pixels in each row between them (R156). -/
theorem length_border (hW : 2 ≤ W) (hH : 2 ≤ H) : (eligibleIndices W H .border).length = 2 * W + 2 * H - 4 := by
  rw [length_eligibleIndices, count_rows, Finset.sum_congr rfl fun y hy => count_border_row (Finset.mem_range.1 hy)]
  obtain ⟨k, rfl⟩ := Nat.exists_eq_add_of_le' hH
  have hinner : ∑ y ∈ Finset.range k, (if y + 1 = 0 ∨ y + 1 = k + 2 - 1 then W else min W 2) = ∑ _y ∈ Finset.range k, 2 :=
    Finset.sum_congr rfl fun y hy => by
      have hlt := Finset.mem_range.1 hy
      rw [if_neg (by omega), Nat.min_eq_right hW]
  rw [Finset.sum_range_succ, Finset.sum_range_succ', hinner]
  simp
  omega

end

/-- Settles O18: the whole counts, those above a floor as a difference of two counts, and the border counted row by row. -/
theorem selectorCountsClosedForm : Obligations.SelectorCountsClosedForm := by
  intro W H
  have hfloor : ∀ f, f ≤ W * H → (filteredIndices W H .all f).length = W * H - f ∧
      (filteredIndices W H .even f).length = (W * H + 1) / 2 - (f + 1) / 2 ∧
      (filteredIndices W H .odd f).length = W * H / 2 - f / 2 := fun f hf => by
    simp only [length_filteredIndices _ hf, count_elig_all, count_elig_even, count_elig_odd, and_self]
  refine ⟨?all, ?even, ?odd, length_border, fun hthin => length_border_of_thin (by omega), hfloor, fun f m hf => ?above,
    hfloor 579, fun y hy => ?row⟩
  case all => rw [length_eligibleIndices, count_elig_all]
  case even => rw [length_eligibleIndices, count_elig_even]
  case odd => rw [length_eligibleIndices, count_elig_odd]
  case above => rw [filteredIndices_eq_nil m hf.le, List.length_nil]
  case row => rw [filter_row_eligibleIndices .border hy, List.length_map, length_filter_range, count_border_row hy]

end Sys2Proof.Machine
end

section
/-! O20 and O21: the selector commands SELNEXT and SELCNT (R154, R155). -/

namespace Sys2Proof.Machine

section
variable {s t : State} {m : Method}

theorem filtered_eq_nil (m : Method) {f : Nat} (hf : s.pixelCount ≤ f) : s.filtered m f = [] := filteredIndices_eq_nil m hf

/-- The image and the sequence it gives, for a state with known dimensions. -/
theorem filtered_of_dimensions {W H : BitVec 16} {f : BitVec 32} (m : Method) (hw : s.width = W) (hh : s.height = H)
    (hf : s.floor = f) : s.filtered m s.floor.toNat = filteredIndices W.toNat H.toNat m f.toNat := by
  rw [State.filtered, hw, hh, hf]

/-! ## What the two commands do -/

theorem exec_selector_of_lt {i : Instr} (hi : i ∈ [Instr.selnext, .selcnt]) (hm : 3 < s.method.toNat) :
    exec i s = .next (s.raise .unsupportedMethod) := by
  have herr : firstError i s = some .unsupportedMethod := by fin_cases hi <;> exact if_pos hm
  exact exec_of_ends (.raises herr (by decide))

theorem exec_selnext_found {idx : Nat} {rest : List Nat} (hm : s.method.toNat = methodCode m)
    (hS : s.filtered m s.floor.toNat = idx :: rest) :
    exec .selnext s = .next { s with result := BitVec.ofNat 32 idx, status := 0x002#12 } :=
  exec_of_ends (.selnextFound (firstError_selector hm).1 hm hS)

theorem exec_selnext_end (hm : s.method.toNat = methodCode m) (hS : s.filtered m s.floor.toNat = []) :
    exec .selnext s = .next { s with result := 0xFFFFFFFF#32, status := 0x00A#12 } :=
  exec_of_ends (.selnextEnd (firstError_selector hm).1 hm hS)

theorem exec_selcnt {n : Nat} (hm : s.method.toNat = methodCode m) (hn : (s.filtered m s.floor.toNat).length = n) :
    exec .selcnt s = .next { s with result := BitVec.ofNat 32 n, status := 0x002#12 } :=
  exec_of_ends (hn ▸ .selcnt (firstError_selector hm).2 hm)

/-! ## What EMBED reports of the same sequence -/

/-- A completed EMBED has recorded the head of its filtered sequence as HDR_FIRST (R170, R171). -/
theorem Ends.embed_first (h : Ends s .embed t) (hst : t.status = 0x002#12) : ∃ m idx rest,
    s.method.toNat = methodCode m ∧ s.filtered m 579 = idx :: rest ∧ t.hdr.first = BitVec.ofNat 32 idx := by
  cases h with
  | raises | embedCapacity => exact absurd hst (statusRaised_ne_completed _)
  | @embed m herr hm =>
    obtain ⟨hplen, hN⟩ := operands_of_firstError_embed (s := s) (by simp [herr])
    rw [firstError_embed_of_operands hplen hN hm] at herr
    cases hS : s.filtered m 579 with
    | nil => simp [hS] at herr
    | cons idx rest => exact ⟨m, idx, rest, hm, hS, by simp [State.placedHeader, State.embedHeader, hS]⟩

theorem statusRaised_eq_insufficientCapacity {e : ErrorKind} : statusRaised e = 0x306#12 ↔ e = .insufficientCapacity := by
  cases e <;> decide

/-- An EMBED that compared the capacities has recorded the length of its filtered sequence in AVAIL (R29, R170). -/
theorem Ends.embed_avail (h : Ends s .embed t) (hst : t.status = 0x002#12 ∨ t.status = 0x306#12) : ∃ m,
    s.method.toNat = methodCode m ∧ t.avail = BitVec.ofNat 32 (s.filtered m 579).length := by
  cases h with
  | raises _ hcap =>
    obtain hst | hst := hst
    · exact absurd hst (statusRaised_ne_completed _)
    · exact absurd (statusRaised_eq_insufficientCapacity.1 hst) hcap
  | @embedCapacity m _ hm => exact ⟨m, hm, rfl⟩
  | @embed m _ hm => exact ⟨m, hm, by simp⟩

end

/-- Settles O20: the ends of SELNEXT by the sequence's shape; EMBED's first index and the examples have a known head or none. -/
theorem selnextFindsFirstEligible : Obligations.SelnextFindsFirstEligible := by
  refine ⟨rfl, fun s => exec_selector_of_lt (by decide), fun s m => exec_selnext_end, fun s m idx rest hm hS => ?found,
    fun s m => filtered_eq_nil m, fun s t hf hexec hst => ?embed, fun s hw hh hm hf => ?next, fun s hw hh hm hf => ?last⟩
  case found =>
    obtain ⟨⟨hlt, -⟩, hle⟩ := mem_filtered.1 (hS ▸ List.mem_cons_self : idx ∈ s.filtered m s.floor.toNat)
    exact ⟨exec_selnext_found hm hS, filtered_head_toNat hS, hlt.trans_le ((pixelCount_lt s).trans (by decide)), hle,
      (filteredIndices_tail hS).symm⟩
  case embed =>
    obtain ⟨m, idx, rest, hm, hS, hfirst⟩ := (ends_of_exec hexec).embed_first hst
    rw [hfirst]
    exact exec_selnext_found hm (by rw [hf]; exact hS)
  case next =>
    have hS : filteredIndices 5 4 .border 6 = [9, 10, 14, 15, 16, 17, 18, 19] := by decide
    exact exec_selnext_found (m := .border) (by rw [hm]; rfl) ((filtered_of_dimensions .border hw hh hf).trans hS)
  case last =>
    exact exec_selnext_end (m := .border) (by rw [hm]; rfl)
      ((filtered_of_dimensions .border hw hh hf).trans (filteredIndices_eq_nil .border le_rfl))

/-- Settles O21: SELCNT's one completion with the count in each case; the examples are closed forms of O18. -/
theorem selcntCountsEligible : Obligations.SelcntCountsEligible := by
  refine ⟨rfl, fun s => exec_selector_of_lt (by decide), fun s m hm => ⟨exec_selcnt hm rfl, filtered_length_toNat s m _⟩,
    fun s m hm hf => exec_selcnt hm ?above, fun s m hm hf => exec_selcnt hm ?whole, fun s t hf hexec hst => ?embed,
    fun s hw hh hm hf => exec_selcnt (m := .border) (by rw [hm]; rfl) ?border,
    fun s hw hh hm hf => exec_selcnt (m := .all) (by rw [hm]; rfl) ?all⟩
  case above => rw [filtered_eq_nil m hf, List.length_nil]
  case whole => rw [hf]; exact congrArg List.length (filteredIndices_zero _ _ m)
  case embed =>
    obtain ⟨m, hm, havail⟩ := (ends_of_exec hexec).embed_avail hst
    rw [havail]
    exact exec_selcnt hm (by rw [hf]; rfl)
  case border =>
    calc (s.filtered .border s.floor.toNat).length
        = (eligibleIndices 5 4 .border).length := by
          rw [filtered_of_dimensions .border hw hh hf]
          exact congrArg List.length (filteredIndices_zero 5 4 .border)
      _ = 14 := length_border (by decide) (by decide)
  case all =>
    rw [filtered_of_dimensions .all hw hh hf, length_filteredIndices .all (by decide), count_elig_all, count_elig_all]
    rfl

end Sys2Proof.Machine
end

section
/-! O25: WRBITS, and what placing bits into a sequence leaves in PIX (R167, R168). -/

namespace Sys2Proof.Machine

/-! ## Placing bits -/

section
variable {s t u : State}

/-- The indices that `writeBits` reaches hold its bits, in order (R168). -/
theorem map_pixGetBit_writeBits (s : State) {S : List Nat} {xs : Bits} {n : Nat} (hS : S.Nodup) (hn : xs.length = n)
    (h : n ≤ S.length) : (S.take n).map (s.writeBits S xs).pixGetBit = xs :=
  hn ▸ readBits_writeBits s hS (hn ▸ h)

theorem OnlyLsbChangesAt.trans {A B : List Nat} (h : OnlyLsbChangesAt A s t) (h' : OnlyLsbChangesAt B t u) :
    OnlyLsbChangesAt (A ++ B) s u := by
  refine ⟨fun idx hidx => ?_, fun idx => ?_⟩
  · obtain ⟨hA, hB⟩ := not_or.1 (hidx ∘ List.mem_append.2)
    rw [h'.1 idx hB, h.1 idx hA]
  · obtain ⟨hr, hg, hb⟩ := h.2 idx
    obtain ⟨hr', hg', hb'⟩ := h'.2 idx
    exact ⟨hr'.trans hr, hg'.trans hg, hb'.trans hb⟩

/-- What `writeBits` leaves in PIX depends on nothing but PIX. -/
theorem SamePix.writeBits (h : SamePix s t) (S : List Nat) (xs : Bits) : SamePix (s.writeBits S xs) (t.writeBits S xs) := by
  induction S generalizing s t xs with
  | nil => cases xs <;> exact h
  | cons i S ih => cases xs with
    | nil => exact h
    | cons x xs =>
      refine ih (fun idx => ?_) xs
      rw [pixCell_pixSetBit, pixCell_pixSetBit, h i, h idx]

theorem SamePix.writeHeader (h : SamePix s t) (hdr : Header) : SamePix (s.writeHeader hdr) (t.writeHeader hdr) :=
  h.writeBits _ _

/-- A black pixel of which only the data bit may have changed. -/
theorem OnlyLsbChangesAt.pixCell_of_black {S : List Nat} {idx : Nat} {p : Prop} [Decidable p] (h : OnlyLsbChangesAt S s t)
    (hblack : s.pixCell idx = ⟨0#8, 0#8, 0#8⟩) (hbit : t.pixGetBit idx = decide p) :
    t.pixCell idx = if p then ⟨0#8, 0#8, 1#8⟩ else ⟨0#8, 0#8, 0#8⟩ := by
  rw [h.pixCell_eq, hblack, hbit]
  by_cases hp : p
  · rw [decide_eq_true hp, if_pos hp]; rfl
  · rw [decide_eq_false hp, if_neg hp]; rfl

end

theorem exec_of_firstError {i : Instr} {s : State} {e : ErrorKind} (herr : firstError i s = some e)
    (hcap : e ≠ .insufficientCapacity) : exec i s = .next (s.raise e) :=
  exec_of_ends (.raises herr hcap)

/-! ## WRBITS -/

section
variable {s : State} {m : Method}

theorem exec_wrbits_of_gt (hplen : 0xFFFFFFFF < s.plen.toNat) : exec .wrbits s = .next (s.raise .payloadTooLarge) :=
  exec_of_firstError (if_pos hplen) (by decide)

theorem exec_wrbits_unsupported (hplen : s.plen.toNat ≤ 0xFFFFFFFF) (hm : 3 < s.method.toNat) :
    exec .wrbits s = .next (s.raise .unsupportedMethod) := by
  refine exec_of_firstError ?_ (by decide)
  simp [firstError, hplen.not_gt, methodOfOperand_error.2 ⟨hm, rfl⟩]

theorem exec_wrbits_capacity (hplen : s.plen.toNat ≤ 0xFFFFFFFF) (hm : s.method.toNat = methodCode m)
    (hcap : (s.filtered m s.floor.toNat).length < 8 * s.plen.toNat) : exec .wrbits s =
      .next ((s.recordCapacity (8 * s.plen.toNat) (s.filtered m s.floor.toNat).length).raise .insufficientCapacity) :=
  exec_of_ends (.wrbitsCapacity (by rw [firstError_wrbits_of_operands hplen hm, if_pos hcap]) hm)

/-- The state that a completed WRBITS under method `m` leaves. -/
def State.afterWrbits (s : State) (m : Method) : State :=
  ((s.recordCapacity (8 * s.plen.toNat) (s.filtered m s.floor.toNat).length).writeBits (s.filtered m s.floor.toNat)
    (bytesToBits s.payloadOperand)).complete false

theorem exec_wrbits (hplen : s.plen.toNat ≤ 0xFFFFFFFF) (hm : s.method.toNat = methodCode m)
    (hcap : 8 * s.plen.toNat ≤ (s.filtered m s.floor.toNat).length) : exec .wrbits s = .next (s.afterWrbits m) :=
  exec_of_ends (.wrbits (by rw [firstError_wrbits_of_operands hplen hm, if_neg hcap.not_gt]) hm)

theorem afterWrbits_frame : { s.afterWrbits m with pix := s.pix } = { s with
    req := BitVec.ofNat 36 (8 * s.plen.toNat), avail := BitVec.ofNat 32 (s.filtered m s.floor.toNat).length,
    status := 0x002#12 } := by
  rw [State.afterWrbits, writeBits_eq_withPix]
  rfl

theorem afterWrbits_bits (hcap : 8 * s.plen.toNat ≤ (s.filtered m s.floor.toNat).length) :
    ((s.filtered m s.floor.toNat).take (8 * s.plen.toNat)).map (s.afterWrbits m).pixGetBit = bytesToBits s.payloadOperand :=
  map_pixGetBit_writeBits _ (filtered_nodup s m _) (by rw [length_bytesToBits, length_payloadOperand]) hcap

theorem onlyLsbChangesAt_afterWrbits :
    OnlyLsbChangesAt ((s.filtered m s.floor.toNat).take (8 * s.plen.toNat)) s (s.afterWrbits m) := by
  rw [← length_payloadOperand, ← length_bytesToBits]
  exact (onlyLsbChangesAt_writeBits _ _ _).complete false

/-- The sequence of the source's 5x4 border example from index 6 on. -/
theorem filtered_border_fiveByFour (hw : s.width = 5#16) (hh : s.height = 4#16) (hf : s.floor = 6#32) :
    s.filtered .border s.floor.toNat = [9, 10, 14, 15, 16, 17, 18, 19] :=
  (filtered_of_dimensions .border hw hh hf).trans (by decide)

end

/-- Settles O25: the ends of WRBITS by the operands; its bits are read back through `writeBits`, and the examples have the eight
border pixels at or above 6. -/
theorem wrbitsPlacesPayload : Obligations.WrbitsPlacesPayload := by
  refine ⟨rfl, fun s => exec_wrbits_of_gt, fun s => exec_wrbits_unsupported, fun s m => exec_wrbits_capacity,
    fun s m hplen hm hcap => ?places, fun s hw hh hm hf hplen hpay => ?fits, fun s hw hh hm hf hplen => ?full⟩
  case places =>
    have hcounts := (ends_of_exec (exec_wrbits hplen hm hcap)).capacity_of_wrbits hplen hm
    exact ⟨_, exec_wrbits hplen hm hcap, afterWrbits_frame, hcounts.1, hcounts.2, afterWrbits_bits hcap,
      onlyLsbChangesAt_afterWrbits⟩
  case fits =>
    have hS := filtered_border_fiveByFour hw hh hf
    have hone : s.plen.toNat = 1 := by rw [hplen]; rfl
    have hcap : 8 * s.plen.toNat ≤ (s.filtered .border s.floor.toNat).length := by rw [hone, hS]; decide
    have hbits := afterWrbits_bits hcap
    rw [State.payloadOperand, hone, hS, State.payRead] at hbits
    refine ⟨_, exec_wrbits (by omega) (by rw [hm]; rfl) hcap, rfl, ?_, ?_, hbits.trans ?_⟩
    · simp [State.afterWrbits, hone]
    · simp [State.afterWrbits, hS]
    · simp only [List.range_one, List.map_cons, List.map_nil, hpay]
      decide
  case full =>
    have hS := filtered_border_fiveByFour hw hh hf
    have htwo : s.plen.toNat = 2 := by rw [hplen]; rfl
    rw [exec_wrbits_capacity (m := .border) (by omega) (by rw [hm]; rfl) (by rw [htwo, hS]; decide), htwo, hS]
    rfl

end Sys2Proof.Machine
end

section
/-! O26: EMBED, the sequences of methods 0 to 2 above the header, and the source's scenario (R170). -/

namespace Sys2Proof.Machine

/-! ## The ends of EMBED -/

section
variable {s t : State} {m : Method}

theorem exec_embed_of_gt (hplen : 0xFFFFFFFF < s.plen.toNat) : exec .embed s = .next (s.raise .payloadTooLarge) :=
  exec_of_firstError (if_pos hplen) (by decide)

theorem exec_embed_small (hplen : s.plen.toNat ≤ 0xFFFFFFFF) (hN : s.pixelCount < 579) :
    exec .embed s = .next (s.raise .imageTooSmall) :=
  exec_of_firstError ((if_neg hplen.not_gt).trans (if_pos hN)) (by decide)

theorem exec_embed_unsupported (hplen : s.plen.toNat ≤ 0xFFFFFFFF) (hN : 579 ≤ s.pixelCount) (hm : 3 < s.method.toNat) :
    exec .embed s = .next (s.raise .unsupportedMethod) := by
  refine exec_of_firstError ?_ (by decide)
  simp [firstError, hplen.not_gt, hN.not_gt, methodOfOperand_error.2 ⟨hm, rfl⟩]

theorem exec_embed_capacity (hplen : s.plen.toNat ≤ 0xFFFFFFFF) (hN : 579 ≤ s.pixelCount) (hm : s.method.toNat = methodCode m)
    (hcap : (s.filtered m 579).length < 32 + 8 * s.plen.toNat) : exec .embed s =
      .next ((s.recordCapacity (32 + 8 * s.plen.toNat) (s.filtered m 579).length).raise .insufficientCapacity) :=
  exec_of_ends (.embedCapacity (by rw [firstError_embed_of_operands hplen hN hm, if_pos hcap]) hm)

/-- The bits of the payload frame that EMBED places. -/
def State.payloadFrame (s : State) : Bits := frameBits (s.plen.extractLsb' 0 32) s.payloadOperand

@[simp] theorem length_payloadFrame (s : State) : s.payloadFrame.length = 32 + 8 * s.plen.toNat := by
  rw [State.payloadFrame, length_frameBits, length_payloadOperand]

/-- The registers that a completed EMBED under method `m` writes: REQ, AVAIL and HDR. -/
def State.withEmbedRegisters (s : State) (m : Method) : State :=
  { s.recordCapacity (32 + 8 * s.plen.toNat) (s.filtered m 579).length with hdr := s.placedHeader m }

/-- The state that a completed EMBED under method `m` leaves. -/
def State.afterEmbed (s : State) (m : Method) : State :=
  (((s.withEmbedRegisters m).writeHeader (s.placedHeader m)).writeBits (s.filtered m 579) s.payloadFrame).complete false

theorem exec_embed (hplen : s.plen.toNat ≤ 0xFFFFFFFF) (hN : 579 ≤ s.pixelCount) (hm : s.method.toNat = methodCode m)
    (hcap : 32 + 8 * s.plen.toNat ≤ (s.filtered m 579).length) : exec .embed s = .next (s.afterEmbed m) :=
  exec_of_ends (.embed (by rw [firstError_embed_of_operands hplen hN hm, if_neg hcap.not_gt]) hm)

/-- A completed EMBED has found its operands legal and its frame no longer than the sequence. -/
theorem exec_embed_completed (hexec : exec .embed s = .next t) (hst : t.status = 0x002#12) : ∃ m,
    s.plen.toNat ≤ 0xFFFFFFFF ∧ 579 ≤ s.pixelCount ∧ s.method.toNat = methodCode m ∧
    32 + 8 * s.plen.toNat ≤ (s.filtered m 579).length ∧ t = s.afterEmbed m := by
  cases ends_of_exec hexec with
  | raises | embedCapacity => exact absurd hst (statusRaised_ne_completed _)
  | @embed m herr hm =>
    obtain ⟨hplen, hN⟩ := operands_of_firstError_embed (s := s) (by simp [herr])
    refine ⟨m, hplen, hN, hm, ?_, rfl⟩
    by_contra hcap
    rw [firstError_embed_of_operands hplen hN hm, if_pos (Nat.lt_of_not_le hcap)] at herr
    cases herr

@[simp] theorem afterEmbed_hdr : (s.afterEmbed m).hdr = s.placedHeader m := by
  simp [State.afterEmbed, State.withEmbedRegisters]

theorem afterEmbed_frame : { s.afterEmbed m with pix := s.pix } = { s with
    hdr := s.placedHeader m, req := BitVec.ofNat 36 (32 + 8 * s.plen.toNat),
    avail := BitVec.ofNat 32 (s.filtered m 579).length, status := 0x002#12 } := by
  rw [State.afterEmbed, writeBits_eq_withPix, State.writeHeader, writeBits_eq_withPix]
  rfl

theorem afterEmbed_headerBits : (s.afterEmbed m).headerBits = hdrEncode (s.placedHeader m) :=
  headerBits_writeBits_writeHeader _ _ _ fun _ hj => (mem_filtered.1 hj).2

theorem afterEmbed_bits (hcap : 32 + 8 * s.plen.toNat ≤ (s.filtered m 579).length) :
    ((s.filtered m 579).take (32 + 8 * s.plen.toNat)).map (s.afterEmbed m).pixGetBit = s.payloadFrame :=
  map_pixGetBit_writeBits _ (filtered_nodup s m _) (length_payloadFrame s) hcap

theorem onlyLsbChangesAt_afterEmbed :
    OnlyLsbChangesAt (List.range 579 ++ (s.filtered m 579).take (32 + 8 * s.plen.toNat)) s (s.afterEmbed m) := by
  rw [← length_payloadFrame s]
  have hplaced := (onlyLsbChangesAt_writeHeader (s.withEmbedRegisters m) (s.placedHeader m)).trans
    (onlyLsbChangesAt_writeBits _ (s.filtered m 579) s.payloadFrame)
  exact hplaced.complete false

/-- An element of a filtered sequence, or the 0 past its end, fits an index register. -/
theorem filtered_getD_toNat (s : State) (m : Method) (f k : Nat) :
    (BitVec.ofNat 32 ((s.filtered m f).getD k 0)).toNat = (s.filtered m f).getD k 0 := by
  refine Nat.mod_eq_of_lt ?_
  by_cases hk : k < (s.filtered m f).length
  · have hlt := (mem_filtered.1 (List.getElem_mem hk)).1.1
    have hN := pixelCount_lt s
    rw [List.getD_eq_getElem _ _ hk]
    omega
  · rw [List.getD_eq_default _ _ (Nat.le_of_not_lt hk)]
    decide

/-! ## The sequences of methods 0 to 2 in closed form -/

/-- A filtered sequence whose members are those of a progression is that progression. -/
theorem filtered_eq_range' {f a n step : Nat} (hstep : 0 < step)
    (h : ∀ idx, (idx < s.pixelCount ∧ elig s.width.toNat s.height.toNat m idx = true) ∧ f ≤ idx ↔ ∃ i < n, idx = a + step * i) :
    s.filtered m f = List.range' a n step :=
  (filteredIndices_ascending _ _ m f).eq_of_mem_iff (List.pairwise_lt_range' _ hstep)
    fun idx => mem_filtered.trans ((h idx).trans List.mem_range'.symm)

theorem filtered_all (s : State) : s.filtered .all 579 = List.range' 579 (s.pixelCount - 579) := by
  refine filtered_eq_range' (by decide) fun idx => ⟨fun ⟨⟨hlt, _⟩, hle⟩ => ⟨idx - 579, by omega, by omega⟩, ?_⟩
  rintro ⟨i, hi, rfl⟩
  exact ⟨⟨by omega, rfl⟩, by omega⟩

theorem filtered_even (s : State) : s.filtered .even 579 = List.range' 580 ((s.pixelCount - 579) / 2) 2 := by
  refine filtered_eq_range' (by decide) fun idx => ?_
  rw [elig, beq_iff_eq]
  refine ⟨fun ⟨⟨hlt, heven⟩, hle⟩ => ⟨(idx - 580) / 2, by omega, by omega⟩, ?_⟩
  rintro ⟨i, hi, rfl⟩
  omega

theorem filtered_odd (s : State) : s.filtered .odd 579 = List.range' 579 ((s.pixelCount - 578) / 2) 2 := by
  refine filtered_eq_range' (by decide) fun idx => ?_
  rw [elig, beq_iff_eq]
  refine ⟨fun ⟨⟨hlt, hodd⟩, hle⟩ => ⟨(idx - 579) / 2, by omega, by omega⟩, ?_⟩
  rintro ⟨i, hi, rfl⟩
  omega

end

/-! ## The scenario of R170 -/

/-- The pixels that hold a one after the one-byte text `A` is embedded under method 0 in a black 25x25 image. -/
def scenarioOnes : List Nat := [537, 540, 545, 546, 569, 572, 573, 575, 577, 610, 612, 618]

theorem scenario_bits : hdrEncode exampleHeader ++ frameBits 1#32 [0x41#8] =
    (List.range 619).map (fun i => decide (i ∈ scenarioOnes)) := by decide +kernel

theorem lt_of_mem_scenarioOnes : ∀ idx ∈ scenarioOnes, idx < 619 := by decide

/-- The operands of the scenario. -/
structure IsScenario (s : State) : Prop where
  width : s.width = 25#16
  height : s.height = 25#16
  method : s.method = 0#8
  info : s.info = 0#1
  fnlen : s.fnlen = 0#8
  plen : s.plen = 1#64
  payload : s.payByte 0 = 0x41#8

namespace IsScenario
variable {s : State}

theorem pixelCount (h : IsScenario s) : s.pixelCount = 625 := by
  rw [State.pixelCount, h.width, h.height]
  rfl

theorem plen_toNat (h : IsScenario s) : s.plen.toNat = 1 := by rw [h.plen]; rfl

theorem filtered (h : IsScenario s) : s.filtered .all 579 = List.range' 579 46 := by rw [filtered_all, h.pixelCount]

theorem placedHeader (h : IsScenario s) : s.placedHeader .all = exampleHeader := by
  have hname : s.nameOperand = [] := by rw [State.nameOperand, h.fnlen]; rfl
  rw [State.placedHeader, State.embedHeader, h.filtered, h.plen_toNat, hname, h.info, h.method]
  decide

theorem payloadFrame (h : IsScenario s) : s.payloadFrame = frameBits 1#32 [0x41#8] := by
  have hpay : s.payloadOperand = [0x41#8] := by
    rw [State.payloadOperand, h.plen_toNat, State.payRead, List.range_one, List.map_cons, h.payload, List.map_nil]
  rw [State.payloadFrame, hpay, h.plen]
  rfl

theorem exec_embed (h : IsScenario s) : exec .embed s = .next (s.afterEmbed .all) := by
  refine Machine.exec_embed (by rw [h.plen_toNat]; decide) (by rw [h.pixelCount]; decide) (by rw [h.method]; rfl) ?_
  rw [h.plen_toNat, h.filtered]
  decide

/-- The ones of a black image after the scenario. -/
theorem pixGetBit (h : IsScenario s) (hblack : ∀ idx < 625, s.pixCell idx = ⟨0#8, 0#8, 0#8⟩) {idx : Nat} (hidx : idx < 625) :
    (s.afterEmbed .all).pixGetBit idx = decide (idx ∈ scenarioOnes) := by
  have hplaced : List.range 579 ++ (s.filtered .all 579).take (32 + 8 * s.plen.toNat) = List.range 619 := by
    rw [h.filtered, h.plen_toNat, List.range_eq_range', List.range_eq_range']
    simpa using List.range'_append_1 (s := 0) (m := 579) (n := 40)
  by_cases hlt : idx < 619
  · have hbits : (List.range 619).map (s.afterEmbed .all).pixGetBit = (List.range 619).map (fun i => decide (i ∈ scenarioOnes)) := by
      have hframe := afterEmbed_bits (s := s) (m := .all) (by rw [h.plen_toNat, h.filtered]; decide)
      rw [← scenario_bits, ← hplaced, List.map_append, hframe, h.payloadFrame, ← h.placedHeader, ← afterEmbed_headerBits]
      rfl
    exact List.map_inj_left.1 hbits idx (List.mem_range.2 hlt)
  · have hsame := onlyLsbChangesAt_afterEmbed.1 idx (hplaced ▸ hlt ∘ List.mem_range.1)
    rw [State.pixGetBit, hsame, hblack idx hidx, decide_eq_false (hlt ∘ lt_of_mem_scenarioOnes idx)]
    rfl

end IsScenario

/-- Settles O26: the ends of EMBED by the operands; the frame reaches no header pixel, and both are read back through `writeBits`. -/
theorem embedPlacesHeaderAndFrame : Obligations.EmbedPlacesHeaderAndFrame := by
  refine ⟨rfl, fun s => exec_embed_of_gt, fun s => exec_embed_small, fun s => exec_embed_unsupported,
    fun s m => exec_embed_capacity, fun s m hplen hN hm hcap => ?places,
    fun s hw hh hblack hm hinfo hfnlen hplen hpay => ?scenario⟩
  case places =>
    have hexec := exec_embed hplen hN hm hcap
    have hcounts := (ends_of_exec hexec).capacity_of_embed hplen hN hm
    refine ⟨_, hexec, afterEmbed_frame, hcounts.1, hcounts.2, ?first, ?last, ?header, afterEmbed_bits hcap,
      onlyLsbChangesAt_afterEmbed⟩
    case first => rw [afterEmbed_hdr]; exact filtered_getD_toNat s m 579 0
    case last => rw [afterEmbed_hdr]; exact filtered_getD_toNat s m 579 _
    case header => rw [afterEmbed_hdr]; exact afterEmbed_headerBits (s := s) (m := m)
  case scenario =>
    have h : IsScenario s := ⟨hw, hh, hm, hinfo, hfnlen, hplen, hpay⟩
    refine ⟨_, h.exec_embed, ?req, ?avail, ?first, ?last, fun idx hidx => ?cells⟩
    case req => simp [State.afterEmbed, State.withEmbedRegisters, h.plen_toNat]
    case avail => simp [State.afterEmbed, State.withEmbedRegisters, h.filtered]
    case first => rw [afterEmbed_hdr, h.placedHeader]; rfl
    case last => rw [afterEmbed_hdr, h.placedHeader]; rfl
    case cells => exact onlyLsbChangesAt_afterEmbed.pixCell_of_black (hblack idx hidx) (h.pixGetBit hblack hidx)

end Sys2Proof.Machine
end

section
/-! O27 to O29: EMBED's recorded positions, its capacity boundary, and EMBED as HDRWR and then WRBITS (R171, R172, R174). -/

namespace Sys2Proof.Machine

/-! ## The recorded positions -/

theorem eq_of_getElem?_range' {a n step k x : Nat} (h : (List.range' a n step)[k]? = some x) : x = a + step * k := by
  obtain ⟨hk, rfl⟩ := List.getElem?_eq_some_iff.1 h
  exact List.getElem_range' hk

/-- Between two elements of an ascending sequence lie at least as many numbers as elements. -/
theorem add_le_of_ascending {l : List Nat} (hl : l.Pairwise (· < ·)) {k first last : Nat} (hfirst : l[0]? = some first)
    (hlast : l[k]? = some last) : first + k ≤ last := by
  induction k generalizing last with
  | zero => exact (Option.some.inj (hfirst.symm.trans hlast)).le
  | succ k ih =>
    obtain ⟨hk, rfl⟩ := List.getElem?_eq_some_iff.1 hlast
    have hstep : l[k] < l[k + 1] := List.pairwise_iff_getElem.1 hl k (k + 1) (by omega) hk k.lt_succ_self
    have hprev := ih (List.getElem?_eq_getElem (by omega))
    omega

/-- The first element of a filtered sequence is its smallest. -/
theorem first_le_of_mem_filtered {s : State} {m : Method} {f first idx : Nat} (hfirst : (s.filtered m f)[0]? = some first)
    (hidx : idx ∈ s.filtered m f) : first ≤ idx := by
  obtain ⟨k, hk⟩ := List.mem_iff_getElem?.1 hidx
  have hle := add_le_of_ascending (filteredIndices_ascending _ _ m f) hfirst hk
  omega

/-- A completed EMBED has recorded the first and the last index of its payload frame (R171). -/
theorem afterEmbed_positions {s : State} {m : Method} (hcap : 32 + 8 * s.plen.toNat ≤ (s.filtered m 579).length) :
    (s.filtered m 579)[0]? = some (s.afterEmbed m).hdr.first.toNat ∧
    (s.filtered m 579)[31 + 8 * s.plen.toNat]? = some (s.afterEmbed m).hdr.last.toNat := by
  have helem (k : Nat) (hk : k < (s.filtered m 579).length) :
      (s.filtered m 579)[k]? = some (BitVec.ofNat 32 ((s.filtered m 579).getD k 0)).toNat := by
    rw [filtered_getD_toNat, List.getD_eq_getElem _ _ hk, List.getElem?_eq_getElem hk]
  rw [afterEmbed_hdr]
  exact ⟨helem 0 (by omega), helem _ (by omega)⟩

/-- Settles O27: the positions are elements of the filtered sequence, which is a progression under methods 0 to 2 and ascending under
every method. -/
theorem embedRecordsPositions : Obligations.EmbedRecordsPositions := by
  intro s t m hm hexec hst
  obtain ⟨m', -, -, hm', hcap, rfl⟩ := exec_embed_completed hexec hst
  obtain rfl := methodCode_injective (hm'.symm.trans hm)
  obtain ⟨hfirst, hlast⟩ := afterEmbed_positions hcap
  obtain ⟨⟨-, helig⟩, hge⟩ := mem_filtered.1 (List.mem_of_getElem? hfirst)
  have hlt := (mem_filtered.1 (List.mem_of_getElem? hlast)).1.1
  have hspan := add_le_of_ascending (filteredIndices_ascending _ _ _ 579) hfirst hlast
  refine ⟨hfirst, hlast, ?all, ?even, ?odd, ⟨helig, fun idx hle hN hidx => ?smallest⟩, hge, by omega, hlt, by omega⟩
  case all =>
    rintro rfl
    rw [filtered_all] at hfirst hlast
    have := eq_of_getElem?_range' hfirst
    have := eq_of_getElem?_range' hlast
    omega
  case even =>
    rintro rfl
    rw [filtered_even] at hfirst hlast
    exact ⟨eq_of_getElem?_range' hfirst, eq_of_getElem?_range' hlast⟩
  case odd =>
    rintro rfl
    rw [filtered_odd] at hfirst hlast
    exact ⟨eq_of_getElem?_range' hfirst, eq_of_getElem?_range' hlast⟩
  case smallest => exact first_le_of_mem_filtered hfirst (mem_filtered.2 ⟨⟨hN, hidx⟩, hle⟩)

/-! ## The capacity boundary -/

/-- Settles O28: the ends of EMBED on both sides of the comparison; under method 0 all `N - 579` pixels above the header count. -/
theorem embedCapacityBoundary : Obligations.EmbedCapacityBoundary := by
  refine ⟨fun s m hplen hN hm hlen => ⟨_, exec_embed hplen hN hm hlen.ge, rfl⟩,
    fun s m hplen hN hm hlen => ⟨_, exec_embed_capacity hplen hN hm (by omega), rfl⟩, fun s hplen hall => ?smallest⟩
  case smallest =>
    have hm : s.method.toNat = methodCode .all := by rw [hall]; rfl
    have hlen : (s.filtered .all 579).length = s.pixelCount - 579 := by rw [filtered_all, List.length_range']
    obtain hN | hN := Nat.lt_or_ge s.pixelCount 579
    · exact ⟨_, exec_embed_small hplen hN, iff_of_false (statusRaised_ne_completed _) (by omega)⟩
    obtain hcap | hcap := Nat.lt_or_ge (s.filtered .all 579).length (32 + 8 * s.plen.toNat)
    · exact ⟨_, exec_embed_capacity hplen hN hm hcap, iff_of_false (statusRaised_ne_completed _) (by omega)⟩
    · exact ⟨_, exec_embed hplen hN hm hcap, iff_of_true rfl (by omega)⟩

/-! ## EMBED in two commands -/

/-- The image of `u` with the operands of the WRBITS that places the payload frame of an EMBED of `s` as raw bytes (R174). -/
def State.withRawFrame (u s : State) : State :=
  { u with floor := 579#32, plen := 4#64 + s.plen }.payWrite (be32 (s.plen.extractLsb' 0 32) ++ s.payRead s.plen.toNat)

section
variable {s u : State} {m : Method}

theorem withRawFrame_plen (hplen : s.plen.toNat ≤ 0xFFFFFFFF) : (u.withRawFrame s).plen.toNat = 4 + s.plen.toNat := by
  have hsum : (4#64 + s.plen).toNat = (4 + s.plen.toNat) % 2 ^ 64 := BitVec.toNat_add _ _
  exact hsum.trans (Nat.mod_eq_of_lt (by omega))

/-- The bits that WRBITS places are those of EMBED's payload frame. -/
theorem withRawFrame_bits (hplen : s.plen.toNat ≤ 0xFFFFFFFF) :
    bytesToBits (u.withRawFrame s).payloadOperand = s.payloadFrame := by
  have hlen : (be32 (s.plen.extractLsb' 0 32) ++ s.payRead s.plen.toNat).length = 4 + s.plen.toNat := by simp
  rw [State.payloadOperand, withRawFrame_plen hplen, ← hlen, State.withRawFrame, payRead_payWrite]
  rfl

/-- A frame that EMBED can place is short enough for PLEN, and WRBITS can place it. -/
theorem exec_wrbits_withRawFrame (hplen : s.plen.toNat ≤ 0xFFFFFFFF) (hm : u.method.toNat = methodCode m)
    (hcap : 32 + 8 * s.plen.toNat ≤ (u.filtered m 579).length) :
    exec .wrbits (u.withRawFrame s) = .next ((u.withRawFrame s).afterWrbits m) := by
  have hroom : (u.filtered m 579).length ≤ 4294836225 := (length_filtered_le u m 579).trans (pixelCount_lt u)
  have hlen := withRawFrame_plen (u := u) hplen
  refine exec_wrbits (by omega) hm ?_
  change 8 * (u.withRawFrame s).plen.toNat ≤ (u.filtered m 579).length
  omega

/-- WRBITS of the raw frame leaves the pixels of EMBED when the header has been placed before it. -/
theorem samePix_afterEmbed (hplen : s.plen.toNat ≤ 0xFFFFFFFF) (hS : u.filtered m 579 = s.filtered m 579)
    (hheader : SamePix ((s.withEmbedRegisters m).writeHeader (s.placedHeader m)) u) :
    SamePix (s.afterEmbed m) ((u.withRawFrame s).afterWrbits m) := by
  have hoperands : SamePix u ((u.withRawFrame s).recordCapacity (8 * (u.withRawFrame s).plen.toNat) (u.filtered m 579).length) :=
    fun _ => rfl
  intro idx
  calc ((u.withRawFrame s).afterWrbits m).pixCell idx
      = (u.writeBits (u.filtered m 579) s.payloadFrame).pixCell idx := by
        rw [← hoperands.writeBits, State.afterWrbits, withRawFrame_bits hplen]
        rfl
    _ = (s.afterEmbed m).pixCell idx := by rw [hS, hheader.writeBits, State.afterEmbed, complete_pixCell]

/-- HDRWR of the header that EMBED places leaves the image on which WRBITS goes on (R174). -/
theorem exec_hdrwr_placedHeader (m : Method) (hN : 579 ≤ s.pixelCount) : ∃ u,
    exec .hdrwr { s with hdr := s.placedHeader m } = .next u ∧ u.status = 0x002#12 ∧ u.method = s.method ∧
    u.filtered m 579 = s.filtered m 579 ∧
    SamePix ((s.withEmbedRegisters m).writeHeader (s.placedHeader m)) u := by
  have hregisters : SamePix (s.withEmbedRegisters m) { s with hdr := s.placedHeader m } := fun _ => rfl
  refine ⟨_, exec_hdrwr hN, rfl, ?method, ?filtered, (hregisters.writeHeader (s.placedHeader m)).complete false⟩
  case method => rw [complete_method, writeHeader_method]
  case filtered => rw [complete_filtered, writeHeader_filtered]; rfl

end

/-- Settles O29: HDRWR writes the header that EMBED writes, and WRBITS the same bits at the same indices. -/
theorem embedIsHdrwrThenWrbits : Obligations.EmbedIsHdrwrThenWrbits := by
  intro s t hexec hst
  obtain ⟨m, hplen, hN, hm, hcap, rfl⟩ := exec_embed_completed hexec hst
  obtain ⟨u, hhdrwr, hust, hmethod, hS, hheader⟩ := exec_hdrwr_placedHeader m hN
  rw [afterEmbed_hdr]
  exact ⟨u, _, hhdrwr, exec_wrbits_withRawFrame hplen (hmethod ▸ hm) (hS ▸ hcap), hust, rfl,
    samePix_afterEmbed hplen hS hheader⟩

end Sys2Proof.Machine
end

section
/-! O30: RDBITS (R186). -/

namespace Sys2Proof.Machine

/-! ## Bytes written to PAY -/

section
variable {s : State} {bs : Bytes}

/-- PAY holds the bytes written, whatever their number is called. -/
theorem payRead_payWrite_of_length {n : Nat} (hn : bs.length = n) : (s.payWrite bs).payRead n = bs := hn ▸ payRead_payWrite s bs

theorem payByte_payWrite_of_le {a : Nat} (h : bs.length ≤ a) : (s.payWrite bs).payByte a = s.payByte a := by
  rw [payByte_payWrite, if_neg h.not_gt]

end

/-! ## The ends of RDBITS -/

section
variable {s : State} {m : Method}

theorem exec_rdbits_unsupported (hm : 3 < s.method.toNat) : exec .rdbits s = .next (s.raise .unsupportedMethod) := by
  refine exec_of_firstError ?_ (by decide)
  simp [firstError, methodOfOperand_error.2 ⟨hm, rfl⟩]

/-- Past RDBITS's method check the count is compared with the sequence before its alignment is looked at. -/
theorem firstError_rdbits_of_operands (hm : s.method.toNat = methodCode m) : firstError .rdbits s =
    if (s.filtered m s.floor.toNat).length < s.blen.toNat then some .insufficientData
    else if s.blen.toNat % 8 ≠ 0 then some .misalignedBits else none := by
  simp only [firstError, methodOfOperand_ok.2 hm]

theorem exec_rdbits_short (hm : s.method.toNat = methodCode m) (hdata : (s.filtered m s.floor.toNat).length < s.blen.toNat) :
    exec .rdbits s = .next (s.raise .insufficientData) :=
  exec_of_firstError (by rw [firstError_rdbits_of_operands hm, if_pos hdata]) (by decide)

theorem exec_rdbits_misaligned (hm : s.method.toNat = methodCode m) (hdata : s.blen.toNat ≤ (s.filtered m s.floor.toNat).length)
    (halign : s.blen.toNat % 8 ≠ 0) : exec .rdbits s = .next (s.raise .misalignedBits) :=
  exec_of_firstError (by rw [firstError_rdbits_of_operands hm, if_neg hdata.not_gt, if_pos halign]) (by decide)

/-- The state that a completed RDBITS leaves when the bits it read are those of `bs`. -/
def State.afterRdbits (s : State) (bs : Bytes) : State :=
  { s.payWrite bs with rlen := BitVec.ofNat 32 (s.blen.toNat / 8) }.complete false

/-- RDBITS completes with the bytes whose bits stand at the first BLEN indices. -/
theorem exec_rdbits {bs : Bytes} (hm : s.method.toNat = methodCode m) (hdata : s.blen.toNat ≤ (s.filtered m s.floor.toNat).length)
    (hbits : ((s.filtered m s.floor.toNat).take s.blen.toNat).map s.pixGetBit = bytesToBits bs) :
    exec .rdbits s = .next (s.afterRdbits bs) ∧ bs.length = s.blen.toNat / 8 := by
  have hlen := congrArg List.length hbits
  rw [List.length_map, List.length_take, Nat.min_eq_left hdata, length_bytesToBits] at hlen
  refine ⟨exec_of_ends (.rdbits ?_ hm ?_), by omega⟩
  · rw [firstError_rdbits_of_operands hm, if_neg hdata.not_gt, if_neg (by omega)]
  · rw [State.readBits, hbits, bitsToBytes_bytesToBits]

theorem afterRdbits_payRead {bs : Bytes} {n : Nat} (hn : bs.length = n) : (s.afterRdbits bs).payRead n = bs :=
  payRead_payWrite_of_length (s := s) hn

end

/-- Settles O30: the ends of RDBITS by the operands; a whole number of bytes is read, and the examples have the eight border pixels at
or above 6. -/
theorem rdbitsReadsPayload : Obligations.RdbitsReadsPayload := by
  refine ⟨rfl, fun s => exec_rdbits_unsupported, fun s m => exec_rdbits_short, fun s m => exec_rdbits_misaligned,
    fun s m hm hdata halign => ?reads, fun s hw hh hm hf hbits => ?worked⟩
  case reads =>
    obtain ⟨bs, hok, hbits⟩ := exists_bytesToBits_eq (s := ((s.filtered m s.floor.toNat).take s.blen.toNat).map s.pixGetBit)
      (by rwa [List.length_map, List.length_take, Nat.min_eq_left hdata])
    obtain ⟨hexec, hlen⟩ := exec_rdbits hm hdata hbits.symm
    exact ⟨_, hexec, rfl, by rw [hok, afterRdbits_payRead hlen], fun a ha => payByte_payWrite_of_le (s := s) (by omega)⟩
  case worked =>
    have hS := filtered_border_fiveByFour hw hh hf
    have hm : s.method.toNat = methodCode .border := by rw [hm]; rfl
    refine ⟨fun hblen => ?byte, fun hblen => exec_rdbits_short hm ?short,
      fun hblen => exec_rdbits_misaligned hm ?enough (by rw [hblen]; decide)⟩
    case byte =>
      have hbyte : ((s.filtered .border s.floor.toNat).take s.blen.toNat).map s.pixGetBit = bytesToBits [0xA5#8] := by
        rw [hS, hblen]
        exact hbits
      obtain ⟨hexec, hlen⟩ := exec_rdbits hm (by rw [hS, hblen]; decide) hbyte
      refine ⟨_, hexec, rfl, ?_, ?_⟩
      · exact payByte_payWrite s _ 0
      · simp [State.afterRdbits, hblen]
    case short => rw [hS, hblen]; decide
    case enough => rw [hS, hblen]; decide

end Sys2Proof.Machine
end

section
/-! O31 to O35: EXTRACT, and the round trip from EMBED (R190 to R194). -/

namespace Sys2Proof.Machine

/-! ## The payload frame in the image -/

/-- The sequence that EXTRACT reads under header `h` begins with the payload frame of `p` (R190 steps 3 to 5). -/
structure State.HoldsFrame (s : State) (h : Header) (n : BitVec 32) (p : Bytes) : Prop where
  length : p.length = n.toNat
  bits : s.readBits ((s.frameIndices h).take (32 + 8 * n.toNat)) = frameBits n p

section
variable {s u : State} {h : Header} {n : BitVec 32} {p : Bytes}

theorem State.HoldsFrame.le_length (hf : s.HoldsFrame h n p) : 32 + 8 * n.toNat ≤ (s.frameIndices h).length := by
  have hlen := congrArg List.length hf.bits
  rw [length_readBits, List.length_take, length_frameBits, hf.length] at hlen
  omega

/-- The length that EXTRACT finds in the first 32 bits is the frame's. -/
theorem State.HoldsFrame.frameLength (hf : s.HoldsFrame h n p) : s.frameLength h = n.toNat := by
  have hprefix : s.readBits ((s.frameIndices h).take 32) = natToBits n.toNat 32 := calc
    s.readBits ((s.frameIndices h).take 32)
        = (s.readBits ((s.frameIndices h).take (32 + 8 * n.toNat))).take 32 := by
          rw [State.readBits, State.readBits, ← List.map_take, List.take_take, Nat.min_eq_left (Nat.le_add_right _ _)]
    _ = natToBits n.toNat 32 := by
          rw [hf.bits, frameBits_eq_append, List.take_left' (length_natToBits _ _)]
  rw [State.frameLength, hprefix, bitsToNat_natToBits, Nat.mod_eq_of_lt n.isLt]

/-- Any sequence long enough for the length it begins with holds a frame: every aligned bit sequence is some bytes' (R123). -/
theorem exists_holdsFrame (hlen : 32 + 8 * s.frameLength h ≤ (s.frameIndices h).length) : ∃ n p, s.HoldsFrame h n p := by
  have hn : (BitVec.ofNat 32 (s.frameLength h)).toNat = s.frameLength h := Nat.mod_eq_of_lt (frameLength_lt s h)
  have hprefix : natToBits (s.frameLength h) 32 = s.readBits ((s.frameIndices h).take 32) := by
    have hwidth : (s.readBits ((s.frameIndices h).take 32)).length = 32 := by
      rw [length_readBits, List.length_take]
      omega
    have hback := natToBits_bitsToNat (s.readBits ((s.frameIndices h).take 32))
    rwa [hwidth] at hback
  have hrest : (s.readBits (((s.frameIndices h).drop 32).take (8 * s.frameLength h))).length = 8 * s.frameLength h := by
    rw [length_readBits, List.length_take, List.length_drop]
    omega
  obtain ⟨p, -, hp⟩ := exists_bytesToBits_eq (hrest ▸ Nat.mul_mod_right 8 _)
  refine ⟨BitVec.ofNat 32 (s.frameLength h), p, ?length, ?bits⟩
  case length =>
    have hbytes := length_bytesToBits p
    rw [hp, hrest] at hbytes
    omega
  case bits =>
    rw [frameBits_eq_append, hn, hprefix, hp, List.take_add]
    exact List.map_append

/-! ## The ends of EXTRACT -/

theorem exec_extract_of_lt (hN : s.pixelCount < 579) : exec .extract s = .next (s.raise .truncatedHeader) :=
  exec_of_firstError (if_pos hN) (by decide)

/-- Past EXTRACT's header the length of its sequence decides; a sequence below 32 bits is short of the frame too. -/
theorem firstError_extract_of_header (hN : 579 ≤ s.pixelCount) (hh : hdrDecode s.headerBits = .ok h) : firstError .extract s =
    if (s.frameIndices h).length < 32 + 8 * s.frameLength h then some .insufficientData else none := by
  obtain ⟨h', hh', hmethod, hfirst⟩ := hdrDecode_of_length (b := s.headerBits) (by simp)
  obtain rfl : h' = h := by simpa [hh'] using hh
  simp only [firstError, if_neg hN.not_gt, ← hmethod, ← hfirst]
  by_cases hshort : (s.frameIndices h').length < 32
  · exact (if_pos hshort).trans (if_pos (by omega)).symm
  · exact if_neg hshort

theorem exec_extract_short (hN : 579 ≤ s.pixelCount) (hh : hdrDecode s.headerBits = .ok h)
    (hshort : (s.frameIndices h).length < 32 + 8 * s.frameLength h) : exec .extract s = .next (s.raise .insufficientData) :=
  exec_of_firstError (by rw [firstError_extract_of_header hN hh, if_pos hshort]) (by decide)

/-- The state that a completed EXTRACT leaves when it read the header `h` and the frame of `p`. -/
def State.afterExtract (s : State) (h : Header) (n : BitVec 32) (p : Bytes) : State :=
  (s.extractResults h n.toNat p).complete false

theorem exec_extract (hN : 579 ≤ s.pixelCount) (hh : hdrDecode s.headerBits = .ok h) (hf : s.HoldsFrame h n p) :
    exec .extract s = .next (s.afterExtract h n p) := by
  have hlen := hf.frameLength
  have herr : firstError .extract s = none := by
    rw [firstError_extract_of_header hN hh, if_neg (hlen ▸ hf.le_length.not_gt)]
  have hbs : bitsToBytes (s.readBits ((s.frameIndices h).take (32 + 8 * s.frameLength h))) = .ok (be32 n ++ p) := by
    rw [hlen, hf.bits, frameBits, bitsToBytes_bytesToBits]
  have hpayload : slice (be32 n ++ p) 4 (4 + n.toNat) = p := by
    rw [← hf.length]
    simpa using slice_append (be32 n) p []
  have hends := exec_of_ends (.extract herr hh hbs)
  rwa [hlen, hpayload] at hends

/-- EXTRACT ends without a header, without a whole frame, or with the frame's payload (R190). -/
theorem exec_extract_cases (s : State) :
    s.pixelCount < 579 ∧ exec .extract s = .next (s.raise .truncatedHeader) ∨
    579 ≤ s.pixelCount ∧ ∃ h, hdrDecode s.headerBits = .ok h ∧
      ((s.frameIndices h).length < 32 + 8 * s.frameLength h ∧ exec .extract s = .next (s.raise .insufficientData) ∨
       ∃ n p, s.HoldsFrame h n p ∧ exec .extract s = .next (s.afterExtract h n p)) := by
  obtain hN | hN := Nat.lt_or_ge s.pixelCount 579
  · exact .inl ⟨hN, exec_extract_of_lt hN⟩
  obtain ⟨h, hh, -⟩ := hdrDecode_fields (length_headerBits s)
  refine .inr ⟨hN, h, hh, ?_⟩
  obtain hshort | hlen := Nat.lt_or_ge (s.frameIndices h).length (32 + 8 * s.frameLength h)
  · exact .inl ⟨hshort, exec_extract_short hN hh hshort⟩
  · obtain ⟨n, p, hf⟩ := exists_holdsFrame hlen
    exact .inr ⟨n, p, hf, exec_extract hN hh hf⟩

/-! ## What a completed EXTRACT leaves -/

theorem afterExtract_eq : s.afterExtract h n p = { s with
    pay := s.pay.writeAll 0 p, hdr := h, rlen := BitVec.ofNat 32 n.toNat, kind := h.info,
    rfnlen := if h.info = 1#1 then BitVec.ofNat 7 (fnameRecover h.fname).length else 0#7, status := 0x002#12 } := rfl

@[simp] theorem afterExtract_status : (s.afterExtract h n p).status = 0x002#12 := rfl

@[simp] theorem afterExtract_hdr : (s.afterExtract h n p).hdr = h := rfl

@[simp] theorem afterExtract_kind : (s.afterExtract h n p).kind = h.info := rfl

@[simp] theorem afterExtract_headerBits : (s.afterExtract h n p).headerBits = s.headerBits := rfl

@[simp] theorem afterExtract_pix : (s.afterExtract h n p).pix = s.pix := rfl

@[simp] theorem afterExtract_rfnlen : (s.afterExtract h n p).rfnlen =
    if h.info = 1#1 then BitVec.ofNat 7 (fnameRecover h.fname).length else 0#7 := rfl

@[simp] theorem afterExtract_rlen : (s.afterExtract h n p).rlen = n :=
  (BitVec.ofNat_toNat 32 n).trans (BitVec.setWidth_eq n)

theorem afterExtract_payByte {a : Nat} : (s.afterExtract h n p).payByte a = if a < p.length then p.getD a 0#8 else s.payByte a :=
  payByte_payWrite s p a

theorem afterExtract_payRead (hp : p.length = n.toNat) : (s.afterExtract h n p).payRead n.toNat = p :=
  payRead_payWrite_of_length (s := s) hp

theorem afterExtract_rfnlen_of_text (hinfo : h.info = 0#1) : (s.afterExtract h n p).rfnlen = 0#7 :=
  afterExtract_rfnlen.trans (if_neg (by rw [hinfo]; decide))

theorem afterExtract_rfnlen_of_file (hinfo : h.info = 1#1) :
    (s.afterExtract h n p).rfnlen.toNat = (fnameRecover h.fname).length := by
  have hname := length_fnameRecover_le h.fname
  simpa [hinfo] using (by omega : (fnameRecover h.fname).length < 128)

/-- RFNLEN cuts the recovered name out of HDR_FNAME. -/
theorem afterExtract_name (hinfo : h.info = 1#1) :
    (s.afterExtract h n p).hdr.fname.toList.take (s.afterExtract h n p).rfnlen.toNat = fnameRecover h.fname := by
  rw [afterExtract_rfnlen_of_file hinfo]
  exact (List.prefix_iff_eq_take.1 (List.takeWhile_prefix _)).symm

/-! ## States with the same frame region -/

/-- `s` and `u` have the same dimensions and, above the header region, the same data bits. -/
structure SameFrameRegion (s u : State) : Prop where
  width : u.width = s.width
  height : u.height = s.height
  bits : ∀ idx, 579 ≤ idx → idx < s.pixelCount → u.pixGetBit idx = s.pixGetBit idx

theorem readBits_congr {S : List Nat} (hbits : ∀ idx ∈ S, u.pixGetBit idx = s.pixGetBit idx) : u.readBits S = s.readBits S :=
  List.map_congr_left hbits

namespace SameFrameRegion

theorem pixelCount (hsame : SameFrameRegion s u) : u.pixelCount = s.pixelCount := by
  rw [State.pixelCount, State.pixelCount, hsame.width, hsame.height]

theorem frameIndices (hsame : SameFrameRegion s u) (h : Header) : u.frameIndices h = s.frameIndices h := by
  rw [State.frameIndices, State.frameIndices, State.filtered, State.filtered, hsame.width, hsame.height]

theorem readBits (hsame : SameFrameRegion s u) (h : Header) (k : Nat) :
    u.readBits ((u.frameIndices h).take k) = s.readBits ((s.frameIndices h).take k) := by
  rw [hsame.frameIndices]
  refine readBits_congr fun idx hidx => ?_
  obtain ⟨⟨hlt, -⟩, hle⟩ := mem_filtered.1 (List.mem_of_mem_take hidx)
  exact hsame.bits idx (by omega) hlt

theorem frameLength (hsame : SameFrameRegion s u) (h : Header) : u.frameLength h = s.frameLength h := by
  rw [State.frameLength, State.frameLength, hsame.readBits]

theorem holdsFrame (hsame : SameFrameRegion s u) (hf : s.HoldsFrame h n p) : u.HoldsFrame h n p :=
  ⟨hf.length, (hsame.readBits h _).trans hf.bits⟩

end SameFrameRegion

end

/-! ## The round trip -/

section
variable {s : State} {m : Method}

/-- The header's 2-bit method field holds any legal METHOD operand (R134). -/
theorem method_placedHeader (hm : s.method.toNat = methodCode m) : (s.placedHeader m).method.toNat = s.method.toNat := by
  have hle := methodCode_le m
  have hfield : (s.placedHeader m).method.toNat = s.method.toNat % 4 := BitVec.extractLsb'_toNat 0 2 s.method
  omega

theorem methodOfField_of_toNat {b : BitVec 2} (hb : b.toNat = methodCode m) : methodOfField b = m := by
  rw [methodOfField, hb]
  cases m <;> rfl

/-- EXTRACT reads the sequence that EMBED wrote: its floor is the first index of that sequence. -/
theorem frameIndices_placedHeader (hm : s.method.toNat = methodCode m)
    (hcap : 32 + 8 * s.plen.toNat ≤ (s.filtered m 579).length) :
    s.frameIndices (s.placedHeader m) = s.filtered m 579 := by
  rw [State.frameIndices, methodOfField_of_toNat ((method_placedHeader hm).trans hm)]
  cases hS : s.filtered m 579 with
  | nil => simp [hS] at hcap
  | cons idx rest =>
    have hge : 579 ≤ idx := (mem_filtered.1 (hS ▸ List.mem_cons_self : idx ∈ s.filtered m 579)).2
    have hfirst : (s.placedHeader m).first.toNat = idx := by
      refine (filtered_getD_toNat s m 579 0).trans ?_
      rw [hS, List.getD_cons_zero]
    rw [hfirst, Nat.max_eq_left hge]
    exact filteredIndices_head hS

/-- A completed EMBED leaves its payload frame where EXTRACT looks for it. -/
theorem holdsFrame_afterEmbed (hplen : s.plen.toNat ≤ 0xFFFFFFFF) (hm : s.method.toNat = methodCode m)
    (hcap : 32 + 8 * s.plen.toNat ≤ (s.filtered m 579).length) :
    (s.afterEmbed m).HoldsFrame (s.placedHeader m) (s.plen.extractLsb' 0 32) s.payloadOperand := by
  have hn : (s.plen.extractLsb' 0 32).toNat = s.plen.toNat := by
    rw [BitVec.extractLsb'_toNat, Nat.shiftRight_zero, Nat.mod_eq_of_lt (by omega)]
  have hindices : (s.afterEmbed m).frameIndices (s.placedHeader m) = s.frameIndices (s.placedHeader m) := by
    simp [State.frameIndices, State.afterEmbed, State.withEmbedRegisters, State.filtered]
  refine ⟨by rw [hn, length_payloadOperand], ?_⟩
  rw [hindices, frameIndices_placedHeader hm hcap, hn]
  exact afterEmbed_bits hcap

theorem afterEmbed_dimensions : (s.afterEmbed m).width = s.width ∧ (s.afterEmbed m).height = s.height := by
  simp [State.afterEmbed, State.withEmbedRegisters]

end

/-- Settles O33: the same data bits give the header and the frame that EMBED placed, and EXTRACT reads both back. -/
theorem embedThenExtractRoundTrip : Obligations.EmbedThenExtractRoundTrip := by
  intro s t u hexec hst hw hh hbits
  obtain ⟨m, hplen, hN, hm, hcap, rfl⟩ := exec_embed_completed hexec hst
  have hNt : (s.afterEmbed m).pixelCount = s.pixelCount := by
    rw [State.pixelCount, afterEmbed_dimensions.1, afterEmbed_dimensions.2, State.pixelCount]
  have hsame : SameFrameRegion (s.afterEmbed m) u :=
    ⟨hw.trans afterEmbed_dimensions.1.symm, hh.trans afterEmbed_dimensions.2.symm,
      fun idx _ hlt => hbits idx (hNt ▸ hlt)⟩
  have hheader : u.headerBits = hdrEncode (s.placedHeader m) :=
    (readBits_congr fun idx hidx => hbits idx ((mem_headerIndices.1 hidx).trans_le hN)).trans afterEmbed_headerBits
  have hf := hsame.holdsFrame (holdsFrame_afterEmbed hplen hm hcap)
  have hrlen : (s.plen.extractLsb' 0 32).toNat = s.plen.toNat := by rw [← hf.length, length_payloadOperand]
  refine ⟨_, exec_extract (by rw [hsame.pixelCount, hNt]; exact hN) (by rw [hheader, hdrDecode_hdrEncode]) hf, rfl, ?rlen,
    ?payload, rfl, method_placedHeader hm, fun hinfo => ?file, fun hinfo => ?text⟩
  case rlen => rw [afterExtract_rlen, hrlen]
  case payload => rw [afterExtract_rlen]; exact afterExtract_payRead hf.length
  case file =>
    have hname := afterExtract_name (s := u) (n := s.plen.extractLsb' 0 32) (p := s.payloadOperand) (h := s.placedHeader m) hinfo
    exact ⟨hname, fun hrec => hname.trans ((fnameRecover_fname64 _).2 hrec)⟩
  case text => exact afterExtract_rfnlen_of_text (h := s.placedHeader m) hinfo

end Sys2Proof.Machine
end

section
/-! O31, O32, O34 and O35: the ends of EXTRACT, what it does not depend on, images without an embedding, and a second EXTRACT
(R190, R191, R193, R194). -/

namespace Sys2Proof.Machine

/-! ## Pixels whose data bits are known -/

section
variable {s u : State}

/-- The bits at positions `a` to `b` of the header region. -/
theorem slice_headerBits (s : State) {a b : Nat} (hb : b ≤ 579) :
    slice s.headerBits a b = s.readBits (List.range' a (b - a)) := by
  rw [State.headerBits, State.readBits, State.readBits, slice, ← List.map_drop, ← List.map_take, headerIndices, Config.hdrBits,
    List.range_eq_range', List.drop_range', List.take_range'_of_length_ge (by omega), Nat.zero_add, Nat.mul_one]

/-- Data bits that are all the same. -/
theorem readBits_eq_replicate {x : Bool} {S : List Nat} (hbits : ∀ idx ∈ S, s.pixGetBit idx = x) :
    s.readBits S = List.replicate S.length x := List.map_eq_replicate_iff.2 hbits

theorem lt_of_mem_range' {a b idx : Nat} (hidx : idx ∈ List.range' a (b - a)) : idx < b := by
  have hmem := List.mem_range'_1.1 hidx
  omega

/-! ## The scenario of R190 -/

/-- The bits of the scenario's image are the example's header and after it the frame of the text `A`. -/
theorem scenario_image (hw : s.width = 25#16) (hh : s.height = 25#16)
    (hbits : ∀ idx < 625, s.pixGetBit idx = decide (idx ∈ scenarioOnes)) :
    s.headerBits = hdrEncode exampleHeader ∧ s.HoldsFrame exampleHeader 1#32 [0x41#8] := by
  have hsplit : List.range 619 = headerIndices ++ List.range' 579 40 := by
    rw [headerIndices, Config.hdrBits, List.range_eq_range', List.range_eq_range']
    exact (List.range'_append_1 (s := 0) (m := 579) (n := 40)).symm
  have himage : s.headerBits ++ s.readBits (List.range' 579 40) = hdrEncode exampleHeader ++ frameBits 1#32 [0x41#8] := by
    rw [scenario_bits, State.headerBits, State.readBits, State.readBits, ← List.map_append, ← hsplit]
    exact List.map_congr_left fun idx hidx => hbits idx ((List.mem_range.1 hidx).trans (by decide))
  obtain ⟨hheader, hframe⟩ := List.append_inj himage (by simp)
  have hindices : s.frameIndices exampleHeader = List.range' 579 46 := by
    have hN : s.pixelCount = 625 := by rw [State.pixelCount, hw, hh]; rfl
    exact (filtered_all s).trans (by rw [hN])
  exact ⟨hheader, rfl, by rw [hindices]; exact hframe⟩

end

/-- Settles O31: the ends of EXTRACT by the length of its sequence; a completed one read a payload frame, and the scenario's image holds
the frame of one byte. -/
theorem extractRecoversPayload : Obligations.ExtractRecoversPayload := by
  refine ⟨rfl, fun s => exec_extract_of_lt, fun s h S len hN hh hS hlen => ?ends, fun s hw hh hbits => ?scenario⟩
  case ends =>
    obtain rfl : S = s.frameIndices h := hS
    obtain rfl : len = s.frameLength h := hlen
    refine ⟨fun hshort => exec_extract_short hN hh (by omega), fun _ => exec_extract_short hN hh, fun hcap => ?_⟩
    obtain ⟨n, p, hf⟩ := exists_holdsFrame hcap
    have hrlen : (s.afterExtract h n p).rlen = n := afterExtract_rlen
    rw [hf.frameLength]
    refine ⟨_, exec_extract hN hh hf, by rw [afterExtract_eq], by rw [hrlen], afterExtract_rfnlen_of_file, ?frame,
      fun a ha => ?bytes⟩
    case frame =>
      rw [hrlen, afterExtract_payRead hf.length]
      exact hf.bits.symm
    case bytes => rw [afterExtract_payByte, if_neg (hf.length.trans_le ha).not_gt]
  case scenario =>
    obtain ⟨hheader, hf⟩ := scenario_image hw hh hbits
    exact ⟨_, exec_extract (by rw [State.pixelCount, hw, hh]; decide) (by rw [hheader, hdrDecode_hdrEncode]) hf, rfl, rfl,
      payByte_payWrite s _ 0, rfl, rfl, rfl⟩

/-! ## `last_bit_position` -/

/-- HDR_LAST has no part in where EXTRACT reads (R191). -/
theorem State.HoldsFrame.withLast {s : State} {h : Header} {n : BitVec 32} {p : Bytes} (hf : s.HoldsFrame h n p)
    (last : BitVec 32) : s.HoldsFrame { h with last := last } n p :=
  ⟨hf.length, hf.bits⟩

/-- Two header regions that differ only in the last field decode alike but for that field. -/
theorem hdrDecode_last {b b' : Bits} {h h' : Header} (hb : b.length = 579) (hb' : b'.length = 579)
    (hsame : ∀ i j, j ≤ 547 → slice b' i j = slice b i j) (hh : hdrDecode b = .ok h) (hh' : hdrDecode b' = .ok h') :
    h' = { h with last := h'.last } ∧ h'.last.toNat = bitsToNat (slice b' 547 579) := by
  obtain ⟨k, hk, hinfo, hmethod, hfname, hfirst, -⟩ := hdrDecode_fields hb
  obtain ⟨k', hk', hinfo', hmethod', hfname', hfirst', hlast'⟩ := hdrDecode_fields hb'
  obtain rfl : k = h := by simpa [hk] using hh
  obtain rfl : k' = h' := by simpa [hk'] using hh'
  rw [hsame _ _ (by decide)] at hinfo' hmethod' hfname' hfirst'
  have einfo : k'.info = k.info := BitVec.eq_of_toNat_eq (hinfo'.trans hinfo.symm)
  have emethod : k'.method = k.method := BitVec.eq_of_toNat_eq (hmethod'.trans hmethod.symm)
  have efname : k'.fname = k.fname := Vector.toList_inj.1 (Except.ok.inj (hfname'.symm.trans hfname))
  have efirst : k'.first = k.first := BitVec.eq_of_toNat_eq (hfirst'.trans hfirst.symm)
  refine ⟨?_, hlast'⟩
  rw [← einfo, ← emethod, ← efname, ← efirst]

/-- Settles O32: the other header bits and the frame region are the same, so the two runs end alike; HDR_LAST is what was decoded. -/
theorem extractIgnoresLastPosition : Obligations.ExtractIgnoresLastPosition := by
  intro s t q hbits hexec
  have hregion : SameFrameRegion s { s with pix := q } := ⟨rfl, rfl, fun idx hge hlt => hbits idx hlt (by omega)⟩
  obtain ⟨hN, hend⟩ | ⟨hN, h, hh, hend⟩ := exec_extract_cases s
  · obtain rfl : s.raise .truncatedHeader = t := by simpa [hend] using hexec
    exact ⟨_, exec_extract_of_lt (s := { s with pix := q }) hN, rfl, fun hst => absurd hst (statusRaised_ne_completed _)⟩
  obtain ⟨h', hh', -⟩ := hdrDecode_fields (length_headerBits { s with pix := q })
  have hslices : ∀ i j, j ≤ 547 → slice { s with pix := q }.headerBits i j = slice s.headerBits i j := fun i j hj => by
    rw [slice_headerBits _ (by omega), slice_headerBits _ (by omega)]
    refine readBits_congr fun idx hidx => ?_
    have hlt : idx < j := lt_of_mem_range' hidx
    exact hbits idx (by omega) (by omega)
  obtain ⟨hheader, hlast⟩ := hdrDecode_last (length_headerBits s) (length_headerBits _) hslices hh hh'
  generalize h'.last = last at hheader hlast
  subst hheader
  obtain ⟨hshort, hend⟩ | ⟨n, p, hf, hend⟩ := hend
  · obtain rfl : s.raise .insufficientData = t := by simpa [hend] using hexec
    have hshort' := hshort
    rw [← hregion.frameIndices, ← hregion.frameLength] at hshort'
    exact ⟨_, exec_extract_short (s := { s with pix := q }) hN hh' hshort', rfl,
      fun hst => absurd hst (statusRaised_ne_completed _)⟩
  · obtain rfl : s.afterExtract h n p = t := by simpa [hend] using hexec
    have hf' : { s with pix := q }.HoldsFrame { h with last := last } n p := hregion.holdsFrame (hf.withLast last)
    refine ⟨_, exec_extract (s := { s with pix := q }) hN hh' hf', by simp only [afterExtract_eq], fun _ => ?_⟩
    rw [slice_headerBits _ le_rfl] at hlast
    exact hlast

/-! ## Images without an embedding -/

/-- The header region of an image whose data bits are all 0 is the frame of the reset header. -/
theorem hdrEncode_reset : hdrEncode Header.reset = List.replicate 579 false := by decide +kernel

/-- An image whose data bits are all 1 names the largest number as `first_bit_position`. -/
theorem first_of_all_ones {s : State} {h : Header} (hbits : ∀ idx < 579, s.pixGetBit idx = true)
    (hh : hdrDecode s.headerBits = .ok h) : h.first.toNat = 0xFFFFFFFF := by
  obtain ⟨h', hh', -, -, -, hfirst, -⟩ := hdrDecode_fields (length_headerBits s)
  obtain rfl : h' = h := by simpa [hh'] using hh
  rw [hfirst, slice_headerBits s (by decide),
    readBits_eq_replicate fun idx hidx => hbits idx ((lt_of_mem_range' hidx).trans (by decide))]
  decide

/-- An empty payload under a header with method 0 needs 32 pixels above the header region. -/
theorem exec_extract_of_all_zeros {s : State} (hN : 611 ≤ s.pixelCount)
    (hbits : ∀ idx < s.pixelCount, s.pixGetBit idx = false) : exec .extract s = .next (s.afterExtract Header.reset 0#32 []) := by
  have hheader : s.headerBits = hdrEncode Header.reset := by
    rw [hdrEncode_reset, State.headerBits,
      readBits_eq_replicate fun idx hidx => hbits idx ((mem_headerIndices.1 hidx).trans_le (by omega)), length_headerIndices]
  have hindices : s.frameIndices Header.reset = List.range' 579 (s.pixelCount - 579) := filtered_all s
  have hf : s.HoldsFrame Header.reset 0#32 [] := by
    refine ⟨rfl, ?_⟩
    rw [hindices, BitVec.toNat_zero, readBits_eq_replicate fun idx hidx =>
      hbits idx (lt_of_mem_range' (List.mem_of_mem_take hidx)), List.length_take, List.length_range',
      Nat.min_eq_left (by omega)]
    decide
  exact exec_extract (by omega) (by rw [hheader, hdrDecode_hdrEncode]) hf

/-- Settles O34: the three ends of EXTRACT; all zeros are an empty frame, and all ones put the first position past every pixel. -/
theorem extractWithoutEmbedding : Obligations.ExtractWithoutEmbedding := by
  refine ⟨fun s => ?outcomes, fun s => exec_extract_of_all_zeros, fun s hN hbits => ?ones⟩
  case outcomes =>
    obtain ⟨hN, hend⟩ | ⟨hN, h, -, ⟨-, hend⟩ | ⟨n, p, -, hend⟩⟩ := exec_extract_cases s
    · exact ⟨_, hend, .inr (.inr rfl), iff_of_true rfl hN⟩
    · exact ⟨_, hend, .inr (.inl rfl), iff_of_false (by rw [raise_status]; decide) hN.not_gt⟩
    · exact ⟨_, hend, .inl rfl, iff_of_false (by rw [afterExtract_status]; decide) hN.not_gt⟩
  case ones =>
    obtain ⟨h, hh, -⟩ := hdrDecode_fields (length_headerBits s)
    have hfirst := first_of_all_ones (fun idx hidx => hbits idx (by omega)) hh
    have hnone : s.frameIndices h = [] := by
      have hmax := pixelCount_lt s
      exact filtered_eq_nil _ (by omega)
    exact exec_extract_short hN hh (by rw [hnone, List.length_nil]; omega)

/-! ## A second EXTRACT -/

/-- The bytes that an EXTRACT left in PAY do not change when they are written again. -/
theorem samePay_afterExtract_twice (s : State) (h : Header) (n : BitVec 32) (p : Bytes) :
    SamePay (s.afterExtract h n p) ((s.afterExtract h n p).afterExtract h n p) := fun a => by
  rw [afterExtract_payByte (s := s.afterExtract h n p), afterExtract_payByte]
  split <;> rfl

theorem SamePay.payRead {s t : State} (hpay : SamePay s t) (k : Nat) : t.payRead k = s.payRead k :=
  List.map_congr_left fun a _ => hpay a

/-- Settles O35: an EXTRACT writes nothing that EXTRACT reads, so the second one ends as the first. -/
theorem extractIsIdempotent : Obligations.ExtractIsIdempotent := by
  intro s t hexec
  obtain ⟨hN, hend⟩ | ⟨hN, h, hh, ⟨hshort, hend⟩ | ⟨n, p, hf, hend⟩⟩ := exec_extract_cases s
  · obtain rfl : s.raise .truncatedHeader = t := by simpa [hend] using hexec
    exact ⟨_, exec_extract_of_lt (s := s.raise .truncatedHeader) hN, rfl, rfl, rfl, rfl, rfl, fun _ => rfl, fun _ => rfl, rfl⟩
  · obtain rfl : s.raise .insufficientData = t := by simpa [hend] using hexec
    exact ⟨_, exec_extract_short (s := s.raise .insufficientData) hN hh hshort, rfl, rfl, rfl, rfl, rfl, fun _ => rfl,
      fun _ => rfl, rfl⟩
  · obtain rfl : s.afterExtract h n p = t := by simpa [hend] using hexec
    have hpay := samePay_afterExtract_twice s h n p
    have hregion : SameFrameRegion s (s.afterExtract h n p) := ⟨rfl, rfl, fun _ _ _ => rfl⟩
    have hexec' := exec_extract (s := s.afterExtract h n p) (hN.trans_eq hregion.pixelCount.symm)
      (by rw [afterExtract_headerBits, hh]) (hregion.holdsFrame hf)
    exact ⟨_, hexec', by simp, by simp, by simp, by simp, by simp, fun _ => by simpa using hpay.payRead n.toNat, hpay, by simp⟩

end Sys2Proof.Machine
end

section
/-! O38, O39 and O40: the error a command reports, the errors it can report, and what it leaves when it does (R207, R215 to R217). -/

namespace Sys2Proof.Machine

/-! ## The fields of STATUS at a command's end -/

theorem statusCompleted_fields (endFlag : Bool) :
    statusErr (statusCompleted endFlag) = false ∧ statusDone (statusCompleted endFlag) = true ∧
    statusBusy (statusCompleted endFlag) = false ∧ statusErrcode (statusCompleted endFlag) = 0#4 := by
  cases endFlag <;> decide

@[simp] theorem statusEnd_statusCompleted (endFlag : Bool) : statusEnd (statusCompleted endFlag) = endFlag := by
  cases endFlag <;> rfl

@[simp] theorem statusEnd_statusRaised (e : ErrorKind) : statusEnd (statusRaised e) = false := by
  cases e <;> rfl

@[simp] theorem statusErrcode_statusRaised (e : ErrorKind) : statusErrcode (statusRaised e) = errorCode e := by
  cases e <;> rfl

theorem errorCode_injective : Function.Injective errorCode := by
  intro e e' h
  cases e <;> cases e' <;> simp [errorCode] at h ⊢

/-! ## The error a command reports -/

section
variable {i : Instr} {s t : State} {e : ErrorKind}

theorem Ends.status_of_error (h : Ends s i t) (herr : firstError i s = some e) : t.status = statusRaised e := by
  obtain ⟨e', herr', hst⟩ | ⟨hnone, -⟩ := h.status_cases
  · rw [hst, Option.some.inj (herr'.symm.trans herr)]
  · cases hnone.symm.trans herr

theorem Ends.status_of_no_error (h : Ends s i t) (hnone : firstError i s = none) : ∃ endFlag, t.status = statusCompleted endFlag := by
  obtain ⟨e, herr, -⟩ | ⟨-, hst⟩ := h.status_cases
  · cases hnone.symm.trans herr
  · exact hst

/-- END is SELNEXT's alone (R213). -/
theorem Ends.eq_selnext_of_end (h : Ends s i t) (hend : statusEnd t.status = true) : i = .selnext := by
  cases h with
  | selnextEnd => rfl
  | _ => simp at hend

/-- A command that ends with ERR = 1 and a code has met that code's error condition first. -/
theorem Ends.firstError_of_errcode (h : Ends s i t) (hst : statusErr t.status = true)
    (hcode : statusErrcode t.status = errorCode e) : firstError i s = some e := by
  obtain ⟨e', herr, hst'⟩ | ⟨-, endFlag, hst'⟩ := h.status_cases
  · rw [hst', statusErrcode_statusRaised] at hcode
    rw [herr, errorCode_injective hcode]
  · simp [hst'] at hst

end

/-- Settles O38: the ends of a command by `firstError`; the example's image is too small before its method is looked at. -/
theorem commandReportsFirstError : Obligations.CommandReportsFirstError := by
  refine ⟨fun i s => ?reports, fun s => rfl, fun s hplen hw hh hm => exec_embed_small hplen ?small⟩
  case reports =>
    obtain ⟨t, hexec, hends⟩ := exec_ends i s
    refine ⟨t, hexec, fun e => hends.status_of_error, fun hnone => ?_⟩
    obtain ⟨endFlag, hst⟩ := hends.status_of_no_error hnone
    obtain ⟨herr, hdone, hbusy, hcode⟩ := statusCompleted_fields endFlag
    exact ⟨hst ▸ herr, hst ▸ hdone, hst ▸ hbusy, hst ▸ hcode, hends.eq_selnext_of_end⟩
  case small => rw [State.pixelCount, hw, hh]; decide

/-! ## A state for each cell of the error table -/

/-- An image that the header fills: no pixel is left above it. -/
def headerSized : State := { State.reset with width := 579#16, height := 1#16 }

/-- Where the header fills the image, no pixel is left for a payload length, whatever the header says. -/
theorem exec_extract_of_pixelCount_eq {s : State} (hN : s.pixelCount = 579) :
    exec .extract s = .next (s.raise .insufficientData) := by
  obtain ⟨h, hh, -⟩ := hdrDecode_fields (length_headerBits s)
  have hnone : s.frameIndices h = [] := filtered_eq_nil _ (by omega)
  exact exec_extract_short hN.ge hh (by rw [hnone, List.length_nil]; omega)

/-- Every error in a command's row is reported from some state (R207). -/
theorem exists_raises_of_mem_canRaise {i : Instr} {e : ErrorKind} (he : e ∈ canRaise i) :
    ∃ s t, exec i s = .next t ∧ t.status = statusRaised e := by
  cases i with
  | embed =>
    fin_cases he
    · exact ⟨{ headerSized with method := 4#8 }, _, exec_embed_unsupported (by decide) (by decide) (by decide), rfl⟩
    · exact ⟨State.reset, _, exec_embed_small (by decide) (by decide), rfl⟩
    · exact ⟨headerSized, _, exec_embed_capacity (m := .all) (by decide) (by decide) rfl
        (by rw [filtered_eq_nil .all (by decide)]; decide), rfl⟩
    · exact ⟨{ State.reset with plen := 0x100000000#64 }, _, exec_embed_of_gt (by decide), rfl⟩
  | extract =>
    fin_cases he
    · exact ⟨headerSized, _, exec_extract_of_pixelCount_eq rfl, rfl⟩
    · exact ⟨State.reset, _, exec_extract_of_lt (by decide), rfl⟩
  | hdrwr =>
    fin_cases he
    exact ⟨State.reset, _, exec_hdrwr_of_lt (by decide), rfl⟩
  | hdrrd =>
    fin_cases he
    exact ⟨State.reset, _, exec_hdrrd_of_lt (by decide), rfl⟩
  | selnext | selcnt =>
    fin_cases he
    exact ⟨{ State.reset with method := 4#8 }, _, exec_selector_of_lt (by decide) (by decide), rfl⟩
  | wrbits =>
    fin_cases he
    · exact ⟨{ State.reset with method := 4#8 }, _, exec_wrbits_unsupported (by decide) (by decide), rfl⟩
    · exact ⟨{ State.reset with plen := 1#64 }, _, exec_wrbits_capacity (m := .all) (by decide) rfl (by decide), rfl⟩
    · exact ⟨{ State.reset with plen := 0x100000000#64 }, _, exec_wrbits_of_gt (by decide), rfl⟩
  | rdbits =>
    fin_cases he
    · exact ⟨{ State.reset with method := 4#8 }, _, exec_rdbits_unsupported (by decide), rfl⟩
    · exact ⟨{ State.reset with blen := 8#32 }, _, exec_rdbits_short (m := .all) rfl (by decide), rfl⟩
    · exact ⟨{ State.reset with width := 1#16, height := 1#16, blen := 1#32 }, _,
        exec_rdbits_misaligned (m := .all) rfl (by decide) (by decide), rfl⟩

/-- Settles O39: each cell of the table has a state that reports its error, and `firstError` names no error outside the row. -/
theorem commandErrorTable : Obligations.CommandErrorTable := by
  refine fun i e => ⟨fun he => ?raised, fun ⟨s, t, hexec, hst, hcode⟩ => ?listed⟩
  case raised =>
    obtain ⟨s, t, hexec, hst⟩ := exists_raises_of_mem_canRaise he
    exact ⟨s, t, hexec, by rw [hst, statusErr_statusRaised], by rw [hst, statusErrcode_statusRaised]⟩
  case listed => exact firstError_mem_canRaise ((ends_of_exec hexec).firstError_of_errcode hst hcode)

/-! ## What an error leaves -/

/-- Settles O40: the three ends with an error; the counts that two of them record fit REQ and AVAIL. -/
theorem errorChangesOnlyStatus : Obligations.ErrorChangesOnlyStatus := by
  intro i s t hexec hst
  cases ends_of_exec hexec with
  | @raises _ e _ hcap =>
    refine ⟨rfl, ⟨e, rfl⟩, fun _ => ⟨rfl, rfl⟩, fun hcode => absurd (errorCode_injective ?_) hcap⟩
    exact (statusErrcode_statusRaised e).symm.trans hcode
  | @embedCapacity m herr hm =>
    obtain ⟨hplen, -⟩ := operands_of_firstError_embed (s := s) (by simp [herr])
    exact ⟨rfl, ⟨_, rfl⟩, fun hcode => absurd (statusErrcode_statusRaised _) hcode, fun _ =>
      ⟨m, hm, .inl ⟨rfl, recordCapacity_toNat (by omega) m 579⟩⟩⟩
  | @wrbitsCapacity m herr hm =>
    have hplen := operands_of_firstError_wrbits (s := s) (by simp [herr])
    exact ⟨rfl, ⟨_, rfl⟩, fun hcode => absurd (statusErrcode_statusRaised _) hcode, fun _ =>
      ⟨m, hm, .inr ⟨rfl, recordCapacity_toNat (by omega) m s.floor.toNat⟩⟩⟩
  | _ => simp at hst

end Sys2Proof.Machine
end

section
/-! The host port: the registers by number, and what one transaction does (R21, R22, R35). -/

namespace Sys2Proof.Machine

/-! ## Register numbers -/

@[simp] theorem regOfNumber_regNumber (r : Reg) : regOfNumber (regNumber r) = some r := by cases r <;> rfl

/-- A number names at most one register (R21). -/
theorem regOfNumber_eq_some {n : BitVec 8} {r : Reg} : regOfNumber n = some r ↔ n = regNumber r := by
  refine ⟨fun h => BitVec.eq_of_toNat_eq ?_, fun h => h ▸ regOfNumber_regNumber r⟩
  unfold regOfNumber at h
  split at h <;> cases h <;> assumption

theorem regOfNumber_eq_none {n : BitVec 8} : regOfNumber n = none ↔
    9 ≤ n.toNat ∧ n.toNat ≤ 15 ∨ n.toNat = 22 ∨ n.toNat = 23 ∨ 29 ≤ n.toNat ∧ n.toNat ≤ 31 ∨ 34 ≤ n.toNat := by
  unfold regOfNumber
  split
  case h_23 =>
    simp only [imp_false, true_iff] at *
    omega
  all_goals exact iff_of_false nofun (by omega)

theorem number_cases (n : BitVec 8) : regOfNumber n = none ∨ ∃ r, n = regNumber r := by
  cases h : regOfNumber n with
  | none => exact .inl rfl
  | some r => exact .inr ⟨r, regOfNumber_eq_some.1 h⟩

/-! ## What a register holds -/

section
variable (s : State)

theorem readReg_lt (r : Reg) : s.readReg r < 2 ^ regWidth r := by
  cases r with
  | cmd | fname | hdrFname => exact Nat.two_pow_pos _
  | _ => exact BitVec.isLt _

theorem readElem_lt (r : Reg) (j : Nat) : s.readElem r j < 2 ^ 8 := by
  cases r with
  | fname | hdrFname => exact BitVec.isLt _
  | _ => exact Nat.two_pow_pos _

theorem regWidth_le (r : Reg) : regWidth r ≤ 64 := by cases r <;> decide

theorem readReg_lt_readData (r : Reg) : s.readReg r < 2 ^ 64 :=
  (readReg_lt s r).trans_le (Nat.pow_le_pow_right (by decide) (regWidth_le r))

end

/-! ## Writing a register -/

section
variable (s : State) (r : Reg) (v : Nat)

@[simp] theorem writeReg_pix : (s.writeReg r v).pix = s.pix := by cases r <;> rfl
@[simp] theorem writeReg_pay : (s.writeReg r v).pay = s.pay := by cases r <;> rfl
@[simp] theorem writeReg_status : (s.writeReg r v).status = s.status := by cases r <;> rfl
@[simp] theorem writeReg_rfnlen : (s.writeReg r v).rfnlen = s.rfnlen := by cases r <;> rfl
@[simp] theorem writeReg_host : (s.writeReg r v).host = s.host := by cases r <;> rfl
@[simp] theorem writeReg_readData : (s.writeReg r v).readData = s.readData := by cases r <;> rfl
@[simp] theorem writeReg_resets : (s.writeReg r v).resets = s.resets := by cases r <;> rfl

@[simp] theorem readElem_writeReg (r' : Reg) (j : Nat) : (s.writeReg r v).readElem r' j = s.readElem r' j := by
  cases r <;> rfl

variable {r}

theorem readReg_writeReg_same (hacc : regAccess r = .readWrite) (hplain : regIsArray r = false) :
    (s.writeReg r v).readReg r = v % 2 ^ regWidth r := by
  cases r with
  | fname | hdrFname => cases hplain
  | result | req | avail | rlen | kind | rfnlen | status | cmd => cases hacc
  | _ => exact BitVec.toNat_ofNat v _

theorem writeReg_of_readOnly (hacc : regAccess r = .readOnly) : s.writeReg r v = s := by
  cases r with
  | result | req | avail | rlen | kind | rfnlen | status => rfl
  | _ => cases hacc

theorem readReg_writeReg_other {r' : Reg} (h : r' ≠ r) : (s.writeReg r v).readReg r' = s.readReg r' := by
  cases r <;> cases r' <;> try rfl
  all_goals exact absurd rfl h

end

/-! ## Writing an array element -/

section
variable (s : State) (r : Reg) (j v : Nat)

@[simp] theorem writeElem_pix : (s.writeElem r j v).pix = s.pix := by cases r <;> rfl
@[simp] theorem writeElem_pay : (s.writeElem r j v).pay = s.pay := by cases r <;> rfl
@[simp] theorem writeElem_status : (s.writeElem r j v).status = s.status := by cases r <;> rfl
@[simp] theorem writeElem_rfnlen : (s.writeElem r j v).rfnlen = s.rfnlen := by cases r <;> rfl
@[simp] theorem writeElem_host : (s.writeElem r j v).host = s.host := by cases r <;> rfl
@[simp] theorem writeElem_readData : (s.writeElem r j v).readData = s.readData := by cases r <;> rfl
@[simp] theorem writeElem_resets : (s.writeElem r j v).resets = s.resets := by cases r <;> rfl

@[simp] theorem readReg_writeElem (r' : Reg) : (s.writeElem r j v).readReg r' = s.readReg r' := by
  cases r <;> rfl

variable {r j}

theorem getD_setElem (a : Vector Byte 64) (hj : j ≤ 63) (x : Byte) (k : Nat) :
    (setElem a j x).toList.getD k 0#8 = if k = j then x else a.toList.getD k 0#8 := by
  simp only [setElem, List.getD_eq_getElem?_getD, Vector.getElem?_toList, Vector.getElem?_setIfInBounds]
  by_cases hk : k = j
  · rw [if_pos hk.symm, if_pos (by omega), if_pos hk, Option.getD_some]
  · rw [if_neg (Ne.symm hk), if_neg hk]

/-- An element of an array register after a write to one (R22). -/
theorem readElem_writeElem (hr : regIsArray r = true) (hj : j ≤ 63) (r' : Reg) (k : Nat) :
    (s.writeElem r j v).readElem r' k = if r' = r ∧ k = j then v % 256 else s.readElem r' k := by
  have hset (a : Vector Byte 64) : ((setElem a j (BitVec.ofNat 8 v)).toList.getD k 0#8).toNat =
      if k = j then v % 256 else (a.toList.getD k 0#8).toNat := by
    rw [getD_setElem a hj, apply_ite BitVec.toNat, BitVec.toNat_ofNat]
  cases r with
  | fname | hdrFname =>
    cases r' <;> simp only [State.writeElem, State.readElem, hset, reduceCtorEq, true_and, false_and, if_false]
  | _ => cases hr

end

/-! ## One transaction on an idle engine -/

section
variable {s t : State} {n : BitVec 8} {r : Reg} {j v : Nat}

theorem writeNumber_unassigned (hn : regOfNumber n = none) : writeNumber n v s = .next s := by rw [writeNumber, hn]

theorem writeNumber_array (hr : regIsArray r = true) :
    writeNumber (regNumber r) v s = .refused (.arrayRegisterWithoutElement (regNumber r)) := by
  cases r with
  | fname | hdrFname => rfl
  | _ => cases hr

theorem writeNumber_plain (hr : regIsArray r = false) (hcmd : r ≠ .cmd) :
    writeNumber (regNumber r) v s = .next (s.writeReg r v) := by
  cases r with
  | fname | hdrFname => cases hr
  | cmd => exact absurd rfl hcmd
  | _ => rfl

theorem writeNumberElem_unassigned (hn : regOfNumber n = none ∨ 63 < j) : writeNumberElem n j v s = .next s := by
  cases h : regOfNumber n with
  | none => rw [writeNumberElem, h]
  | some r => simp [writeNumberElem, h, hn.resolve_left (by simp [h])]

theorem writeNumberElem_array (hr : regIsArray r = true) (hj : j ≤ 63) :
    writeNumberElem (regNumber r) j v s = .next (s.writeElem r j v) := by
  simp [writeNumberElem, hr, hj.not_gt]

theorem writeNumberElem_plain (hr : regIsArray r = false) (hj : j ≤ 63) :
    writeNumberElem (regNumber r) j v s = .refused (.elementOfPlainRegister (regNumber r) j) := by
  simp [writeNumberElem, hr, hj.not_gt]

theorem readNumber_unassigned (hn : regOfNumber n = none) : readNumber n s = .next (s.answerRead 0) := by rw [readNumber, hn]

theorem readNumber_array (hr : regIsArray r = true) :
    readNumber (regNumber r) s = .refused (.arrayRegisterWithoutElement (regNumber r)) := by
  simp [readNumber, hr]

theorem readNumber_plain (hr : regIsArray r = false) : readNumber (regNumber r) s = .next (s.answerRead (s.readReg r)) := by
  simp [readNumber, hr]

theorem readNumberElem_unassigned (hn : regOfNumber n = none ∨ 63 < j) : readNumberElem n j s = .next (s.answerRead 0) := by
  cases h : regOfNumber n with
  | none => rw [readNumberElem, h]
  | some r => simp [readNumberElem, h, hn.resolve_left (by simp [h])]

theorem readNumberElem_array (hr : regIsArray r = true) (hj : j ≤ 63) :
    readNumberElem (regNumber r) j s = .next (s.answerRead (s.readElem r j)) := by
  simp [readNumberElem, hr, hj.not_gt]

theorem readNumberElem_plain (hr : regIsArray r = false) (hj : j ≤ 63) :
    readNumberElem (regNumber r) j s = .refused (.elementOfPlainRegister (regNumber r) j) := by
  simp [readNumberElem, hr, hj.not_gt]

end

/-! ## Well-formed transactions -/

/-- The states that a transaction on an idle engine can lead to, by its effect (R22, R35, R212, R218, R240). -/
inductive Answer (s : State) : State → Prop
  | unchanged : Answer s s
  | writeReg (r : Reg) (v : Nat) : Answer s (s.writeReg r v)
  | writeElem (r : Reg) (j v : Nat) : Answer s (s.writeElem r j v)
  | command {i : Instr} {t : State} (h : Ends s i t) : Answer s t
  | reserved : Answer s { s with status := 0x806#12 }
  | read (v : Nat) : Answer s (s.answerRead v)
  | pixWrite (idx : BitVec 32) (c : Pixel) : Answer s (s.setPixCell idx.toNat c)
  | payWrite (a : BitVec 32) (x : Byte) : Answer s { s with pay := s.pay.write a.toNat x }
  | reset : Answer s s.resetEvent

section
variable {s t : State} {a : HostAccess} {n : BitVec 8} {j : Nat}

theorem names_array_iff :
    (regOfNumber n).all (fun r => !regIsArray r) = false ↔ ∃ r, regIsArray r = true ∧ n = regNumber r := by
  rcases h : regOfNumber n with _ | r
  · simp [← regOfNumber_eq_some, h]
  · simp [← regOfNumber_eq_some, h]

theorem names_plain_iff :
    (decide (63 < j) || (regOfNumber n).all regIsArray) = false ↔ ∃ r, regIsArray r = false ∧ j ≤ 63 ∧ n = regNumber r := by
  rcases h : regOfNumber n with _ | r
  · simp [← regOfNumber_eq_some, h]
  · simp [← regOfNumber_eq_some, h, and_comm]

theorem startCommand_answer (v : Nat) (s : State) : ∃ t, startCommand v s = .next t ∧ Answer s t := by
  obtain ⟨i, hstart, -⟩ | ⟨hstart, -⟩ := startCommand_cases v s
  · obtain ⟨t, hexec, hends⟩ := exec_ends i s
    exact ⟨t, hstart.trans hexec, .command hends⟩
  · exact ⟨_, hstart, .reserved⟩

/-- An idle engine answers every well-formed transaction (R22, R35, R240). -/
theorem hostAccessIdle_answers (s : State) (hwf : a.wellFormed = true) : ∃ t, hostAccessIdle a s = .next t ∧ Answer s t := by
  cases a with
  | write n v =>
    obtain hn | ⟨r, rfl⟩ := number_cases n
    · exact ⟨s, writeNumber_unassigned hn, .unchanged⟩
    have hr : regIsArray r = false := by simpa [HostAccess.wellFormed] using hwf
    by_cases hcmd : r = .cmd
    · subst hcmd
      exact startCommand_answer v s
    · exact ⟨_, writeNumber_plain hr hcmd, .writeReg r v⟩
  | writeElem n j v =>
    obtain hn | ⟨r, rfl⟩ := number_cases n
    · exact ⟨s, writeNumberElem_unassigned (.inl hn), .unchanged⟩
    obtain hj | hj := Nat.lt_or_ge 63 j
    · exact ⟨s, writeNumberElem_unassigned (.inr hj), .unchanged⟩
    · have hr : regIsArray r = true := by simpa [HostAccess.wellFormed, hj.not_gt] using hwf
      exact ⟨_, writeNumberElem_array hr hj, .writeElem r j v⟩
  | read n =>
    obtain hn | ⟨r, rfl⟩ := number_cases n
    · exact ⟨_, readNumber_unassigned hn, .read 0⟩
    · have hr : regIsArray r = false := by simpa [HostAccess.wellFormed] using hwf
      exact ⟨_, readNumber_plain hr, .read _⟩
  | readElem n j =>
    obtain hn | ⟨r, rfl⟩ := number_cases n
    · exact ⟨_, readNumberElem_unassigned (.inl hn), .read 0⟩
    obtain hj | hj := Nat.lt_or_ge 63 j
    · exact ⟨_, readNumberElem_unassigned (.inr hj), .read 0⟩
    · have hr : regIsArray r = true := by simpa [HostAccess.wellFormed, hj.not_gt] using hwf
      exact ⟨_, readNumberElem_array hr hj, .read _⟩
  | pixWrite idx c => exact ⟨_, rfl, .pixWrite idx _⟩
  | pixRead idx => exact ⟨_, rfl, .read _⟩
  | payWrite a x => exact ⟨_, rfl, .payWrite a x⟩
  | payRead a => exact ⟨_, rfl, .read _⟩
  | reset => exact ⟨_, rfl, .reset⟩

/-- An idle engine refuses every ill-formed transaction (log 7). -/
theorem hostAccessIdle_refuses (s : State) (hwf : a.wellFormed = false) : ∃ e, hostAccessIdle a s = .refused e := by
  cases a with
  | write n v =>
    obtain ⟨r, hr, rfl⟩ := names_array_iff.1 hwf
    exact ⟨_, writeNumber_array hr⟩
  | writeElem n j v =>
    obtain ⟨r, hr, hj, rfl⟩ := names_plain_iff.1 hwf
    exact ⟨_, writeNumberElem_plain hr hj⟩
  | read n =>
    obtain ⟨r, hr, rfl⟩ := names_array_iff.1 hwf
    exact ⟨_, readNumber_array hr⟩
  | readElem n j =>
    obtain ⟨r, hr, hj, rfl⟩ := names_plain_iff.1 hwf
    exact ⟨_, readNumberElem_plain hr hj⟩
  | pixWrite | pixRead | payWrite | payRead | reset => cases hwf

theorem answer_of_hostAccessIdle (h : hostAccessIdle a s = .next t) : Answer s t := by
  cases hwf : a.wellFormed with
  | false =>
    obtain ⟨e, he⟩ := hostAccessIdle_refuses s hwf
    cases he.symm.trans h
  | true =>
    obtain ⟨t', ht, hanswer⟩ := hostAccessIdle_answers s hwf
    cases ht.symm.trans h
    exact hanswer

end

/-! ## One step -/

section
variable {s t : State} {a : HostAccess} {rest : List HostAccess}

theorem step_of_no_host (hhost : s.host = []) : step s = .next s := by rw [step, hhost]

theorem step_of_host (hhost : s.host = a :: rest) : step s = hostAccess a { s with host := rest } := by rw [step, hhost]

theorem hostAccess_of_idle (hidle : statusBusy s.status = false) : hostAccess a s = hostAccessIdle a s := by
  cases a with
  | reset => rfl
  | _ => simp [hostAccess, hidle]

/-- On an idle engine a step is the host's next transaction, at the state that has moved past it. -/
theorem step_of_idle (hidle : statusBusy s.status = false) (hhost : s.host = a :: rest) :
    step s = hostAccessIdle a { s with host := rest } :=
  (step_of_host hhost).trans (hostAccess_of_idle hidle)

end

end Sys2Proof.Machine
end

section
/-! O45 and O46: the invariant of a run (R32, R206, log 2). -/

namespace Sys2Proof.Machine

/-! ## STATUS at a command's end -/

theorem statusLegal_statusRaised (e : ErrorKind) : statusLegal (statusRaised e) := by cases e <;> decide

theorem statusLegal_statusCompleted (endFlag : Bool) : statusLegal (statusCompleted endFlag) := by cases endFlag <;> decide

section
variable {i : Instr} {s t : State}

theorem Ends.statusLegal (h : Ends s i t) : statusLegal t.status := by
  obtain ⟨e, -, hst⟩ | ⟨-, endFlag, hst⟩ := h.status_cases
  · exact hst ▸ statusLegal_statusRaised e
  · exact hst ▸ statusLegal_statusCompleted endFlag

/-! ## The memories and RFNLEN at a command's end -/

theorem lt_of_mem_filtered {m : Method} {f idx : Nat} (h : idx ∈ s.filtered m f) : idx < 2 ^ 32 := by
  obtain ⟨⟨hlt, -⟩, -⟩ := mem_filtered.1 h
  have hN := pixelCount_lt s
  omega

theorem wf_pix_writeHeader (hdr : Header) (h : s.pix.wf = true) : (s.writeHeader hdr).pix.wf = true :=
  wf_pix_writeBits s _ h fun idx hidx => by
    have hlt := mem_headerIndices.1 hidx
    omega

theorem Ends.pix_wf (h : Ends s i t) (hpix : s.pix.wf = true) : t.pix.wf = true := by
  cases h with
  | embed =>
    rw [complete_pix]
    refine wf_pix_writeBits _ _ ?_ fun idx hidx => lt_of_mem_filtered hidx
    exact wf_pix_writeHeader _ hpix
  | hdrwr =>
    rw [complete_pix]
    exact wf_pix_writeHeader s.hdr hpix
  | wrbits =>
    rw [complete_pix]
    refine wf_pix_writeBits _ _ ?_ fun idx hidx => lt_of_mem_filtered hidx
    exact hpix
  | _ => simpa using hpix

/-- EXTRACT reports an error, or leaves the payload of a frame that it read (R190). -/
theorem Ends.extract_cases (h : Ends s .extract t) :
    (∃ e, t = s.raise e) ∨ ∃ hdr n p, p.length = n.toNat ∧ t = s.afterExtract hdr n p := by
  have hexec := exec_of_ends h
  obtain ⟨-, hend⟩ | ⟨-, hdr, -, ⟨-, hend⟩ | ⟨n, p, hframe, hend⟩⟩ := exec_extract_cases s
  · exact .inl ⟨_, by simpa using hexec.symm.trans hend⟩
  · exact .inl ⟨_, by simpa using hexec.symm.trans hend⟩
  · exact .inr ⟨hdr, n, p, hframe.length, by simpa using hexec.symm.trans hend⟩

/-- A command leaves PAY as it is, or writes RLEN bytes from address 0 (R186, R190). -/
theorem Ends.pay_cases (h : Ends s i t) :
    t.pay = s.pay ∨ ∃ bs : Bytes, bs.length = t.rlen.toNat ∧ t.pay = s.pay.writeAll 0 bs := by
  cases i with
  | extract =>
    obtain ⟨e, rfl⟩ | ⟨hdr, n, p, hlen, rfl⟩ := h.extract_cases
    · exact .inl rfl
    · exact .inr ⟨p, by rw [hlen, afterExtract_rlen], rfl⟩
  | rdbits =>
    have hrlen := h.rlen_of_rdbits
    cases h with
    | raises => exact .inl rfl
    | @rdbits m bs herr hm hbs =>
      refine .inr ⟨bs, ?_, rfl⟩
      rw [hrlen (statusErr_statusCompleted false), length_of_bitsToBytes hbs, length_readBits, List.length_take,
        Nat.min_eq_left (le_length_of_firstError_rdbits herr hm)]
  | _ => exact .inl (h.pay_eq (by simp))

theorem Ends.pay_wf (h : Ends s i t) (hpay : s.pay.wf = true) : t.pay.wf = true := by
  obtain heq | ⟨bs, hlen, heq⟩ := h.pay_cases
  · exact heq ▸ hpay
  · have hrlen := t.rlen.isLt
    exact heq ▸ wf_writeAll hpay (by omega)

theorem Ends.rfnlen_le (h : Ends s i t) (hrfnlen : s.rfnlen.toNat ≤ 64) : t.rfnlen.toNat ≤ 64 := by
  by_cases hi : i = .extract
  · subst hi
    obtain ⟨e, rfl⟩ | ⟨hdr, n, p, -, rfl⟩ := h.extract_cases
    · exact hrfnlen
    by_cases hinfo : hdr.info = 1#1
    · rw [afterExtract_rfnlen_of_file hinfo]
      exact length_fnameRecover_le hdr.fname
    · rw [afterExtract_rfnlen, if_neg hinfo]
      decide
  · rw [(h.kind_eq hi).2]
    exact hrfnlen

theorem Ends.inv (h : Ends s i t) (hinv : Inv s) : Inv t :=
  ⟨h.pix_wf hinv.pixWf, h.pay_wf hinv.payWf, h.statusLegal, h.rfnlen_le hinv.rfnlen⟩

/-! ## Every step -/

/-- Settles O45: nothing is written yet, and STATUS and RFNLEN are 0. -/
theorem resetMeetsInvariant : Obligations.ResetMeetsInvariant := ⟨wf_nil, wf_nil, by decide, by decide⟩

theorem Inv.of_eq (hinv : Inv s) (hpix : t.pix = s.pix) (hpay : t.pay = s.pay) (hstatus : t.status = s.status)
    (hrfnlen : t.rfnlen = s.rfnlen) : Inv t :=
  ⟨hpix ▸ hinv.pixWf, hpay ▸ hinv.payWf, hstatus ▸ hinv.status, hrfnlen ▸ hinv.rfnlen⟩

theorem Answer.inv (h : Answer s t) (hinv : Inv s) : Inv t := by
  obtain ⟨hpix, hpay, hstatus, hrfnlen⟩ := id hinv
  cases h with
  | unchanged => exact hinv
  | writeReg r v =>
    exact hinv.of_eq (writeReg_pix s r v) (writeReg_pay s r v) (writeReg_status s r v) (writeReg_rfnlen s r v)
  | writeElem r j v =>
    exact hinv.of_eq (writeElem_pix s r j v) (writeElem_pay s r j v) (writeElem_status s r j v) (writeElem_rfnlen s r j v)
  | command h => exact h.inv hinv
  | reserved => exact ⟨hpix, hpay, statusLegal_statusRaised .illegalCommand, hrfnlen⟩
  | read v => exact hinv.of_eq rfl rfl rfl rfl
  | pixWrite idx c => exact ⟨wf_write c hpix idx.isLt, hpay, hstatus, hrfnlen⟩
  | payWrite a x => exact ⟨hpix, wf_write x hpay a.isLt, hstatus, hrfnlen⟩
  | reset => exact Inv.of_eq resetMeetsInvariant rfl rfl rfl rfl

end

/-- Settles O46: the host's side is outside the invariant, and every answer to a transaction keeps it. -/
theorem stepKeepsInvariant : Obligations.StepKeepsInvariant := by
  intro s t hinv hstep
  cases hhost : s.host with
  | nil =>
    cases (step_of_no_host hhost).symm.trans hstep
    exact hinv
  | cons a rest =>
    have hidle : statusBusy s.status = false := hinv.status.1
    have hanswer := answer_of_hostAccessIdle ((step_of_idle hidle hhost).symm.trans hstep)
    exact hanswer.inv (hinv.of_eq rfl rfl rfl rfl)

end Sys2Proof.Machine
end

section
/-! O37, O43 and O44: what no command writes, and what no command's outcome depends on (R20, R23 to R28, R32, R79). -/

namespace Sys2Proof.Machine

/-! ## The operand registers, the host's side, and STATUS -/

section
variable {i : Instr} {s t : State}

theorem Ends.sameOperands (h : Ends s i t) : SameOperands s t := by
  cases h <;> constructor <;> simp

theorem Ends.sameHost (h : Ends s i t) : SameHost s t := by
  cases h <;> constructor <;> simp

theorem beginCommand_beginCommand (s : State) : s.beginCommand.beginCommand = s.beginCommand := rfl

/-- Every command starts by setting STATUS, so it runs alike where that has been done already (R212); the two sides differ
in instances, which `rfl` identifies. -/
theorem exec_beginCommand (i : Instr) (s : State) : exec i s.beginCommand = exec i s := by
  cases i <;> simp only [exec, execEmbed, execExtract, execHdrwr, execHdrrd, execSelnext, execSelcnt, execWrbits, execRdbits,
    beginCommand_beginCommand] <;> rfl

theorem exec_withStatus (i : Instr) (s : State) (st : BitVec 12) : exec i { s with status := st } = exec i s := calc
  exec i { s with status := st } = exec i s.beginCommand := (exec_beginCommand i { s with status := st }).symm
  _ = exec i s := exec_beginCommand i s

end

/-- Settles O43: field by field at each end of a command. -/
theorem commandsKeepOperands : Obligations.CommandsKeepOperands :=
  fun _ _ _ hexec => ⟨(ends_of_exec hexec).sameOperands, (ends_of_exec hexec).sameHost⟩

/-- Settles O44: the command start overwrites STATUS before anything reads it. -/
theorem commandsIgnoreStatus : Obligations.CommandsIgnoreStatus := exec_withStatus

/-! ## No write beyond `N` or RLEN -/

section
variable {i : Instr} {s t : State}

theorem samePix_of_pix_eq (hpix : t.pix = s.pix) (hresets : t.resets = s.resets) : SamePix s t := fun idx => by
  rw [State.pixCell, State.pixCell, hpix, hresets]

theorem samePay_of_pay_eq (hpay : t.pay = s.pay) (hresets : t.resets = s.resets) : SamePay s t := fun a => by
  rw [State.payByte, State.payByte, hpay, hresets]

theorem notMem_take_filtered {m : Method} {f k idx : Nat} (hidx : s.pixelCount ≤ idx) : idx ∉ (s.filtered m f).take k :=
  fun hmem => (mem_filtered.1 (List.mem_of_mem_take hmem)).1.1.not_ge hidx

theorem le_pixelCount_of_firstError (hi : i ∈ [Instr.hdrwr, .hdrrd]) (herr : firstError i s = none) : 579 ≤ s.pixelCount := by
  by_contra hN
  fin_cases hi <;> simp [firstError, Nat.lt_of_not_le hN] at herr

theorem Ends.pixCell_of_le (h : Ends s i t) {idx : Nat} (hidx : s.pixelCount ≤ idx) : t.pixCell idx = s.pixCell idx := by
  cases h with
  | @embed m herr hm =>
    obtain ⟨-, hN⟩ := operands_of_firstError_embed (s := s) (by simp [herr])
    refine (onlyLsbChangesAt_afterEmbed (s := s) (m := m)).1 idx ?_
    rw [List.mem_append, List.mem_range, not_or]
    exact ⟨by omega, notMem_take_filtered hidx⟩
  | hdrwr herr =>
    have hN := le_pixelCount_of_firstError (by simp) herr
    refine ((onlyLsbChangesAt_writeHeader s s.hdr).complete false).1 idx ?_
    rw [List.mem_range]
    omega
  | @wrbits m herr hm => exact (onlyLsbChangesAt_afterWrbits (s := s) (m := m)).1 idx (notMem_take_filtered hidx)
  | _ => exact samePix_of_pix_eq (by simp) (by simp) idx

theorem Ends.payByte_of_le (h : Ends s i t) {a : Nat} (ha : t.rlen.toNat ≤ a) : t.payByte a = s.payByte a := by
  have hresets := h.sameHost.resets
  obtain hpay | ⟨bs, hlen, hpay⟩ := h.pay_cases
  · exact samePay_of_pay_eq hpay hresets a
  · calc t.payByte a
        = (s.payWrite bs).payByte a := samePay_of_pay_eq (s := s.payWrite bs) hpay hresets a
      _ = s.payByte a := payByte_payWrite_of_le (hlen.trans_le ha)

end

/-! ## PIX at or above `N` -/

section
variable {i : Instr} {s t : State} {q : Memory Pixel}

namespace SameButPix

theorem pixGetBit {A : Nat → Prop} {u : State} (h : SameButPix A s u) {idx : Nat} (hidx : A idx) :
    u.pixGetBit idx = s.pixGetBit idx := by
  rw [State.pixGetBit, State.pixGetBit, h.cells idx hidx]

variable (hq : SameButPix (· < s.pixelCount) s { s with pix := q })
include hq

theorem headerBits (hN : 579 ≤ s.pixelCount) : { s with pix := q }.headerBits = s.headerBits :=
  readBits_congr fun _ hidx => hq.pixGetBit ((mem_headerIndices.1 hidx).trans_le hN)

theorem readBits_filtered (m : Method) (f k : Nat) :
    { s with pix := q }.readBits ((s.filtered m f).take k) = s.readBits ((s.filtered m f).take k) :=
  readBits_congr fun _ hidx => hq.pixGetBit (mem_filtered.1 (List.mem_of_mem_take hidx)).1.1

theorem sameFrameRegion : SameFrameRegion s { s with pix := q } := ⟨rfl, rfl, fun _ _ hidx => hq.pixGetBit hidx⟩

/-- EXTRACT reads its header and its frame below `N`. -/
theorem exec_extract (hexec : exec .extract s = .next t) : exec .extract { s with pix := q } = .next { t with pix := q } := by
  have hsame := hq.sameFrameRegion
  obtain ⟨hN, hend⟩ | ⟨hN, hdr, hh, hread⟩ := exec_extract_cases s
  · cases hexec.symm.trans hend
    exact exec_extract_of_lt hN
  have hh' : hdrDecode { s with pix := q }.headerBits = .ok hdr := (hq.headerBits hN).symm ▸ hh
  obtain ⟨hshort, hend⟩ | ⟨n, p, hframe, hend⟩ := hread
  · cases hexec.symm.trans hend
    exact exec_extract_short hN hh' (by rwa [hsame.frameIndices, hsame.frameLength])
  · cases hexec.symm.trans hend
    exact Machine.exec_extract hN hh' (hsame.holdsFrame hframe)

/-- The reading commands read PIX below `N` only. -/
theorem ends_of_reads (h : Ends s i t) (hi : i ∈ [Instr.extract, .hdrrd, .rdbits, .selnext, .selcnt]) :
    Ends { s with pix := q } i { t with pix := q } := by
  by_cases hextract : i = .extract
  · subst hextract
    exact ends_of_exec (hq.exec_extract (exec_of_ends h))
  cases h with
  | extract => exact absurd rfl hextract
  | embedCapacity | wrbitsCapacity | embed | hdrwr | wrbits => simp at hi
  | @raises _ e herr hcap =>
    have herr' : firstError i { s with pix := q } = firstError i s := by
      cases i with
      | extract => exact absurd rfl hextract
      | _ => rfl
    exact .raises (herr'.trans herr) hcap
  | hdrrd herr hh => exact .hdrrd herr ((hq.headerBits (le_pixelCount_of_firstError (by simp) herr)).symm ▸ hh)
  | selnextFound herr hm hS => exact .selnextFound herr hm hS
  | selnextEnd herr hm hS => exact .selnextEnd herr hm hS
  | selcnt herr hm => exact .selcnt herr hm
  | rdbits herr hm hbs => exact .rdbits herr hm (hq.readBits_filtered _ _ _ ▸ hbs)

/-- A command ends alike whatever PIX holds at or above `N`. -/
theorem ends (h : Ends s i t) : ∃ t', Ends { s with pix := q } i t' ∧ SameButPix (· < s.pixelCount) t t' := by
  by_cases hi : i ∈ [Instr.extract, .hdrrd, .rdbits, .selnext, .selcnt]
  · refine ⟨_, hq.ends_of_reads h hi, rfl, fun idx hidx => ?_⟩
    have hresets := h.sameHost.resets
    calc { t with pix := q }.pixCell idx
        = { s with pix := q }.pixCell idx := samePix_of_pix_eq (s := { s with pix := q }) (t := { t with pix := q }) rfl hresets idx
      _ = s.pixCell idx := hq.cells idx hidx
      _ = t.pixCell idx := (samePix_of_pix_eq (h.pix_eq hi) hresets idx).symm
  · exact h.withPix (by cases i <;> simp at hi ⊢) hq

end SameButPix

end

/-! ## PAY at or above PLEN -/

section
variable {i : Instr} {s t : State} {p : Memory Byte}

theorem writeBits_withPay (s : State) (p : Memory Byte) (S : List Nat) (xs : Bits) :
    { s with pay := p }.writeBits S xs = { s.writeBits S xs with pay := p } := by
  induction S generalizing s xs with
  | nil => cases xs <;> rfl
  | cons idx S ih => cases xs with
    | nil => rfl
    | cons x xs => exact ih (s.pixSetBit idx x) xs

theorem payloadOperand_withPay (hp : ∀ a < s.plen.toNat, { s with pay := p }.payByte a = s.payByte a) :
    { s with pay := p }.payloadOperand = s.payloadOperand :=
  List.map_congr_left fun a ha => hp a (List.mem_range.1 ha)

theorem writeHeader_withPay (s : State) (p : Memory Byte) (h : Header) :
    { s with pay := p }.writeHeader h = { s.writeHeader h with pay := p } := writeBits_withPay s p _ _

theorem afterEmbed_withPay (m : Method) (hp : { s with pay := p }.payloadOperand = s.payloadOperand) :
    { s with pay := p }.afterEmbed m = { s.afterEmbed m with pay := p } := by
  have hframe : { s with pay := p }.payloadFrame = s.payloadFrame := congrArg (frameBits (s.plen.extractLsb' 0 32)) hp
  calc { s with pay := p }.afterEmbed m
      = (({ s.withEmbedRegisters m with pay := p }.writeHeader (s.placedHeader m)).writeBits (s.filtered m 579)
          { s with pay := p }.payloadFrame).complete false := rfl
    _ = { s.afterEmbed m with pay := p } := by rw [hframe, writeHeader_withPay, writeBits_withPay]; rfl

theorem afterWrbits_withPay (m : Method) (hp : { s with pay := p }.payloadOperand = s.payloadOperand) :
    { s with pay := p }.afterWrbits m = { s.afterWrbits m with pay := p } := calc
  { s with pay := p }.afterWrbits m
      = ({ s.recordCapacity (8 * s.plen.toNat) (s.filtered m s.floor.toNat).length with pay := p }.writeBits
          (s.filtered m s.floor.toNat) (bytesToBits { s with pay := p }.payloadOperand)).complete false := rfl
  _ = { s.afterWrbits m with pay := p } := by rw [hp, writeBits_withPay]; rfl

/-- The commands that leave PAY read the payload operand of it and no more. -/
theorem Ends.withPayloadOperand (h : Ends s i t) (hi : i ∈ [Instr.embed, .hdrwr, .wrbits, .hdrrd, .selnext, .selcnt])
    (hp : { s with pay := p }.payloadOperand = s.payloadOperand) : Ends { s with pay := p } i { t with pay := p } := by
  cases h with
  | extract | rdbits => simp at hi
  | raises herr hcap =>
    have herr' : firstError i { s with pay := p } = firstError i s := by
      fin_cases hi <;> rfl
    exact .raises (herr'.trans herr) hcap
  | embedCapacity herr hm => exact .embedCapacity herr hm
  | wrbitsCapacity herr hm => exact .wrbitsCapacity herr hm
  | @embed m herr hm => exact afterEmbed_withPay m hp ▸ Ends.embed herr hm
  | hdrwr herr =>
    have hends := Ends.hdrwr (s := { s with pay := p }) herr
    rw [writeHeader_withPay] at hends
    exact hends
  | hdrrd herr hh => exact .hdrrd herr hh
  | selnextFound herr hm hS => exact .selnextFound herr hm hS
  | selnextEnd herr hm hS => exact .selnextEnd herr hm hS
  | selcnt herr hm => exact .selcnt herr hm
  | @wrbits m herr hm => exact afterWrbits_withPay m hp ▸ Ends.wrbits herr hm

end

/-- Settles O37: the indices of every sequence are below `N` and the bytes written number RLEN; a command ends alike whatever the
memories hold beyond `N` and PLEN. -/
theorem commandsStayInBounds : Obligations.CommandsStayInBounds := by
  refine ⟨fun i s t hexec => ?writes, fun i s t q hq hexec => ?pix, fun i s t p hp hexec => ?pay⟩
  case writes =>
    have hends := ends_of_exec hexec
    exact ⟨fun idx => hends.pixCell_of_le, fun a => hends.payByte_of_le⟩
  case pix =>
    have hsame : SameButPix (· < s.pixelCount) s { s with pix := q } := ⟨rfl, hq⟩
    obtain ⟨t', hends, hsame'⟩ := hsame.ends (ends_of_exec hexec)
    exact ⟨t', exec_of_ends hends, hsame'.frame, hsame'.cells⟩
  case pay =>
    by_cases hi : i ∈ [Instr.extract, .rdbits]
    · obtain ⟨t', hends, hsame⟩ := (ends_of_exec hexec).withPay hi p
      exact ⟨t', exec_of_ends hends, hsame.frame⟩
    · have hends := (ends_of_exec hexec).withPayloadOperand (by cases i <;> simp at hi ⊢) (payloadOperand_withPay hp)
      exact ⟨_, exec_of_ends hends, rfl⟩

end Sys2Proof.Machine
end

section
/-! O11, O12, and O51 to O55: the host port (R21, R22, R35, R37, R61, R240; logs 1 to 4 and 6 to 8). -/

namespace Sys2Proof.Machine

/-! ## Register access -/

section
variable {s : State} {r : Reg} {n : BitVec 8} {j v : Nat} {rest : List HostAccess}

theorem step_write (hidle : statusBusy s.status = false) (hr : regIsArray r = false) (hcmd : r ≠ .cmd)
    (hhost : s.host = .write (regNumber r) v :: rest) : step s = .next ({ s with host := rest }.writeReg r v) :=
  (step_of_idle hidle hhost).trans (writeNumber_plain hr hcmd)

theorem step_write_cmd (hidle : statusBusy s.status = false) (hhost : s.host = .write (regNumber .cmd) v :: rest) :
    step s = startCommand v { s with host := rest } := step_of_idle hidle hhost

theorem readReg_answer (s : State) (r : Reg) : (s.answerRead (s.readReg r)).readData.toNat = s.readReg r :=
  Nat.mod_eq_of_lt (readReg_lt_readData s r)

theorem readElem_answer (s : State) (r : Reg) (j : Nat) : (s.answerRead (s.readElem r j)).readData.toNat = s.readElem r j :=
  Nat.mod_eq_of_lt ((readElem_lt s r j).trans (by decide))

end

/-- Settles O51: the answer to each form of register access, and what the registers read as after it. -/
theorem hostRegisterAccess : Obligations.HostRegisterAccess := by
  refine ⟨?write, ?writeElem, ?writeUnassigned, ?writeElemUnassigned, ?read, ?readElem, ?readUnassigned, ?readElemUnassigned,
    fun s => rfl, fun s v rest hidle hhost => step_write_cmd hidle hhost, ?hdrMethod⟩
  case write =>
    intro s r v rest hidle hr hcmd hhost
    refine ⟨_, step_write hidle hr hcmd hhost, fun hacc => readReg_writeReg_same _ v hacc hr, writeReg_of_readOnly _ v,
      fun r' hne => readReg_writeReg_other _ v hne, readElem_writeReg _ r v, ?_⟩
    simp
  case writeElem =>
    intro s r j v rest hidle hr hj hhost
    refine ⟨_, (step_of_idle hidle hhost).trans (writeNumberElem_array hr hj), ?_, fun r' k hne => ?_,
      readReg_writeElem _ r j v, ?_⟩
    · rw [readElem_writeElem _ v hr hj, if_pos ⟨rfl, rfl⟩]
    · rw [readElem_writeElem _ v hr hj, if_neg hne]
      rfl
    · simp
  case writeUnassigned =>
    exact fun s n v rest hidle hn hhost => (step_of_idle hidle hhost).trans (writeNumber_unassigned hn)
  case writeElemUnassigned =>
    exact fun s n j v rest hidle hn hhost => (step_of_idle hidle hhost).trans (writeNumberElem_unassigned hn)
  case read =>
    exact fun s r rest hidle hr hhost =>
      ⟨_, (step_of_idle hidle hhost).trans (readNumber_plain hr), readReg_answer _ r, rfl⟩
  case readElem =>
    exact fun s r j rest hidle hr hj hhost =>
      ⟨_, (step_of_idle hidle hhost).trans (readNumberElem_array hr hj), readElem_answer _ r j, rfl⟩
  case readUnassigned =>
    exact fun s n rest hidle hn hhost => (step_of_idle hidle hhost).trans (readNumber_unassigned hn)
  case readElemUnassigned =>
    exact fun s n j rest hidle hn hhost => (step_of_idle hidle hhost).trans (readNumberElem_unassigned hn)
  case hdrMethod => exact fun s rest hidle hhost => ⟨_, step_write (r := .hdrMethod) hidle rfl (by decide) hhost, rfl⟩

theorem readElem_of_lt (s : State) {j : Nat} (hj : j < 64) :
    s.readElem .fname j = s.fname[j].toNat ∧ s.readElem .hdrFname j = s.hdr.fname[j].toNat := by
  simp [State.readElem, hj]

/-- Settles O52: the rows of the table by evaluation, and the registers' data and bounds by the lemmas about reading them. -/
theorem registerNumbersAndWidths : Obligations.RegisterNumbersAndWidths := by
  iterate 22 refine ⟨⟨rfl, rfl, rfl, rfl⟩, ?_⟩
  refine ⟨fun n r => regOfNumber_eq_some, fun n => regOfNumber_eq_none, fun s => ?data, readReg_lt, readElem_lt⟩
  case data =>
    iterate 19 refine ⟨rfl, ?_⟩
    exact fun j hj => readElem_of_lt s hj

/-! ## Refused transactions -/

/-- The ill-formed transactions are those of the other registers' form (log 7). -/
theorem wellFormed_eq_false (a : HostAccess) : a.wellFormed = false ↔
    (∃ r, regIsArray r = true ∧ ((∃ v, a = .write (regNumber r) v) ∨ a = .read (regNumber r))) ∨
    (∃ r j, regIsArray r = false ∧ j ≤ 63 ∧ ((∃ v, a = .writeElem (regNumber r) j v) ∨ a = .readElem (regNumber r) j)) := by
  cases a with
  | write n v => exact names_array_iff.trans (by simp)
  | writeElem n j v => exact names_plain_iff.trans (by simp)
  | read n => exact names_array_iff.trans (by simp)
  | readElem n j => exact names_plain_iff.trans (by simp)
  | pixWrite | pixRead | payWrite | payRead | reset => simp [HostAccess.wellFormed]

theorem hostAccess_of_busy {s : State} {a : HostAccess} (hbusy : statusBusy s.status = true) (hne : a ≠ .reset) :
    hostAccess a s = .refused .hostAccessWhileBusy := by
  cases a with
  | reset => exact absurd rfl hne
  | _ => exact if_pos hbusy

/-- Settles O53: the answers and the refusals of an idle engine, by the form of the transaction. -/
theorem wellFormedAccessIsAnswered : Obligations.WellFormedAccessIsAnswered := by
  refine ⟨fun s a rest hhost hidle hwf => ?answered, wellFormed_eq_false, ?writeArray, ?readArray,
    ?writePlain, ?readPlain, fun s a rest hhost hbusy hne => ?busy⟩
  case answered =>
    obtain ⟨t, ht, -⟩ := hostAccessIdle_answers { s with host := rest } hwf
    exact ⟨t, (step_of_idle hidle hhost).trans ht⟩
  case busy => exact (step_of_host hhost).trans (hostAccess_of_busy hbusy hne)
  case writeArray => exact fun s r v rest hidle hr hhost => (step_of_idle hidle hhost).trans (writeNumber_array hr)
  case readArray => exact fun s r rest hidle hr hhost => (step_of_idle hidle hhost).trans (readNumber_array hr)
  case writePlain =>
    exact fun s r j v rest hidle hr hj hhost => (step_of_idle hidle hhost).trans (writeNumberElem_plain hr hj)
  case readPlain =>
    exact fun s r j rest hidle hr hj hhost => (step_of_idle hidle hhost).trans (readNumberElem_plain hr hj)

/-! ## The memory ports -/

theorem pixelOfCell_cellOfPixel (p : Pixel) : pixelOfCell (cellOfPixel p) = p := by
  have hr : (cellOfPixel p).extractLsb' 16 8 = p.r :=
    (BitVec.extractLsb'_append_eq_of_le (by decide)).trans BitVec.extractLsb'_append_eq_left
  have hg : (cellOfPixel p).extractLsb' 8 8 = p.g :=
    (BitVec.extractLsb'_append_eq_of_le (by decide)).trans BitVec.extractLsb'_append_eq_right
  have hb : (cellOfPixel p).extractLsb' 0 8 = p.b := BitVec.extractLsb'_append_eq_right
  rw [pixelOfCell, hr, hg, hb]

theorem cellOfPixel_pixelOfCell (c : BitVec 24) : cellOfPixel (pixelOfCell c) = c := calc
  c.extractLsb' 16 8 ++ c.extractLsb' 8 8 ++ c.extractLsb' 0 8
      = c.extractLsb' 8 16 ++ c.extractLsb' 0 8 := congrArg (· ++ _) (BitVec.extractLsb'_append_extractLsb'_eq_extractLsb' rfl)
  _ = c.extractLsb' 0 24 := BitVec.extractLsb'_append_extractLsb'_eq_extractLsb' rfl
  _ = c := BitVec.extractLsb'_eq_self

/-- A component of a pixel is eight bits of its cell (R61). -/
theorem cell_component_toNat (c : BitVec 24) (k : Nat) : (c.extractLsb' k 8).toNat = c.toNat / 2 ^ k % 256 := by
  rw [BitVec.extractLsb'_toNat, Nat.shiftRight_eq_div_pow]

theorem payByte_write (s : State) (a b : Nat) (x : Byte) :
    { s with pay := s.pay.write a x }.payByte b = if b = a then x else s.payByte b := by
  simp only [State.payByte, lookup_write]
  split <;> simp

/-- Settles O11: a cell and a pixel are the same 24 bits, and one cell of PIX is written or read. -/
theorem pixelPortMovesPackedCell : Obligations.PixelPortMovesPackedCell := by
  refine ⟨fun c => ⟨?red, cell_component_toNat c 8, ?blue, ?dataBit, cellOfPixel_pixelOfCell c⟩, pixelOfCell_cellOfPixel,
    ?write, ?read⟩
  case red =>
    have hlt := c.isLt
    exact (cell_component_toNat c 16).trans (Nat.mod_eq_of_lt (by omega))
  case blue => exact (cell_component_toNat c 0).trans (by rw [Nat.pow_zero, Nat.div_one])
  case dataBit => simp [pixelOfCell]
  case write =>
    intro s idx c rest hidle hhost
    refine ⟨_, step_of_idle hidle hhost, ?_, fun j hj => ?_, rfl⟩
    · rw [pixCell_setPixCell, if_pos rfl]
    · rw [pixCell_setPixCell, if_neg hj]
      rfl
  case read =>
    intro s idx rest hidle hhost
    exact ⟨_, step_of_idle hidle hhost, Nat.mod_eq_of_lt ((cellOfPixel _).isLt.trans (by decide)), rfl⟩

/-- Settles O12: one byte of PAY is written or read. -/
theorem payloadPortMovesBytes : Obligations.PayloadPortMovesBytes := by
  refine ⟨fun s a x rest hidle hhost => ⟨_, step_of_idle hidle hhost, ?_, fun b hb => ?_, rfl⟩,
    fun s a rest hidle hhost => ⟨_, step_of_idle hidle hhost, ?_, rfl⟩⟩
  · rw [payByte_write, if_pos rfl]
  · rw [payByte_write, if_neg hb]
    rfl
  · exact Nat.mod_eq_of_lt ((s.payByte a.toNat).isLt.trans (by decide))

/-! ## Reset -/

/-- Settles O54: every register is 0, and no cell of a memory is listed. -/
theorem resetState : Obligations.ResetState := by
  refine ⟨fun r => ?regs, fun r j => ?elems, by decide, by decide, by decide, by decide, by decide, fun _ => rfl, fun _ => rfl⟩
  case regs => cases r <;> rfl
  case elems =>
    have hzero : (Vector.replicate 64 0#8).toList.getD j 0#8 = 0#8 := by
      rw [Vector.toList_replicate, List.getD_eq_getElem?_getD, List.getElem?_getD_replicate_default_eq]
    cases r with
    | fname | hdrFname => exact congrArg BitVec.toNat hzero
    | _ => rfl

/-- Settles O55: the reset event is answered before BUSY is looked at. -/
theorem resetEventFromAnyState : Obligations.ResetEventFromAnyState :=
  fun _ _ hhost => ⟨_, step_of_host hhost, rfl, rfl, rfl, fun _ => rfl, fun _ => rfl⟩

end Sys2Proof.Machine
end

section
/-! O47 to O49 and O56: command words, and the steps that run a command (R90 to R93, R102, R212; log 1). -/

namespace Sys2Proof.Machine

/-! ## Command words -/

@[simp] theorem decode_encode (i : Instr) : decode (encode i) = .ok i := by cases i <;> rfl

theorem decode_eq_ok {op : BitVec 8} {i : Instr} : decode op = .ok i ↔ op = encode i := by
  refine ⟨fun h => BitVec.eq_of_toNat_eq ?_, fun h => h ▸ decode_encode i⟩
  unfold decode at h
  split at h <;> cases h <;> assumption

theorem decode_eq_reserved {op : BitVec 8} : decode op = .error (.reservedOpcode op) ↔ op = 0x00#8 ∨ 0x09 ≤ op.toNat := by
  rw [← BitVec.toNat_inj, BitVec.toNat_ofNat]
  obtain ⟨i, hdec, hlow, hhigh⟩ | ⟨hdec, hop⟩ := decode_cases op
  · exact iff_of_false (by simp [hdec]) (by omega)
  · exact iff_of_true hdec hop

/-- Settles O47: each word is the encoding of its command. -/
theorem opcodeMapWords : Obligations.OpcodeMapWords :=
  ⟨decode_encode .embed, decode_encode .extract, decode_encode .hdrwr, decode_encode .hdrrd, decode_encode .selnext,
    decode_encode .selcnt, decode_encode .wrbits, decode_encode .rdbits⟩

/-- Settles O48: the decoder by its map, and the two checks command by command. -/
theorem decodeAndEncodeAgree : Obligations.DecodeAndEncodeAgree :=
  ⟨fun _ _ => decode_eq_ok, fun _ => decode_eq_reserved, fun i => by cases i <;> exact ⟨rfl, rfl⟩⟩

/-! ## Steps that run a command -/

theorem startCommand_of_decode {v : Nat} {i : Instr} (h : decode (opcodeField v) = .ok i) (s : State) :
    startCommand v s = exec i s := by
  rw [startCommand, h]

theorem opcodeField_mod (v : Nat) : BitVec.ofNat 8 (v % 256) = opcodeField v :=
  BitVec.eq_of_toNat_eq (by simp [opcodeField])

theorem decode_of_decodeTableWord {nbits w : Nat} {i : Instr} (h : decodeTableWord nbits w = some i) :
    decode (opcodeField (w % 2 ^ nbits)) = .ok i := by
  unfold decodeTableWord at h
  split at h
  · next hdec => cases h; exact hdec
  · cases h

theorem statusBusy_statusIdle (st : BitVec 12) : statusBusy (statusIdle st) = false := by
  simp [statusBusy, statusIdle]

/-- Settles O49: a CMD write runs `startCommand`, and the STATUS that `withFetchWord` clears is not read. -/
theorem stepRunsDecodedCommand : Obligations.StepRunsDecodedCommand := by
  refine ⟨fun s v rest i hidle hhost hdec => ?write, fun s w i hword => ?fetch, fun s => step_of_no_host⟩
  case write =>
    rw [opcodeField_mod] at hdec
    exact (step_write_cmd hidle hhost).trans (startCommand_of_decode hdec _)
  case fetch =>
    calc step (s.withFetchWord 8 w)
        = startCommand (w % 2 ^ 8) { s with status := statusIdle s.status } :=
          step_write_cmd (statusBusy_statusIdle s.status) rfl
      _ = exec i { s with status := statusIdle s.status } := startCommand_of_decode (decode_of_decodeTableWord hword) _
      _ = exec i s := exec_withStatus i s _

/-- A run that starts with a write to a register. -/
theorem run_write {s : State} {r : Reg} {v : Nat} {rest : List HostAccess} (k : Nat)
    (hhost : s.host = .write (regNumber r) v :: rest) (hidle : statusBusy s.status = false) (hr : regIsArray r = false)
    (hcmd : r ≠ .cmd) : core.run (k + 1) s = core.run k ({ s with host := rest }.writeReg r v) := by
  simp [Host.Core.run, core, step_write hidle hr hcmd hhost]

theorem decode_opcodeField_encode (i : Instr) : decode (opcodeField (encode i).toNat) = .ok i := by
  rw [opcodeField, BitVec.ofNat_toNat, BitVec.setWidth_eq, decode_encode]

/-- A run of one step that is `cmd` of a mnemonic. -/
theorem run_command {s : State} {i : Instr} {rest : List HostAccess} (hhost : s.host = cmdAccess (encode i) :: rest)
    (hidle : statusBusy s.status = false) : core.run 1 s = exec i { s with host := rest } := by
  have hstep : step s = exec i { s with host := rest } :=
    (step_write_cmd hidle hhost).trans (startCommand_of_decode (decode_opcodeField_encode i) _)
  obtain ⟨t, hexec, -⟩ := exec_ends i { s with host := rest }
  simp [Host.Core.run, core, hstep, hexec]

/-- Settles O56: three register writes and a CMD write. -/
theorem hidetextRunsEmbed : Obligations.HidetextRunsEmbed := by
  intro s m hidle
  have hwrites : core.run 4 { s with host := expandStmt (.hidetext m) } = core.run 1 { s with
      host := [cmdAccess (encode .embed)], method := BitVec.ofNat 8 m, info := 0#1, fnlen := 0#8 } := calc
    core.run 4 { s with host := expandStmt (.hidetext m) }
      = core.run 3 { s with
          host := [wrAccess .info 0, wrAccess .fnlen 0, cmdAccess (encode .embed)], method := BitVec.ofNat 8 m } :=
        run_write (s := { s with host := expandStmt (.hidetext m) }) (r := .method) 3 rfl hidle rfl (by decide)
    _ = core.run 2 { s with
          host := [wrAccess .fnlen 0, cmdAccess (encode .embed)], method := BitVec.ofNat 8 m, info := 0#1 } :=
        run_write (r := .info) 2 rfl (by exact hidle) rfl (by decide)
    _ = core.run 1 { s with
          host := [cmdAccess (encode .embed)], method := BitVec.ofNat 8 m, info := 0#1, fnlen := 0#8 } :=
        run_write (r := .fnlen) 1 rfl (by exact hidle) rfl (by decide)
  exact hwrites.trans (run_command rfl (by exact hidle))

end Sys2Proof.Machine
end
